-- ==== Sys2Proof/Word.lean ====
section
/-! DEFINITION. The word types of the shifter and of the program text it is written in. -/

namespace Sys2Proof

/-- A normal word: one register of a compute block (10_state.md R11). -/
abbrev Word := BitVec 32

/-- A long word: a dual register, or BFOTMP (10_state.md R12, R23). -/
abbrev LongWord := BitVec 64

/-- One character of program text. -/
abbrev Byte := BitVec 8

/-- A piece of program text. The spec is at the level of textual assembly (00_scope.md R2). -/
abbrev Text := List Byte

/-- The text a string literal spells, one byte a character. -/
def txt (s : String) : Text := s.toList.map fun c => BitVec.ofNat 8 c.toNat

/-- The byte of one character. -/
def byteOf (c : Char) : Byte := BitVec.ofNat 8 c.toNat

end Sys2Proof
end

