-- ==== Sys2Proof/Config.lean ====
section
/-! DEFINITION. What an implementation fixes (00_scope.md R5) and the values the spec leaves open.

The OPEN parameters of R5 are opaque constants, so that a claim holds whatever they are: how many registers a block has
and where the named fields of STAT stand (only the bounds of D4 and D18 are known; assumption log 1 and 2), the functions
of EXP and BKFPT, and the draws. Nothing in Lean can evaluate them. -/

namespace Sys2Proof

/-- One of the two compute blocks, X and Y (00_scope.md R1, `NBLK` = 2). -/
inductive Side
  | x
  | y
deriving DecidableEq, Repr

namespace Config

/-- How many registers a compute block has beyond R0 to R17, the ones the source names (R11). Open. -/
opaque moreRegs : Nat

/-- `NREG`, registers per compute block: open, and at least 18 (R5, D4; assumption log 1). Safe. -/
abbrev nreg : Nat := moreRegs + 18

/-- Where the named fields of XSTAT and YSTAT stand: `SZ_BIT`, `SN_BIT`, `BF_LSB` and `AN_BIT` (R5). BF1 is the bit above
BF0. -/
structure Layout where
  sz : Nat
  sn : Nat
  bf : Nat
  an : Nat
deriving DecidableEq, Repr, Inhabited

/-- The five positions of a layout. -/
def Layout.positions (l : Layout) : List Nat := [l.sz, l.sn, l.bf, l.bf + 1, l.an]

/-- The positions are different bits of a 32-bit register (D18). -/
def Layout.valid (l : Layout) : Bool := decide (l.positions.Nodup ∧ ∀ p ∈ l.positions, p < 32)

/-- Any four numbers. -/
opaque someLayout : Layout

/-- The layout of STAT: open, and any one that D18 allows (R5; assumption log 2). Numbers that D18 does not allow stand
for the layout R5 suggests, which is one it allows, so that every allowed layout and no other is meant. Safe. -/
def layout : Layout := if someLayout.valid then someLayout else { sz := 8, sn := 9, bf := 10, an := 1 }

/-- `SZ_BIT` of XSTAT/YSTAT (R5, D18). -/
def szBit : Nat := layout.sz

/-- `SN_BIT` of XSTAT/YSTAT (R5, D18). -/
def snBit : Nat := layout.sn

/-- `BF_LSB`: the position of BF0; BF1 is the next bit up (R5, D18). -/
def bfLsb : Nat := layout.bf

/-- `AN_BIT` of XSTAT/YSTAT (R5, D18). -/
def anBit : Nat := layout.an

/-- `STATL_W`: how many low bits of STAT the instruction `STATL = Rm` loads (R5, R197). -/
def statlWidth : Nat := 14

/-- What EXP computes from a normal word: uninterpreted (43_conversion.md R215, D21). Safe. -/
opaque exp32 : Word → Word

/-- What EXP computes from a long word: uninterpreted, unrelated to `exp32` (R216, D21). Safe. -/
opaque exp64 : LongWord → Word

/-- What BKFPT computes into BF1-0 from the old BF1-0 and its operands: uninterpreted (R219, D22). Safe. -/
opaque bkfpt : BitVec 2 → LongWord → LongWord → BitVec 2

/-- The free values: `UNSPECIFIED_N` of 00_scope.md 4.3 is the low N bits of the value this constant
has at a compute block's draw counter, which every draw advances. Assumption log 5. -/
opaque draw : Side → Nat → LongWord

end Config

end Sys2Proof
end

