-- ==== Sys2Proof/Syntax.lean ====
section
/-! DEFINITION. The instructions of the shifter as terms (30_encoding.md R50, R63), one constructor for each row
of spec/opcode_table.json, and the instruction lines they stand in (R51, 45_conditional.md R250). -/

namespace Sys2Proof

/-- The number of a single register; for a dual or quad register the number of its lowest register (R55). -/
abbrev Reg := Fin Config.nreg

/-- The compute-block choice of an instruction: an absent one is `xy` (R53, 10_state.md R29). -/
inductive Blk
  | x
  | y
  | xy
deriving DecidableEq, Repr

/-- Does an instruction with this block choice execute in the given compute block (R29)? -/
def Blk.runs : Blk → Side → Bool
  | .x, .x => true
  | .x, .y => false
  | .y, .x => false
  | .y, .y => true
  | .xy, _ => true

/-- The block choice that names one compute block only. -/
def Side.blk : Side → Blk
  | .x => .x
  | .y => .y

/-- What FDEP does to the result bits above the deposited field: keep, sign-extend, zero-fill (R62, R182, R183). -/
inductive Fill
  | keep
  | se
  | zf
deriving DecidableEq, Repr

/-- The shifter instructions. `s`, `m`, `n` are the result, data and control registers, `imm` an immediate
control value, `se` the option `(SE)`. The STAT moves name one block, never both (R53). -/
inductive Instr
  /-- `Rs = LSHIFT Rm BY Rn`: row LSHIFT.N.r, R105. -/
  | lshiftNr (blk : Blk) (s m n : Reg)
  /-- `Rs = LSHIFT Rm BY <Imm6>`: row LSHIFT.N.i, R106. -/
  | lshiftNi (blk : Blk) (s m : Reg) (imm : Int)
  /-- `BRs = LSHIFT Rm BY Rn`: row LSHIFT.B.r, R107. -/
  | lshiftBr (blk : Blk) (s m n : Reg)
  /-- `BRs = LSHIFT Rm BY <Imm4>`: row LSHIFT.B.i, R108. -/
  | lshiftBi (blk : Blk) (s m : Reg) (imm : Int)
  /-- `SRs = LSHIFT Rm BY Rn`: row LSHIFT.S.r, R109. -/
  | lshiftSr (blk : Blk) (s m n : Reg)
  /-- `SRs = LSHIFT Rm BY <Imm5>`: row LSHIFT.S.i, R110. -/
  | lshiftSi (blk : Blk) (s m : Reg) (imm : Int)
  /-- `Rsd = LSHIFT Rmd BY Rn`: row LSHIFT.DN.r, R111. -/
  | lshiftDnr (blk : Blk) (s m n : Reg)
  /-- `Rsd = LSHIFT Rmd BY <Imm6>`: row LSHIFT.DN.i, R112. -/
  | lshiftDni (blk : Blk) (s m : Reg) (imm : Int)
  /-- `BRsd = LSHIFT Rmd BY Rn`: row LSHIFT.DB.r, R113. -/
  | lshiftDbr (blk : Blk) (s m n : Reg)
  /-- `BRsd = LSHIFT Rmd BY <Imm4>`: row LSHIFT.DB.i, R114. -/
  | lshiftDbi (blk : Blk) (s m : Reg) (imm : Int)
  /-- `SRsd = LSHIFT Rmd BY Rn`: row LSHIFT.DS.r, R115. -/
  | lshiftDsr (blk : Blk) (s m n : Reg)
  /-- `SRsd = LSHIFT Rmd BY <Imm5>`: row LSHIFT.DS.i, R116. -/
  | lshiftDsi (blk : Blk) (s m : Reg) (imm : Int)
  /-- `LRsd = LSHIFT Rmd BY Rn`: row LSHIFT.L.r, R117. -/
  | lshiftLr (blk : Blk) (s m n : Reg)
  /-- `LRsd = LSHIFT Rmd BY <Imm7>`: row LSHIFT.L.i, R118. -/
  | lshiftLi (blk : Blk) (s m : Reg) (imm : Int)
  /-- `Rs = ASHIFT Rm BY Rn`: row ASHIFT.N.r, R119. -/
  | ashiftNr (blk : Blk) (s m n : Reg)
  /-- `Rs = ASHIFT Rm BY <Imm6>`: row ASHIFT.N.i, R120. -/
  | ashiftNi (blk : Blk) (s m : Reg) (imm : Int)
  /-- `BRs = ASHIFT Rm BY Rn`: row ASHIFT.B.r, R121. -/
  | ashiftBr (blk : Blk) (s m n : Reg)
  /-- `BRs = ASHIFT Rm BY <Imm4>`: row ASHIFT.B.i, R122. -/
  | ashiftBi (blk : Blk) (s m : Reg) (imm : Int)
  /-- `SRs = ASHIFT Rm BY Rn`: row ASHIFT.S.r, R123. -/
  | ashiftSr (blk : Blk) (s m n : Reg)
  /-- `SRs = ASHIFT Rm BY <Imm5>`: row ASHIFT.S.i, R124. -/
  | ashiftSi (blk : Blk) (s m : Reg) (imm : Int)
  /-- `Rsd = ASHIFT Rmd BY Rn`: row ASHIFT.DN.r, R125. -/
  | ashiftDnr (blk : Blk) (s m n : Reg)
  /-- `Rsd = ASHIFT Rmd BY <Imm6>`: row ASHIFT.DN.i, R126. -/
  | ashiftDni (blk : Blk) (s m : Reg) (imm : Int)
  /-- `BRsd = ASHIFT Rmd BY Rn`: row ASHIFT.DB.r, R127. -/
  | ashiftDbr (blk : Blk) (s m n : Reg)
  /-- `BRsd = ASHIFT Rmd BY <Imm4>`: row ASHIFT.DB.i, R128. -/
  | ashiftDbi (blk : Blk) (s m : Reg) (imm : Int)
  /-- `SRsd = ASHIFT Rmd BY Rn`: row ASHIFT.DS.r, R129. -/
  | ashiftDsr (blk : Blk) (s m n : Reg)
  /-- `SRsd = ASHIFT Rmd BY <Imm5>`: row ASHIFT.DS.i, R130. -/
  | ashiftDsi (blk : Blk) (s m : Reg) (imm : Int)
  /-- `LRsd = ASHIFT Rmd BY Rn`: row ASHIFT.L.r, R131. -/
  | ashiftLr (blk : Blk) (s m n : Reg)
  /-- `LRsd = ASHIFT Rmd BY <Imm7>`: row ASHIFT.L.i, R132. -/
  | ashiftLi (blk : Blk) (s m : Reg) (imm : Int)
  /-- `Rs = ROT Rm BY Rn`: row ROT.N.r, R133. -/
  | rotNr (blk : Blk) (s m n : Reg)
  /-- `Rs = ROT Rm BY <Imm6>`: row ROT.N.i, R134. -/
  | rotNi (blk : Blk) (s m : Reg) (imm : Int)
  /-- `Rsd = ROT Rmd BY Rnd`: row ROT.DN.r, R135. -/
  | rotDnr (blk : Blk) (s m n : Reg)
  /-- `Rsd = ROT Rmd BY <Imm6>`: row ROT.DN.i, R136. -/
  | rotDni (blk : Blk) (s m : Reg) (imm : Int)
  /-- `LRsd = ROT Rmd BY Rnd`: row ROT.L.r, R137. -/
  | rotLr (blk : Blk) (s m n : Reg)
  /-- `LRsd = ROT Rmd BY <Imm7>`: row ROT.L.i, R138. -/
  | rotLi (blk : Blk) (s m : Reg) (imm : Int)
  /-- `Rs = BCLR Rm BY Rn`: row BCLR.N.r, R152. -/
  | bclrNr (blk : Blk) (s m n : Reg)
  /-- `Rs = BCLR Rm BY <Imm5>`: row BCLR.N.i, R153. -/
  | bclrNi (blk : Blk) (s m : Reg) (imm : Nat)
  /-- `Rsd = BCLR Rmd BY Rn`: row BCLR.L.r, R154. -/
  | bclrLr (blk : Blk) (s m n : Reg)
  /-- `Rsd = BCLR Rmd BY <Imm6>`: row BCLR.L.i, R155. -/
  | bclrLi (blk : Blk) (s m : Reg) (imm : Nat)
  /-- `Rs = BSET Rm BY Rn`: row BSET.N.r, R156. -/
  | bsetNr (blk : Blk) (s m n : Reg)
  /-- `Rs = BSET Rm BY <Imm5>`: row BSET.N.i, R157. -/
  | bsetNi (blk : Blk) (s m : Reg) (imm : Nat)
  /-- `Rsd = BSET Rmd BY Rn`: row BSET.L.r, R158. -/
  | bsetLr (blk : Blk) (s m n : Reg)
  /-- `Rsd = BSET Rmd BY <Imm6>`: row BSET.L.i, R159. -/
  | bsetLi (blk : Blk) (s m : Reg) (imm : Nat)
  /-- `Rs = BTGL Rm BY Rn`: row BTGL.N.r, R160. -/
  | btglNr (blk : Blk) (s m n : Reg)
  /-- `Rs = BTGL Rm BY <Imm5>`: row BTGL.N.i, R161. -/
  | btglNi (blk : Blk) (s m : Reg) (imm : Nat)
  /-- `Rsd = BTGL Rmd BY Rn`: row BTGL.L.r, R162. -/
  | btglLr (blk : Blk) (s m n : Reg)
  /-- `Rsd = BTGL Rmd BY <Imm6>`: row BTGL.L.i, R163. -/
  | btglLi (blk : Blk) (s m : Reg) (imm : Nat)
  /-- `BITEST Rm BY Rn`: row BITEST.N.r, R164. -/
  | bitestNr (blk : Blk) (m n : Reg)
  /-- `BITEST Rm BY <Imm5>`: row BITEST.N.i, R165. -/
  | bitestNi (blk : Blk) (m : Reg) (imm : Nat)
  /-- `BITEST Rmd BY Rn`: row BITEST.L.r, R166. -/
  | bitestLr (blk : Blk) (m n : Reg)
  /-- `BITEST Rmd BY <Imm6>`: row BITEST.L.i, R167. -/
  | bitestLi (blk : Blk) (m : Reg) (imm : Nat)
  /-- `Rs = FEXT Rm BY Rn {(SE)}`: row FEXT.N.r, R184. -/
  | fextNr (blk : Blk) (s m n : Reg) (se : Bool)
  /-- `Rs = FEXT Rm BY Rnd {(SE)}`: row FEXT.N.d, R185. -/
  | fextNd (blk : Blk) (s m n : Reg) (se : Bool)
  /-- `LRsd = FEXT Rmd BY Rn {(SE)}`: row FEXT.L.r, R186. -/
  | fextLr (blk : Blk) (s m n : Reg) (se : Bool)
  /-- `LRsd = FEXT Rmd BY Rnd {(SE)}`: row FEXT.L.d, R187. -/
  | fextLd (blk : Blk) (s m n : Reg) (se : Bool)
  /-- `Rs += FDEP Rm BY Rn {(SE|ZF)}`: row FDEP.N.r, R188. -/
  | fdepNr (blk : Blk) (s m n : Reg) (fill : Fill)
  /-- `Rs += FDEP Rm BY Rnd {(SE|ZF)}`: row FDEP.N.d, R189. -/
  | fdepNd (blk : Blk) (s m n : Reg) (fill : Fill)
  /-- `LRsd += FDEP Rmd BY Rn {(SE|ZF)}`: row FDEP.L.r, R190. -/
  | fdepLr (blk : Blk) (s m n : Reg) (fill : Fill)
  /-- `LRsd += FDEP Rmd BY Rnd {(SE|ZF)}`: row FDEP.L.d, R191. -/
  | fdepLd (blk : Blk) (s m n : Reg) (fill : Fill)
  /-- `Rs += MASK Rm BY Rn`: row MASK.N, R193. -/
  | maskN (blk : Blk) (s m n : Reg)
  /-- `LRsd += MASK Rmd BY Rnd`: row MASK.L, R194. -/
  | maskL (blk : Blk) (s m n : Reg)
  /-- `{X|Y}STAT = Rm`: row STAT.load, R196. -/
  | statLoad (side : Side) (m : Reg)
  /-- `{X|Y}STATL = Rm`: row STATL.load, R197. -/
  | statlLoad (side : Side) (m : Reg)
  /-- `{X|Y}Rs = {X|Y}STAT`: row STAT.store, R198. -/
  | statStore (side : Side) (s : Reg)
  /-- `Rs = LD0 Rm`: row LD0.N, R211. -/
  | ld0N (blk : Blk) (s m : Reg)
  /-- `Rs = LD0 Rmd`: row LD0.L, R212. -/
  | ld0L (blk : Blk) (s m : Reg)
  /-- `Rs = LD1 Rm`: row LD1.N, R213. -/
  | ld1N (blk : Blk) (s m : Reg)
  /-- `Rs = LD1 Rmd`: row LD1.L, R214. -/
  | ld1L (blk : Blk) (s m : Reg)
  /-- `Rs = EXP Rm`: row EXP.N, R217. -/
  | expN (blk : Blk) (s m : Reg)
  /-- `Rs = EXP Rmd`: row EXP.L, R218. -/
  | expL (blk : Blk) (s m : Reg)
  /-- `BKFPT Rmd, Rnd`: row BKFPT, R219. -/
  | bkfpt (blk : Blk) (m n : Reg)
  /-- `Rsd = GETBITS Rmq BY Rnd {(SE)}`: row GETBITS, R232. -/
  | getbits (blk : Blk) (s m n : Reg) (se : Bool)
  /-- `Rsd += PUTBITS Rmd BY Rnd`: row PUTBITS, R233. -/
  | putbits (blk : Blk) (s m n : Reg)
  /-- `Rsd = BFOTMP`: row BFOTMP.store, R234. -/
  | bfotmpStore (blk : Blk) (s : Reg)
  /-- `BFOTMP = Rmd`: row BFOTMP.load, R235. -/
  | bfotmpLoad (blk : Blk) (m : Reg)
deriving DecidableEq, Repr

/-- The compute blocks an instruction executes in (10_state.md R29). -/
def Instr.blk : Instr → Blk
  | .lshiftNr blk _ _ _ => blk
  | .lshiftNi blk _ _ _ => blk
  | .lshiftBr blk _ _ _ => blk
  | .lshiftBi blk _ _ _ => blk
  | .lshiftSr blk _ _ _ => blk
  | .lshiftSi blk _ _ _ => blk
  | .lshiftDnr blk _ _ _ => blk
  | .lshiftDni blk _ _ _ => blk
  | .lshiftDbr blk _ _ _ => blk
  | .lshiftDbi blk _ _ _ => blk
  | .lshiftDsr blk _ _ _ => blk
  | .lshiftDsi blk _ _ _ => blk
  | .lshiftLr blk _ _ _ => blk
  | .lshiftLi blk _ _ _ => blk
  | .ashiftNr blk _ _ _ => blk
  | .ashiftNi blk _ _ _ => blk
  | .ashiftBr blk _ _ _ => blk
  | .ashiftBi blk _ _ _ => blk
  | .ashiftSr blk _ _ _ => blk
  | .ashiftSi blk _ _ _ => blk
  | .ashiftDnr blk _ _ _ => blk
  | .ashiftDni blk _ _ _ => blk
  | .ashiftDbr blk _ _ _ => blk
  | .ashiftDbi blk _ _ _ => blk
  | .ashiftDsr blk _ _ _ => blk
  | .ashiftDsi blk _ _ _ => blk
  | .ashiftLr blk _ _ _ => blk
  | .ashiftLi blk _ _ _ => blk
  | .rotNr blk _ _ _ => blk
  | .rotNi blk _ _ _ => blk
  | .rotDnr blk _ _ _ => blk
  | .rotDni blk _ _ _ => blk
  | .rotLr blk _ _ _ => blk
  | .rotLi blk _ _ _ => blk
  | .bclrNr blk _ _ _ => blk
  | .bclrNi blk _ _ _ => blk
  | .bclrLr blk _ _ _ => blk
  | .bclrLi blk _ _ _ => blk
  | .bsetNr blk _ _ _ => blk
  | .bsetNi blk _ _ _ => blk
  | .bsetLr blk _ _ _ => blk
  | .bsetLi blk _ _ _ => blk
  | .btglNr blk _ _ _ => blk
  | .btglNi blk _ _ _ => blk
  | .btglLr blk _ _ _ => blk
  | .btglLi blk _ _ _ => blk
  | .bitestNr blk _ _ => blk
  | .bitestNi blk _ _ => blk
  | .bitestLr blk _ _ => blk
  | .bitestLi blk _ _ => blk
  | .fextNr blk _ _ _ _ => blk
  | .fextNd blk _ _ _ _ => blk
  | .fextLr blk _ _ _ _ => blk
  | .fextLd blk _ _ _ _ => blk
  | .fdepNr blk _ _ _ _ => blk
  | .fdepNd blk _ _ _ _ => blk
  | .fdepLr blk _ _ _ _ => blk
  | .fdepLd blk _ _ _ _ => blk
  | .maskN blk _ _ _ => blk
  | .maskL blk _ _ _ => blk
  | .statLoad side _ => side.blk
  | .statlLoad side _ => side.blk
  | .statStore side _ => side.blk
  | .ld0N blk _ _ => blk
  | .ld0L blk _ _ => blk
  | .ld1N blk _ _ => blk
  | .ld1L blk _ _ => blk
  | .expN blk _ _ => blk
  | .expL blk _ _ => blk
  | .bkfpt blk _ _ => blk
  | .getbits blk _ _ _ _ => blk
  | .putbits blk _ _ _ => blk
  | .bfotmpStore blk _ => blk
  | .bfotmpLoad blk _ => blk

/-- Does the instruction execute in the given compute block? -/
def Instr.runs (i : Instr) (side : Side) : Bool := i.blk.runs side

/-- The four conditions on the shifter flags (45_conditional.md R252 to R255). -/
inductive FlagCond
  | seq
  | slt
  | nseq
  | nslt
deriving DecidableEq, Repr

/-- The two static flags of a compute block, X/YSCF0 and X/YSCF1 (10_state.md R24). -/
inductive StaticFlag
  | scf0
  | scf1
deriving DecidableEq, Repr

/-- What `IF` tests: a shifter condition of a named block (R256), or SF0 or SF1 (R257). -/
inductive Cond
  | flag (side : Side) (c : FlagCond)
  | static (f : StaticFlag)
deriving DecidableEq, Repr

/-- One instruction slot: `DO, instr` is controlled by the line's condition, `instr` is not (R250). -/
structure Slot where
  controlled : Bool
  instr : Instr
deriving DecidableEq, Repr

/-- One instruction line (R51, R250). `flagLoad` is the sequencer's `{X|Y}SCF{0|1} = cond`, which the spec
describes in R258 and the opcode table does not list. -/
inductive Line
  | issue (cond : Option Cond) (slots : List Slot)
  | flagLoad (dst : Side) (f : StaticFlag) (src : Side) (c : FlagCond)
deriving DecidableEq, Repr

/-- The line that holds one instruction and no condition. -/
def Line.single (i : Instr) : Line := .issue none [⟨false, i⟩]

end Sys2Proof
end

