-- ==== Sys2Proof/WellFormed.lean ====
section
/-! DEFINITION. Which terms are instructions and instruction lines (30_encoding.md R58, R59, R64; 10_state.md R15;
70_reset_and_hazards.md R292, R293; 45_conditional.md R250, R256, R257). An ill-formed one never executes. -/

namespace Sys2Proof

/-- Why a term is not an instruction or not an instruction line. -/
inductive IllFormed
  /-- A dual register that does not start at an even number (R15). -/
  | pair
  /-- A quad register that does not start at a multiple of four (R15). -/
  | quad
  /-- A shift or rotate immediate outside its field (R58). -/
  | magnitude
  /-- A bit number outside the operand (R59). -/
  | bitNumber
  /-- A line with no instruction slot, or more than its form holds (R51, R250). -/
  | slotCount
  /-- `DO` in a line without `IF` (R250). -/
  | doWithoutIf
  /-- Two shifter instructions for one compute block in one line (R292, R293). -/
  | sharedBlock
  /-- `SF0` or `SF1` where the controlled instructions are not all in X or all in Y (R257). -/
  | staticFlagScope
deriving DecidableEq, Repr

/-- One check on the fields of an instruction. -/
inductive Check
  | pair (r : Reg)
  | quad (r : Reg)
  | magnitude (bits : Nat) (k : Int)
  | bitNumber (width b : Nat)

/-- What a check finds. -/
def Check.problem : Check → Option IllFormed
  | .pair r => if r.val % 2 = 0 ∧ r.val + 1 < Config.nreg then none else some .pair
  | .quad r => if r.val % 4 = 0 ∧ r.val + 3 < Config.nreg then none else some .quad
  | .magnitude bits k =>
    if -(2 ^ (bits - 1) : Int) ≤ k ∧ k < (2 ^ (bits - 1) : Int) then none else some .magnitude
  | .bitNumber width b => if b < width then none else some .bitNumber

/-- The checks of each instruction form. That a register number is below `NREG` holds by its type. -/
def Instr.checks : Instr → List Check
  | .lshiftNr _ _ _ _ => []
  | .lshiftNi _ _ _ imm => [.magnitude 6 imm]
  | .lshiftBr _ _ _ _ => []
  | .lshiftBi _ _ _ imm => [.magnitude 4 imm]
  | .lshiftSr _ _ _ _ => []
  | .lshiftSi _ _ _ imm => [.magnitude 5 imm]
  | .lshiftDnr _ s m _ => [.pair s, .pair m]
  | .lshiftDni _ s m imm => [.pair s, .pair m, .magnitude 6 imm]
  | .lshiftDbr _ s m _ => [.pair s, .pair m]
  | .lshiftDbi _ s m imm => [.pair s, .pair m, .magnitude 4 imm]
  | .lshiftDsr _ s m _ => [.pair s, .pair m]
  | .lshiftDsi _ s m imm => [.pair s, .pair m, .magnitude 5 imm]
  | .lshiftLr _ s m _ => [.pair s, .pair m]
  | .lshiftLi _ s m imm => [.pair s, .pair m, .magnitude 7 imm]
  | .ashiftNr _ _ _ _ => []
  | .ashiftNi _ _ _ imm => [.magnitude 6 imm]
  | .ashiftBr _ _ _ _ => []
  | .ashiftBi _ _ _ imm => [.magnitude 4 imm]
  | .ashiftSr _ _ _ _ => []
  | .ashiftSi _ _ _ imm => [.magnitude 5 imm]
  | .ashiftDnr _ s m _ => [.pair s, .pair m]
  | .ashiftDni _ s m imm => [.pair s, .pair m, .magnitude 6 imm]
  | .ashiftDbr _ s m _ => [.pair s, .pair m]
  | .ashiftDbi _ s m imm => [.pair s, .pair m, .magnitude 4 imm]
  | .ashiftDsr _ s m _ => [.pair s, .pair m]
  | .ashiftDsi _ s m imm => [.pair s, .pair m, .magnitude 5 imm]
  | .ashiftLr _ s m _ => [.pair s, .pair m]
  | .ashiftLi _ s m imm => [.pair s, .pair m, .magnitude 7 imm]
  | .rotNr _ _ _ _ => []
  | .rotNi _ _ _ imm => [.magnitude 6 imm]
  | .rotDnr _ s m n => [.pair s, .pair m, .pair n]
  | .rotDni _ s m imm => [.pair s, .pair m, .magnitude 6 imm]
  | .rotLr _ s m n => [.pair s, .pair m, .pair n]
  | .rotLi _ s m imm => [.pair s, .pair m, .magnitude 7 imm]
  | .bclrNr _ _ _ _ => []
  | .bclrNi _ _ _ imm => [.bitNumber 32 imm]
  | .bclrLr _ s m _ => [.pair s, .pair m]
  | .bclrLi _ s m imm => [.pair s, .pair m, .bitNumber 64 imm]
  | .bsetNr _ _ _ _ => []
  | .bsetNi _ _ _ imm => [.bitNumber 32 imm]
  | .bsetLr _ s m _ => [.pair s, .pair m]
  | .bsetLi _ s m imm => [.pair s, .pair m, .bitNumber 64 imm]
  | .btglNr _ _ _ _ => []
  | .btglNi _ _ _ imm => [.bitNumber 32 imm]
  | .btglLr _ s m _ => [.pair s, .pair m]
  | .btglLi _ s m imm => [.pair s, .pair m, .bitNumber 64 imm]
  | .bitestNr _ _ _ => []
  | .bitestNi _ _ imm => [.bitNumber 32 imm]
  | .bitestLr _ m _ => [.pair m]
  | .bitestLi _ m imm => [.pair m, .bitNumber 64 imm]
  | .fextNr _ _ _ _ _ => []
  | .fextNd _ _ _ n _ => [.pair n]
  | .fextLr _ s m _ _ => [.pair s, .pair m]
  | .fextLd _ s m n _ => [.pair s, .pair m, .pair n]
  | .fdepNr _ _ _ _ _ => []
  | .fdepNd _ _ _ n _ => [.pair n]
  | .fdepLr _ s m _ _ => [.pair s, .pair m]
  | .fdepLd _ s m n _ => [.pair s, .pair m, .pair n]
  | .maskN _ _ _ _ => []
  | .maskL _ s m n => [.pair s, .pair m, .pair n]
  | .statLoad _ _ => []
  | .statlLoad _ _ => []
  | .statStore _ _ => []
  | .ld0N _ _ _ => []
  | .ld0L _ _ m => [.pair m]
  | .ld1N _ _ _ => []
  | .ld1L _ _ m => [.pair m]
  | .expN _ _ _ => []
  | .expL _ _ m => [.pair m]
  | .bkfpt _ m n => [.pair m, .pair n]
  | .getbits _ s m n _ => [.pair s, .quad m, .pair n]
  | .putbits _ s m n => [.pair s, .pair m, .pair n]
  | .bfotmpStore _ s => [.pair s]
  | .bfotmpLoad _ m => [.pair m]

/-- The first thing wrong with an instruction. -/
def Instr.problem (i : Instr) : Option IllFormed := i.checks.findSome? Check.problem

/-- The instruction is one: every field is in range and every dual and quad register aligned. -/
def Instr.wf (i : Instr) : Bool := i.problem.isNone

/-- Do all controlled instructions of the line execute in the given block and in no other? -/
def controlledOnlyIn (side : Side) (slots : List Slot) : Bool :=
  slots.all fun sl => !sl.controlled || decide (sl.instr.blk = side.blk)

/-- How many slots execute in a compute block. -/
def runCount (side : Side) (slots : List Slot) : Nat := slots.countP fun sl => sl.instr.runs side

/-- The slots a line may hold: one to three after `IF` (R250); one to four in all without it (R51). -/
def maxSlots : Option Cond → Nat
  | some _ => 3
  | none => 4

/-- What is wrong with the use of a condition in a line. -/
def condProblem (cond : Option Cond) (slots : List Slot) : Option IllFormed :=
  match cond with
  | none => if slots.any (·.controlled) then some .doWithoutIf else none
  | some (.flag _ _) => none
  | some (.static _) =>
    if slots.any (·.controlled) && (controlledOnlyIn .x slots || controlledOnlyIn .y slots) then none
    else some .staticFlagScope

/-- The first thing wrong with a line. -/
def Line.problem : Line → Option IllFormed
  | .flagLoad _ _ _ _ => none
  | .issue cond slots =>
    if slots.length = 0 ∨ maxSlots cond < slots.length then some .slotCount
    else if 1 < runCount .x slots ∨ 1 < runCount .y slots then some .sharedBlock
    else match condProblem cond slots with
      | some p => some p
      | none => slots.findSome? fun sl => sl.instr.problem

/-- The line is an instruction line. -/
def Line.wf (l : Line) : Bool := l.problem.isNone

end Sys2Proof
end

