-- ==== Sys2Proof/Decode.lean ====
section
/-! DEFINITION. From program text to instruction lines and back.

The spec gives no binary encoding (30_encoding.md R50); an instruction is spelled in textual assembly (00_scope.md R2),
so the encoding the model decodes is that text, one byte a character. `decodeLine` reads one instruction line
(R51 to R68, 45_conditional.md R250); it is total, and refuses by name everything that is not a row of R63 with its
fields in range (R64). `encodeLine` spells a line the way the listing does. Conventions: assumption log 7 to 9. -/

namespace Sys2Proof

/-! ## Names of refusals -/

/-- Why a text is not an instruction line (R64). -/
inductive DecodeError
  /-- A character that no token of the source begins with. -/
  | badByte
  /-- A comment that is opened and not closed (R52). -/
  | openComment
  /-- The text does not end with `;;`, or goes on after it (R51). -/
  | lineEnd
  /-- What follows `IF` is not a condition with its block (R256, R257). -/
  | condition
  /-- A slot that is no row of R63: an unknown mnemonic, operand class, size, option or block choice (R64). -/
  | notAForm
  /-- A row of R63 with a field out of range, or slots that may not share a line. -/
  | illFormed (p : IllFormed)
deriving DecidableEq, Repr

/-! ## Tokens -/

/-- A token of program text. The letters of a word are capitals, whatever the text has (00_scope.md R6). -/
inductive Token
  | word (w : Text)
  | eq
  | plusEq
  | semi
  | lineEnd
  | comma
  | colon
  | minus
  | lpar
  | rpar
deriving DecidableEq, Repr

/-- A lower-case letter as its capital; every other byte as it is (R6). -/
def upper (c : Byte) : Byte := if 97 ≤ c.toNat ∧ c.toNat ≤ 122 then c - 32#8 else c

/-- What a character is to the lexer. -/
inductive CharClass
  | space
  | word
  | sym (t : Token)
  | semi
  | plus
  | slash
  | other

/-- Letters and digits make words; blanks, tabs and line breaks separate (log 7). -/
def classify (c : Byte) : CharClass :=
  let n := c.toNat
  if n = 32 ∨ n = 9 ∨ n = 10 ∨ n = 13 then .space
  else if (48 ≤ n ∧ n ≤ 57) ∨ (65 ≤ n ∧ n ≤ 90) ∨ (97 ≤ n ∧ n ≤ 122) then .word
  else if n = 61 then .sym .eq
  else if n = 44 then .sym .comma
  else if n = 58 then .sym .colon
  else if n = 45 then .sym .minus
  else if n = 40 then .sym .lpar
  else if n = 41 then .sym .rpar
  else if n = 59 then .semi
  else if n = 43 then .plus
  else if n = 47 then .slash
  else .other

/-- Where the lexer stands: between tokens, in a word, after `;`, `+` or `/`, in a comment, or after a star in one. -/
inductive LexMode
  | gap
  | word (w : Text)
  | semi
  | plus
  | slash
  | comment
  | star

/-- The token a mode holds back until it is known to be over. -/
def LexMode.pending : LexMode → List Token
  | .word w => [.word w]
  | .semi => [.semi]
  | _ => []

/-- What a character that begins anew gives: tokens at once, and the mode after it. -/
def startToken (c : Byte) : Except DecodeError (List Token × LexMode) :=
  match classify c with
  | .space => .ok ([], .gap)
  | .word => .ok ([], .word [upper c])
  | .sym t => .ok ([t], .gap)
  | .semi => .ok ([], .semi)
  | .plus => .ok ([], .plus)
  | .slash => .ok ([], .slash)
  | .other => .error .badByte

/-- A character that begins anew after what the mode holds back. -/
def flushThen (mode : LexMode) (c : Byte) : Except DecodeError (List Token × LexMode) :=
  match startToken c with
  | .ok (ts, mode') => .ok (mode.pending ++ ts, mode')
  | .error e => .error e

/-- One character of the lexer. A `+` is the first half of `+=` and nothing else: a plus sign before a number, as in `BY +8`, is
refused, where R58 and R67 show unsigned and minus-signed decimals only. DESIGN CHOICE, safe (assumption log 7). -/
def lexStep (mode : LexMode) (c : Byte) : Except DecodeError (List Token × LexMode) :=
  match mode with
  | .comment => .ok ([], if c = byteOf '*' then .star else .comment)
  | .star => .ok ([], if c = byteOf '/' then .gap else if c = byteOf '*' then .star else .comment)
  | .plus => if c = byteOf '=' then .ok ([.plusEq], .gap) else .error .badByte
  | .slash => if c = byteOf '*' then .ok ([], .comment) else .error .badByte
  | .semi => if c = byteOf ';' then .ok ([.lineEnd], .gap) else flushThen .semi c
  | .word w =>
    match classify c with
    | .word => .ok ([], .word (w ++ [upper c]))
    | _ => flushThen (.word w) c
  | .gap => flushThen .gap c

/-- The end of the text. -/
def lexEnd : LexMode → Except DecodeError (List Token)
  | .comment => .error .openComment
  | .star => .error .openComment
  | .plus => .error .badByte
  | .slash => .error .badByte
  | mode => .ok mode.pending

/-- The tokens of a text, from a lexer mode on. A comment separates like a blank (R52). -/
def lexFrom : LexMode → Text → Except DecodeError (List Token)
  | mode, [] => lexEnd mode
  | mode, c :: cs =>
    match lexStep mode c with
    | .error e => .error e
    | .ok (ts, mode') =>
      match lexFrom mode' cs with
      | .error e => .error e
      | .ok us => .ok (ts ++ us)

/-- The tokens of a text. -/
def lex (t : Text) : Except DecodeError (List Token) := lexFrom .gap t

/-! ## Numbers and literals -/

/-- The value of a digit of the given base, the letters being capitals. -/
def digitValue (base : Nat) (c : Byte) : Option Nat :=
  let n := c.toNat
  let v := if 48 ≤ n ∧ n ≤ 57 then n - 48 else if 65 ≤ n ∧ n ≤ 90 then n - 55 else base
  if v < base then some v else none

/-- The value of a digit string, continued from `acc`. -/
def digitsValue (base : Nat) : Text → Nat → Option Nat
  | [], acc => some acc
  | c :: cs, acc =>
    match digitValue base c with
    | some d => digitsValue base cs (acc * base + d)
    | none => none

/-- A decimal number: at least one digit and nothing else (R11, R67). -/
def readDecimal (w : Text) : Option Nat := if w = [] then none else digitsValue 10 w 0

/-- A literal: a decimal number, or a hexadecimal one after `0x` (R67). -/
def readLiteral (w : Text) : Option Nat :=
  match w with
  | z :: x :: h => if z = byteOf '0' ∧ x = byteOf 'X' ∧ h ≠ [] then digitsValue 16 h 0 else readDecimal w
  | _ => readDecimal w

/-- The digit of a value below ten. -/
def digitByte (n : Nat) : Byte := BitVec.ofNat 8 (48 + n % 10)

/-- The decimal digits of a number, as many as the fuel allows. -/
def spellDigits : Nat → Nat → Text
  | 0, _ => []
  | fuel + 1, n => if n < 10 then [digitByte n] else spellDigits fuel (n / 10) ++ [digitByte n]

/-- A number in decimal (R67). -/
def spellNumber (n : Nat) : Text := spellDigits (n + 1) n

/-! ## Surface forms: what the text of a slot says before a row of R63 is chosen -/

/-- The output-size letter (R54). -/
inductive Size
  | normal
  | byte
  | short
  | long
deriving DecidableEq, Repr

/-- A register operand by its lowest register (R55). -/
inductive Operand
  | single (r : Reg)
  | dual (r : Reg)
  | quad (r : Reg)
deriving DecidableEq, Repr

/-- A control operand: a register, or an immediate (R55). -/
inductive Control
  | reg (o : Operand)
  | imm (k : Int)
deriving DecidableEq, Repr

/-- The option in parentheses (R62). -/
inductive Opt
  | se
  | zf
deriving DecidableEq, Repr

/-- The mnemonics that follow a result register. -/
inductive Mnemonic
  | lshift
  | ashift
  | rot
  | bclr
  | bset
  | btgl
  | fext
  | fdep
  | mask
  | ld0
  | ld1
  | exp
  | getbits
  | putbits
deriving DecidableEq, Repr

/-- All of them. -/
def Mnemonic.all : List Mnemonic :=
  [.lshift, .ashift, .rot, .bclr, .bset, .btgl, .fext, .fdep, .mask, .ld0, .ld1, .exp, .getbits, .putbits]

/-- How a mnemonic is written. -/
def Mnemonic.spell : Mnemonic → Text
  | .lshift => txt "LSHIFT"
  | .ashift => txt "ASHIFT"
  | .rot => txt "ROT"
  | .bclr => txt "BCLR"
  | .bset => txt "BSET"
  | .btgl => txt "BTGL"
  | .fext => txt "FEXT"
  | .fdep => txt "FDEP"
  | .mask => txt "MASK"
  | .ld0 => txt "LD0"
  | .ld1 => txt "LD1"
  | .exp => txt "EXP"
  | .getbits => txt "GETBITS"
  | .putbits => txt "PUTBITS"

/-- What a slot says. `op` is `dest = MN data BY control (opt)`, with `+=` where `rmw` (R56). -/
inductive Form
  | op (blk : Blk) (size : Size) (dest : Operand) (rmw : Bool) (mn : Mnemonic) (data : Operand)
      (control : Option Control) (opt : Option Opt)
  | bitest (blk : Blk) (data : Operand) (control : Control)
  | bkfpt (blk : Blk) (m n : Operand)
  | statLoad (blk : Blk) (low : Bool) (m : Operand)
  | statStore (blk : Blk) (size : Size) (dest : Operand) (src : Blk)
  | bfotmpStore (blk : Blk) (size : Size) (dest : Operand)
  | bfotmpLoad (blk : Blk) (m : Operand)
deriving DecidableEq, Repr

/-! ## Rows of the table -/

/-- The option of an instruction that takes `(SE)` only (R62). -/
def seOnly : Option Opt → Option Bool
  | none => some false
  | some .se => some true
  | some .zf => none

/-- The option of FDEP (R62). -/
def fillOf : Option Opt → Fill
  | none => .keep
  | some .se => .se
  | some .zf => .zf

/-- The immediate of a bit number is not negative (R59). -/
def bitNumberOf (k : Int) : Option Nat := if 0 ≤ k then some k.toNat else none

/-- The rows of LSHIFT. -/
def rowOfLshift (blk : Blk) (size : Size) (dest data : Operand) (control : Option Control) : Option Instr :=
  match size, dest, data, control with
  | .normal, .single s, .single m, some (.reg (.single n)) => some (.lshiftNr blk s m n)
  | .normal, .single s, .single m, some (.imm imm) => some (.lshiftNi blk s m imm)
  | .byte, .single s, .single m, some (.reg (.single n)) => some (.lshiftBr blk s m n)
  | .byte, .single s, .single m, some (.imm imm) => some (.lshiftBi blk s m imm)
  | .short, .single s, .single m, some (.reg (.single n)) => some (.lshiftSr blk s m n)
  | .short, .single s, .single m, some (.imm imm) => some (.lshiftSi blk s m imm)
  | .normal, .dual s, .dual m, some (.reg (.single n)) => some (.lshiftDnr blk s m n)
  | .normal, .dual s, .dual m, some (.imm imm) => some (.lshiftDni blk s m imm)
  | .byte, .dual s, .dual m, some (.reg (.single n)) => some (.lshiftDbr blk s m n)
  | .byte, .dual s, .dual m, some (.imm imm) => some (.lshiftDbi blk s m imm)
  | .short, .dual s, .dual m, some (.reg (.single n)) => some (.lshiftDsr blk s m n)
  | .short, .dual s, .dual m, some (.imm imm) => some (.lshiftDsi blk s m imm)
  | .long, .dual s, .dual m, some (.reg (.single n)) => some (.lshiftLr blk s m n)
  | .long, .dual s, .dual m, some (.imm imm) => some (.lshiftLi blk s m imm)
  | _, _, _, _ => none

/-- The rows of ASHIFT. -/
def rowOfAshift (blk : Blk) (size : Size) (dest data : Operand) (control : Option Control) : Option Instr :=
  match size, dest, data, control with
  | .normal, .single s, .single m, some (.reg (.single n)) => some (.ashiftNr blk s m n)
  | .normal, .single s, .single m, some (.imm imm) => some (.ashiftNi blk s m imm)
  | .byte, .single s, .single m, some (.reg (.single n)) => some (.ashiftBr blk s m n)
  | .byte, .single s, .single m, some (.imm imm) => some (.ashiftBi blk s m imm)
  | .short, .single s, .single m, some (.reg (.single n)) => some (.ashiftSr blk s m n)
  | .short, .single s, .single m, some (.imm imm) => some (.ashiftSi blk s m imm)
  | .normal, .dual s, .dual m, some (.reg (.single n)) => some (.ashiftDnr blk s m n)
  | .normal, .dual s, .dual m, some (.imm imm) => some (.ashiftDni blk s m imm)
  | .byte, .dual s, .dual m, some (.reg (.single n)) => some (.ashiftDbr blk s m n)
  | .byte, .dual s, .dual m, some (.imm imm) => some (.ashiftDbi blk s m imm)
  | .short, .dual s, .dual m, some (.reg (.single n)) => some (.ashiftDsr blk s m n)
  | .short, .dual s, .dual m, some (.imm imm) => some (.ashiftDsi blk s m imm)
  | .long, .dual s, .dual m, some (.reg (.single n)) => some (.ashiftLr blk s m n)
  | .long, .dual s, .dual m, some (.imm imm) => some (.ashiftLi blk s m imm)
  | _, _, _, _ => none

/-- The rows of ROT. -/
def rowOfRot (blk : Blk) (size : Size) (dest data : Operand) (control : Option Control) : Option Instr :=
  match size, dest, data, control with
  | .normal, .single s, .single m, some (.reg (.single n)) => some (.rotNr blk s m n)
  | .normal, .single s, .single m, some (.imm imm) => some (.rotNi blk s m imm)
  | .normal, .dual s, .dual m, some (.reg (.dual n)) => some (.rotDnr blk s m n)
  | .normal, .dual s, .dual m, some (.imm imm) => some (.rotDni blk s m imm)
  | .long, .dual s, .dual m, some (.reg (.dual n)) => some (.rotLr blk s m n)
  | .long, .dual s, .dual m, some (.imm imm) => some (.rotLi blk s m imm)
  | _, _, _, _ => none

/-- The rows of BCLR. -/
def rowOfBclr (blk : Blk) (dest data : Operand) (control : Option Control) : Option Instr :=
  match dest, data, control with
  | .single s, .single m, some (.reg (.single n)) => some (.bclrNr blk s m n)
  | .single s, .single m, some (.imm k) => (bitNumberOf k).map fun b => .bclrNi blk s m b
  | .dual s, .dual m, some (.reg (.single n)) => some (.bclrLr blk s m n)
  | .dual s, .dual m, some (.imm k) => (bitNumberOf k).map fun b => .bclrLi blk s m b
  | _, _, _ => none

/-- The rows of BSET. -/
def rowOfBset (blk : Blk) (dest data : Operand) (control : Option Control) : Option Instr :=
  match dest, data, control with
  | .single s, .single m, some (.reg (.single n)) => some (.bsetNr blk s m n)
  | .single s, .single m, some (.imm k) => (bitNumberOf k).map fun b => .bsetNi blk s m b
  | .dual s, .dual m, some (.reg (.single n)) => some (.bsetLr blk s m n)
  | .dual s, .dual m, some (.imm k) => (bitNumberOf k).map fun b => .bsetLi blk s m b
  | _, _, _ => none

/-- The rows of BTGL. -/
def rowOfBtgl (blk : Blk) (dest data : Operand) (control : Option Control) : Option Instr :=
  match dest, data, control with
  | .single s, .single m, some (.reg (.single n)) => some (.btglNr blk s m n)
  | .single s, .single m, some (.imm k) => (bitNumberOf k).map fun b => .btglNi blk s m b
  | .dual s, .dual m, some (.reg (.single n)) => some (.btglLr blk s m n)
  | .dual s, .dual m, some (.imm k) => (bitNumberOf k).map fun b => .btglLi blk s m b
  | _, _, _ => none

/-- The rows of BITEST. -/
def rowOfBitest (blk : Blk) (data : Operand) (control : Control) : Option Instr :=
  match data, control with
  | .single m, .reg (.single n) => some (.bitestNr blk m n)
  | .single m, .imm k => (bitNumberOf k).map fun b => .bitestNi blk m b
  | .dual m, .reg (.single n) => some (.bitestLr blk m n)
  | .dual m, .imm k => (bitNumberOf k).map fun b => .bitestLi blk m b
  | _, _ => none

/-- The rows of FEXT. -/
def rowOfFext (blk : Blk) (size : Size) (dest data : Operand) (control : Option Control) (opt : Option Opt) :
    Option Instr :=
  match size, dest, data, control with
  | .normal, .single s, .single m, some (.reg (.single n)) => (seOnly opt).map fun se => .fextNr blk s m n se
  | .normal, .single s, .single m, some (.reg (.dual n)) => (seOnly opt).map fun se => .fextNd blk s m n se
  | .long, .dual s, .dual m, some (.reg (.single n)) => (seOnly opt).map fun se => .fextLr blk s m n se
  | .long, .dual s, .dual m, some (.reg (.dual n)) => (seOnly opt).map fun se => .fextLd blk s m n se
  | _, _, _, _ => none

/-- The rows of FDEP. -/
def rowOfFdep (blk : Blk) (size : Size) (dest data : Operand) (control : Option Control) (opt : Option Opt) :
    Option Instr :=
  match size, dest, data, control with
  | .normal, .single s, .single m, some (.reg (.single n)) => some (.fdepNr blk s m n (fillOf opt))
  | .normal, .single s, .single m, some (.reg (.dual n)) => some (.fdepNd blk s m n (fillOf opt))
  | .long, .dual s, .dual m, some (.reg (.single n)) => some (.fdepLr blk s m n (fillOf opt))
  | .long, .dual s, .dual m, some (.reg (.dual n)) => some (.fdepLd blk s m n (fillOf opt))
  | _, _, _, _ => none

/-- The rows of MASK. -/
def rowOfMask (blk : Blk) (size : Size) (dest data : Operand) (control : Option Control) : Option Instr :=
  match size, dest, data, control with
  | .normal, .single s, .single m, some (.reg (.single n)) => some (.maskN blk s m n)
  | .long, .dual s, .dual m, some (.reg (.dual n)) => some (.maskL blk s m n)
  | _, _, _, _ => none

/-- The rows of LD0, LD1 and EXP: a single result and no control operand. -/
def rowOfConversion (blk : Blk) (mn : Mnemonic) (dest data : Operand) : Option Instr :=
  match mn, dest, data with
  | .ld0, .single s, .single m => some (.ld0N blk s m)
  | .ld0, .single s, .dual m => some (.ld0L blk s m)
  | .ld1, .single s, .single m => some (.ld1N blk s m)
  | .ld1, .single s, .dual m => some (.ld1L blk s m)
  | .exp, .single s, .single m => some (.expN blk s m)
  | .exp, .single s, .dual m => some (.expL blk s m)
  | _, _, _ => none

/-- The row of GETBITS. -/
def rowOfGetbits (blk : Blk) (dest data : Operand) (control : Option Control) (opt : Option Opt) : Option Instr :=
  match dest, data, control with
  | .dual s, .quad m, some (.reg (.dual n)) => (seOnly opt).map fun se => .getbits blk s m n se
  | _, _, _ => none

/-- The row of PUTBITS. -/
def rowOfPutbits (blk : Blk) (dest data : Operand) (control : Option Control) : Option Instr :=
  match dest, data, control with
  | .dual s, .dual m, some (.reg (.dual n)) => some (.putbits blk s m n)
  | _, _, _ => none

/-- The row an `op` form names: `=` or `+=`, the sizes and the options are those of the listing (R54, R56, R62, R64). -/
def rowOfOp (blk : Blk) (size : Size) (dest : Operand) (rmw : Bool) (mn : Mnemonic) (data : Operand)
    (control : Option Control) (opt : Option Opt) : Option Instr :=
  match mn, rmw, size, opt with
  | .lshift, false, _, none => rowOfLshift blk size dest data control
  | .ashift, false, _, none => rowOfAshift blk size dest data control
  | .rot, false, _, none => rowOfRot blk size dest data control
  | .bclr, false, .normal, none => rowOfBclr blk dest data control
  | .bset, false, .normal, none => rowOfBset blk dest data control
  | .btgl, false, .normal, none => rowOfBtgl blk dest data control
  | .fext, false, _, _ => rowOfFext blk size dest data control opt
  | .fdep, true, _, _ => rowOfFdep blk size dest data control opt
  | .mask, true, _, none => rowOfMask blk size dest data control
  | .ld0, false, .normal, none => if control = none then rowOfConversion blk .ld0 dest data else none
  | .ld1, false, .normal, none => if control = none then rowOfConversion blk .ld1 dest data else none
  | .exp, false, .normal, none => if control = none then rowOfConversion blk .exp dest data else none
  | .getbits, false, .normal, _ => rowOfGetbits blk dest data control opt
  | .putbits, true, .normal, none => rowOfPutbits blk dest data control
  | _, _, _, _ => none

/-- The block of a STAT move: one, never both (R53, R64). -/
def Blk.side? : Blk → Option Side
  | .x => some .x
  | .y => some .y
  | .xy => none

/-- The row of R63 a surface form names, if it names one. -/
def Form.instr? : Form → Option Instr
  | .op blk size dest rmw mn data control opt => rowOfOp blk size dest rmw mn data control opt
  | .bitest blk data control => rowOfBitest blk data control
  | .bkfpt blk (.dual m) (.dual n) => some (.bkfpt blk m n)
  | .statLoad blk low (.single m) =>
    blk.side?.map fun side => if low then .statlLoad side m else .statLoad side m
  | .statStore blk .normal (.single s) src =>
    if blk = src then blk.side?.map fun side => .statStore side s else none
  | .bfotmpStore blk .normal (.dual s) => some (.bfotmpStore blk s)
  | .bfotmpLoad blk (.dual m) => some (.bfotmpLoad blk m)
  | _ => none

/-! ## Parsing -/

/-- Split a leading X, Y or XY off a word; a word without one is for both blocks (R53). -/
def splitBlock (w : Text) : Blk × Text :=
  match w with
  | [] => (.xy, [])
  | a :: r =>
    if a = byteOf 'Y' then (.y, r)
    else if a = byteOf 'X' then
      match r with
      | b :: r' => if b = byteOf 'Y' then (.xy, r') else (.x, r)
      | [] => (.x, [])
    else (.xy, w)

/-- Split the size letter off the name of a result register (R54). -/
def splitSize (w : Text) : Size × Text :=
  match w with
  | [] => (.normal, [])
  | a :: r =>
    if a = byteOf 'B' then (.byte, r)
    else if a = byteOf 'S' then (.short, r)
    else if a = byteOf 'L' then (.long, r)
    else (.normal, w)

/-- The number in a register name `R<i>` (R11). -/
def registerNumber (w : Text) : Option Nat :=
  match w with
  | a :: d => if a = byteOf 'R' then readDecimal d else none
  | [] => none

/-- A register number as a register of the file: refused from `NREG` up (R64). -/
def regOf (n : Nat) : Option Reg := if h : n < Config.nreg then some ⟨n, h⟩ else none

/-- The operand `R<hi>:<lo>`: dual one apart, quad three apart (R12, R13). -/
def operandOfPair (hi lo : Nat) : Option Operand :=
  if hi = lo + 1 then (regOf lo).map .dual
  else if hi = lo + 3 then (regOf lo).map .quad
  else none

/-- A register operand at the head of the tokens; `w` is its first word less any block and size letters. -/
def operandFrom (w : Text) (ts : List Token) : Option (Operand × List Token) :=
  match registerNumber w with
  | none => none
  | some hi =>
    match ts with
    | .colon :: .word d :: rest =>
      match readDecimal d with
      | some lo => (operandOfPair hi lo).map fun o => (o, rest)
      | none => none
    | _ => (regOf hi).map fun r => (.single r, ts)

/-- A register operand at the head of the tokens. -/
def takeOperand (ts : List Token) : Option (Operand × List Token) :=
  match ts with
  | .word w :: rest => operandFrom w rest
  | _ => none

/-- A control operand at the head of the tokens: an immediate, or a register (R55, R67). The one sign an immediate may have is
a minus sign (log 7). -/
def takeControl (ts : List Token) : Option (Control × List Token) :=
  match ts with
  | .minus :: .word w :: rest => (readDecimal w).map fun n => (.imm (-(n : Int)), rest)
  | .word w :: rest =>
    match readLiteral w with
    | some n => some (.imm n, rest)
    | none => (operandFrom w rest).map fun p => (.reg p.1, p.2)
  | _ => none

/-- The option at the end of a slot; no tokens at all is no option (R62). -/
def optionAt (ts : List Token) : Option (Option Opt) :=
  match ts with
  | [] => some none
  | [.lpar, .word w, .rpar] =>
    if w = txt "SE" then some (some .se) else if w = txt "ZF" then some (some .zf) else none
  | _ => none

/-- `BY control (opt)`, or just `(opt)`, at the end of a slot. -/
def controlAndOption (ts : List Token) : Option (Option Control × Option Opt) :=
  match ts with
  | .word w :: rest =>
    if w = txt "BY" then
      match takeControl rest with
      | some (c, rest') => (optionAt rest').map fun o => (some c, o)
      | none => none
    else none
  | _ => (optionAt ts).map fun o => (none, o)

/-- What follows `dest = ` or `dest += `. -/
def sourceForm (blk : Blk) (size : Size) (dest : Operand) (rmw : Bool) (ts : List Token) : Option Form :=
  match ts with
  | .word w :: rest =>
    if rest = [] then
      if rmw then none
      else if w = txt "BFOTMP" then some (.bfotmpStore blk size dest)
      else if (splitBlock w).2 = txt "STAT" then some (.statStore blk size dest (splitBlock w).1)
      else none
    else
      match Mnemonic.all.find? (fun mn => mn.spell = w) with
      | none => none
      | some mn =>
        match takeOperand rest with
        | none => none
        | some (data, rest') =>
          (controlAndOption rest').map fun p => .op blk size dest rmw mn data p.1 p.2
  | _ => none

/-- A slot that begins with a result register; `body` is its first word less the block. -/
def resultForm (blk : Blk) (body : Text) (ts : List Token) : Option Form :=
  match operandFrom (splitSize body).2 ts with
  | none => none
  | some (dest, rest) =>
    match rest with
    | .eq :: src => sourceForm blk (splitSize body).1 dest false src
    | .plusEq :: src => sourceForm blk (splitSize body).1 dest true src
    | _ => none

/-- `data BY control`, the whole rest of a BITEST slot. -/
def bitestForm (blk : Blk) (ts : List Token) : Option Form :=
  match takeOperand ts with
  | none => none
  | some (data, rest) =>
    match controlAndOption rest with
    | some (some c, none) => some (.bitest blk data c)
    | _ => none

/-- `Rmd, Rnd`, the whole rest of a BKFPT slot (R56). -/
def bkfptForm (blk : Blk) (ts : List Token) : Option Form :=
  match takeOperand ts with
  | some (m, .comma :: rest) =>
    match takeOperand rest with
    | some (n, []) => some (.bkfpt blk m n)
    | _ => none
  | _ => none

/-- The one operand after `STAT =`, `STATL =` or `BFOTMP =`. -/
def loadOperand (ts : List Token) : Option Operand :=
  match ts with
  | .eq :: rest =>
    match takeOperand rest with
    | some (m, []) => some m
    | _ => none
  | _ => none

/-- The surface form of the tokens of an instruction. -/
def formOf (ts : List Token) : Option Form :=
  match ts with
  | .word w :: rest =>
    let (blk, body) := splitBlock w
    if body = txt "BITEST" then bitestForm blk rest
    else if body = txt "BKFPT" then bkfptForm blk rest
    else if body = txt "BFOTMP" then (loadOperand rest).map fun m => .bfotmpLoad blk m
    else if body = txt "STAT" then (loadOperand rest).map fun m => .statLoad blk false m
    else if body = txt "STATL" then (loadOperand rest).map fun m => .statLoad blk true m
    else resultForm blk body rest
  | _ => none

/-- The instruction a slot's tokens spell. -/
def instrOf (ts : List Token) : Option Instr :=
  match formOf ts with
  | some f => f.instr?
  | none => none

/-- One slot: `DO, instr` or `instr` (R250). -/
def slotOf (ts : List Token) : Option Slot :=
  match ts with
  | .word w :: .comma :: rest =>
    if w = txt "DO" then (instrOf rest).map fun i => ⟨true, i⟩ else (instrOf ts).map fun i => ⟨false, i⟩
  | _ => (instrOf ts).map fun i => ⟨false, i⟩

/-- The tokens of a line cut into slots at `;`, up to the `;;` that must end them (R51). `cur` is the slot being read. -/
def cutSlots (cur : List Token) : List Token → Option (List (List Token))
  | [] => none
  | .lineEnd :: rest => if rest = [] then some [cur] else none
  | .semi :: rest => (cutSlots [] rest).map fun segs => cur :: segs
  | t :: rest => cutSlots (cur ++ [t]) rest

/-- Every slot read, in order. -/
def slotsOf : List (List Token) → Option (List Slot)
  | [] => some []
  | seg :: rest =>
    match slotOf seg, slotsOf rest with
    | some sl, some sls => some (sl :: sls)
    | _, _ => none

/-- The slots of a line, or why there are none. -/
def issueOf (cond : Option Cond) (ts : List Token) : Except DecodeError Line :=
  match cutSlots [] ts with
  | none => .error .lineEnd
  | some segs =>
    match slotsOf segs with
    | none => .error .notAForm
    | some slots => .ok (.issue cond slots)

/-- A shifter condition with the block it names (R256). -/
def flagCondOf (w : Text) : Option (Side × FlagCond) :=
  match (splitBlock w).1.side? with
  | none => none
  | some side =>
    let c := (splitBlock w).2
    if c = txt "SEQ" then some (side, .seq)
    else if c = txt "SLT" then some (side, .slt)
    else if c = txt "NSEQ" then some (side, .nseq)
    else if c = txt "NSLT" then some (side, .nslt)
    else none

/-- A condition: SF0 and SF1 are written bare, the others with their block (R256, R257). -/
def condOf (w : Text) : Option Cond :=
  if w = txt "SF0" then some (.static .scf0)
  else if w = txt "SF1" then some (.static .scf1)
  else (flagCondOf w).map fun p => .flag p.1 p.2

/-- What follows `IF`: `cond; slots`, or the second spelling `cond, instr` of a line with one controlled
instruction (R250, 90_conflicts.md C8). -/
def conditionalOf (ts : List Token) : Except DecodeError Line :=
  match ts with
  | .word w :: .semi :: rest =>
    match condOf w with
    | some c => issueOf (some c) rest
    | none => .error .condition
  | .word w :: .comma :: rest =>
    match condOf w with
    | none => .error .condition
    | some c =>
      match issueOf (some c) rest with
      | .ok (.issue _ [sl]) => if sl.controlled then .error .notAForm else .ok (.issue (some c) [⟨true, sl.instr⟩])
      | .ok _ => .error .notAForm
      | .error e => .error e
  | _ => .error .condition

/-- The static flag a word names, with its block (R257). -/
def staticFlagOf (w : Text) : Option (Side × StaticFlag) :=
  match (splitBlock w).1.side? with
  | none => none
  | some side =>
    if (splitBlock w).2 = txt "SCF0" then some (side, .scf0)
    else if (splitBlock w).2 = txt "SCF1" then some (side, .scf1)
    else none

/-- `{X|Y}SCF{0|1} = cond ;;`, a line of its own (R258). -/
def flagLoadOf (ts : List Token) : Option Line :=
  match ts with
  | [.word f, .eq, .word c, .lineEnd] =>
    match staticFlagOf f, flagCondOf c with
    | some (dst, fl), some (src, fc) => some (.flagLoad dst fl src fc)
    | _, _ => none
  | _ => none

/-- The line a list of tokens spells. -/
def lineOf (ts : List Token) : Except DecodeError Line :=
  match ts with
  | .word w :: rest =>
    if w = txt "IF" then conditionalOf rest
    else
      match flagLoadOf ts with
      | some l => .ok l
      | none => issueOf none ts
  | _ => issueOf none ts

/-- Decode one instruction line. What it answers is well formed; all else is refused by name (R64). -/
def decodeLine (t : Text) : Except DecodeError Line :=
  match lex t with
  | .error e => .error e
  | .ok ts =>
    match lineOf ts with
    | .error e => .error e
    | .ok l =>
      match l.problem with
      | some p => .error (.illFormed p)
      | none => .ok l

/-! ## The encoder -/

/-- How a block choice is written. -/
def Blk.spell : Blk → Text
  | .x => txt "X"
  | .y => txt "Y"
  | .xy => txt "XY"

/-- How a size is written. -/
def Size.spell : Size → Text
  | .normal => []
  | .byte => txt "B"
  | .short => txt "S"
  | .long => txt "L"

/-- The tokens of a register operand, after the letters `lead`. -/
def Operand.tokens (lead : Text) : Operand → List Token
  | .single r => [.word (lead ++ txt "R" ++ spellNumber r.val)]
  | .dual r => [.word (lead ++ txt "R" ++ spellNumber (r.val + 1)), .colon, .word (spellNumber r.val)]
  | .quad r => [.word (lead ++ txt "R" ++ spellNumber (r.val + 3)), .colon, .word (spellNumber r.val)]

/-- The tokens of an immediate: a signed decimal (R67). -/
def immTokens (k : Int) : List Token :=
  if k < 0 then [.minus, .word (spellNumber (-k).toNat)] else [.word (spellNumber k.toNat)]

/-- The tokens of a control operand. -/
def Control.tokens : Control → List Token
  | .reg o => o.tokens []
  | .imm k => immTokens k

/-- The tokens of an option. -/
def optTokens : Option Opt → List Token
  | none => []
  | some .se => [.lpar, .word (txt "SE"), .rpar]
  | some .zf => [.lpar, .word (txt "ZF"), .rpar]

/-- The tokens of `BY control`. -/
def controlTokens : Option Control → List Token
  | none => []
  | some c => .word (txt "BY") :: c.tokens

/-- The tokens of a surface form. -/
def Form.tokens : Form → List Token
  | .op blk size dest rmw mn data control opt =>
    dest.tokens (blk.spell ++ size.spell) ++ (if rmw then .plusEq else .eq) :: .word mn.spell :: data.tokens [] ++
      controlTokens control ++ optTokens opt
  | .bitest blk data control => .word (blk.spell ++ txt "BITEST") :: data.tokens [] ++ controlTokens (some control)
  | .bkfpt blk m n => .word (blk.spell ++ txt "BKFPT") :: m.tokens [] ++ .comma :: n.tokens []
  | .statLoad blk low m =>
    .word (blk.spell ++ if low then txt "STATL" else txt "STAT") :: .eq :: m.tokens []
  | .statStore blk size dest src =>
    dest.tokens (blk.spell ++ size.spell) ++ [.eq, .word (src.spell ++ txt "STAT")]
  | .bfotmpStore blk size dest => dest.tokens (blk.spell ++ size.spell) ++ [.eq, .word (txt "BFOTMP")]
  | .bfotmpLoad blk m => .word (blk.spell ++ txt "BFOTMP") :: .eq :: m.tokens []

/-- The option that spells `(SE)`. -/
def seOpt (se : Bool) : Option Opt := if se then some .se else none

/-- The option that spells FDEP's fill. -/
def Fill.opt : Fill → Option Opt
  | .keep => none
  | .se => some .se
  | .zf => some .zf

/-- The surface form of an instruction: the row of R63 it is. -/
def Instr.form : Instr → Form
  | .lshiftNr blk s m n => .op blk .normal (.single s) false .lshift (.single m) (some (.reg (.single n))) none
  | .lshiftNi blk s m imm => .op blk .normal (.single s) false .lshift (.single m) (some (.imm imm)) none
  | .lshiftBr blk s m n => .op blk .byte (.single s) false .lshift (.single m) (some (.reg (.single n))) none
  | .lshiftBi blk s m imm => .op blk .byte (.single s) false .lshift (.single m) (some (.imm imm)) none
  | .lshiftSr blk s m n => .op blk .short (.single s) false .lshift (.single m) (some (.reg (.single n))) none
  | .lshiftSi blk s m imm => .op blk .short (.single s) false .lshift (.single m) (some (.imm imm)) none
  | .lshiftDnr blk s m n => .op blk .normal (.dual s) false .lshift (.dual m) (some (.reg (.single n))) none
  | .lshiftDni blk s m imm => .op blk .normal (.dual s) false .lshift (.dual m) (some (.imm imm)) none
  | .lshiftDbr blk s m n => .op blk .byte (.dual s) false .lshift (.dual m) (some (.reg (.single n))) none
  | .lshiftDbi blk s m imm => .op blk .byte (.dual s) false .lshift (.dual m) (some (.imm imm)) none
  | .lshiftDsr blk s m n => .op blk .short (.dual s) false .lshift (.dual m) (some (.reg (.single n))) none
  | .lshiftDsi blk s m imm => .op blk .short (.dual s) false .lshift (.dual m) (some (.imm imm)) none
  | .lshiftLr blk s m n => .op blk .long (.dual s) false .lshift (.dual m) (some (.reg (.single n))) none
  | .lshiftLi blk s m imm => .op blk .long (.dual s) false .lshift (.dual m) (some (.imm imm)) none
  | .ashiftNr blk s m n => .op blk .normal (.single s) false .ashift (.single m) (some (.reg (.single n))) none
  | .ashiftNi blk s m imm => .op blk .normal (.single s) false .ashift (.single m) (some (.imm imm)) none
  | .ashiftBr blk s m n => .op blk .byte (.single s) false .ashift (.single m) (some (.reg (.single n))) none
  | .ashiftBi blk s m imm => .op blk .byte (.single s) false .ashift (.single m) (some (.imm imm)) none
  | .ashiftSr blk s m n => .op blk .short (.single s) false .ashift (.single m) (some (.reg (.single n))) none
  | .ashiftSi blk s m imm => .op blk .short (.single s) false .ashift (.single m) (some (.imm imm)) none
  | .ashiftDnr blk s m n => .op blk .normal (.dual s) false .ashift (.dual m) (some (.reg (.single n))) none
  | .ashiftDni blk s m imm => .op blk .normal (.dual s) false .ashift (.dual m) (some (.imm imm)) none
  | .ashiftDbr blk s m n => .op blk .byte (.dual s) false .ashift (.dual m) (some (.reg (.single n))) none
  | .ashiftDbi blk s m imm => .op blk .byte (.dual s) false .ashift (.dual m) (some (.imm imm)) none
  | .ashiftDsr blk s m n => .op blk .short (.dual s) false .ashift (.dual m) (some (.reg (.single n))) none
  | .ashiftDsi blk s m imm => .op blk .short (.dual s) false .ashift (.dual m) (some (.imm imm)) none
  | .ashiftLr blk s m n => .op blk .long (.dual s) false .ashift (.dual m) (some (.reg (.single n))) none
  | .ashiftLi blk s m imm => .op blk .long (.dual s) false .ashift (.dual m) (some (.imm imm)) none
  | .rotNr blk s m n => .op blk .normal (.single s) false .rot (.single m) (some (.reg (.single n))) none
  | .rotNi blk s m imm => .op blk .normal (.single s) false .rot (.single m) (some (.imm imm)) none
  | .rotDnr blk s m n => .op blk .normal (.dual s) false .rot (.dual m) (some (.reg (.dual n))) none
  | .rotDni blk s m imm => .op blk .normal (.dual s) false .rot (.dual m) (some (.imm imm)) none
  | .rotLr blk s m n => .op blk .long (.dual s) false .rot (.dual m) (some (.reg (.dual n))) none
  | .rotLi blk s m imm => .op blk .long (.dual s) false .rot (.dual m) (some (.imm imm)) none
  | .bclrNr blk s m n => .op blk .normal (.single s) false .bclr (.single m) (some (.reg (.single n))) none
  | .bclrNi blk s m imm => .op blk .normal (.single s) false .bclr (.single m) (some (.imm imm)) none
  | .bclrLr blk s m n => .op blk .normal (.dual s) false .bclr (.dual m) (some (.reg (.single n))) none
  | .bclrLi blk s m imm => .op blk .normal (.dual s) false .bclr (.dual m) (some (.imm imm)) none
  | .bsetNr blk s m n => .op blk .normal (.single s) false .bset (.single m) (some (.reg (.single n))) none
  | .bsetNi blk s m imm => .op blk .normal (.single s) false .bset (.single m) (some (.imm imm)) none
  | .bsetLr blk s m n => .op blk .normal (.dual s) false .bset (.dual m) (some (.reg (.single n))) none
  | .bsetLi blk s m imm => .op blk .normal (.dual s) false .bset (.dual m) (some (.imm imm)) none
  | .btglNr blk s m n => .op blk .normal (.single s) false .btgl (.single m) (some (.reg (.single n))) none
  | .btglNi blk s m imm => .op blk .normal (.single s) false .btgl (.single m) (some (.imm imm)) none
  | .btglLr blk s m n => .op blk .normal (.dual s) false .btgl (.dual m) (some (.reg (.single n))) none
  | .btglLi blk s m imm => .op blk .normal (.dual s) false .btgl (.dual m) (some (.imm imm)) none
  | .bitestNr blk m n => .bitest blk (.single m) (.reg (.single n))
  | .bitestNi blk m imm => .bitest blk (.single m) (.imm imm)
  | .bitestLr blk m n => .bitest blk (.dual m) (.reg (.single n))
  | .bitestLi blk m imm => .bitest blk (.dual m) (.imm imm)
  | .fextNr blk s m n se => .op blk .normal (.single s) false .fext (.single m) (some (.reg (.single n))) (seOpt se)
  | .fextNd blk s m n se => .op blk .normal (.single s) false .fext (.single m) (some (.reg (.dual n))) (seOpt se)
  | .fextLr blk s m n se => .op blk .long (.dual s) false .fext (.dual m) (some (.reg (.single n))) (seOpt se)
  | .fextLd blk s m n se => .op blk .long (.dual s) false .fext (.dual m) (some (.reg (.dual n))) (seOpt se)
  | .fdepNr blk s m n fill => .op blk .normal (.single s) true .fdep (.single m) (some (.reg (.single n))) fill.opt
  | .fdepNd blk s m n fill => .op blk .normal (.single s) true .fdep (.single m) (some (.reg (.dual n))) fill.opt
  | .fdepLr blk s m n fill => .op blk .long (.dual s) true .fdep (.dual m) (some (.reg (.single n))) fill.opt
  | .fdepLd blk s m n fill => .op blk .long (.dual s) true .fdep (.dual m) (some (.reg (.dual n))) fill.opt
  | .maskN blk s m n => .op blk .normal (.single s) true .mask (.single m) (some (.reg (.single n))) none
  | .maskL blk s m n => .op blk .long (.dual s) true .mask (.dual m) (some (.reg (.dual n))) none
  | .statLoad side m => .statLoad side.blk false (.single m)
  | .statlLoad side m => .statLoad side.blk true (.single m)
  | .statStore side s => .statStore side.blk .normal (.single s) side.blk
  | .ld0N blk s m => .op blk .normal (.single s) false .ld0 (.single m) none none
  | .ld0L blk s m => .op blk .normal (.single s) false .ld0 (.dual m) none none
  | .ld1N blk s m => .op blk .normal (.single s) false .ld1 (.single m) none none
  | .ld1L blk s m => .op blk .normal (.single s) false .ld1 (.dual m) none none
  | .expN blk s m => .op blk .normal (.single s) false .exp (.single m) none none
  | .expL blk s m => .op blk .normal (.single s) false .exp (.dual m) none none
  | .bkfpt blk m n => .bkfpt blk (.dual m) (.dual n)
  | .getbits blk s m n se => .op blk .normal (.dual s) false .getbits (.quad m) (some (.reg (.dual n))) (seOpt se)
  | .putbits blk s m n => .op blk .normal (.dual s) true .putbits (.dual m) (some (.reg (.dual n))) none
  | .bfotmpStore blk s => .bfotmpStore blk .normal (.dual s)
  | .bfotmpLoad blk m => .bfotmpLoad blk (.dual m)

/-- How a shifter condition is written. -/
def FlagCond.spell : FlagCond → Text
  | .seq => txt "SEQ"
  | .slt => txt "SLT"
  | .nseq => txt "NSEQ"
  | .nslt => txt "NSLT"

/-- How a condition is written. -/
def Cond.spell : Cond → Text
  | .flag side c => side.blk.spell ++ c.spell
  | .static .scf0 => txt "SF0"
  | .static .scf1 => txt "SF1"

/-- How a static flag is written. -/
def StaticFlag.spell : StaticFlag → Text
  | .scf0 => txt "SCF0"
  | .scf1 => txt "SCF1"

/-- The tokens of a slot. -/
def Slot.tokens (sl : Slot) : List Token :=
  (if sl.controlled then [.word (txt "DO"), .comma] else []) ++ sl.instr.form.tokens

/-- The tokens of the slots of a line, `;` between them and `;;` after the last (R51). -/
def slotsTokens : List Slot → List Token
  | [] => [.lineEnd]
  | [sl] => sl.tokens ++ [.lineEnd]
  | sl :: rest => sl.tokens ++ .semi :: slotsTokens rest

/-- The tokens of a line. -/
def Line.tokens : Line → List Token
  | .issue none slots => slotsTokens slots
  | .issue (some c) slots => .word (txt "IF") :: .word c.spell :: .semi :: slotsTokens slots
  | .flagLoad dst f src c =>
    [.word (dst.blk.spell ++ f.spell), .eq, .word (src.blk.spell ++ c.spell), .lineEnd]

/-- How a token is written. -/
def Token.spell : Token → Text
  | .word w => w
  | .eq => txt "="
  | .plusEq => txt "+="
  | .semi => txt ";"
  | .lineEnd => txt ";;"
  | .comma => txt ","
  | .colon => txt ":"
  | .minus => txt "-"
  | .lpar => txt "("
  | .rpar => txt ")"

/-- Is the next token written right after this one? `R5:4`, `-4`, `(SE)`, `instr;` (log 7). -/
def glued : Token → Token → Bool
  | .colon, _ => true
  | .minus, _ => true
  | .lpar, _ => true
  | _, .colon => true
  | _, .comma => true
  | _, .rpar => true
  | _, .semi => true
  | _, _ => false

/-- The text of a list of tokens: one blank between two that are not glued. -/
def render : List Token → Text
  | [] => []
  | [t] => t.spell
  | t :: u :: rest => t.spell ++ (if glued t u then [] else txt " ") ++ render (u :: rest)

/-- The text of a line. -/
def encodeLine (l : Line) : Text := render l.tokens

/-- The text of an instruction, as a line that holds it alone. -/
def encode (i : Instr) : Text := encodeLine (.single i)

/-! ## Words of bits -/

/-- The low `n` bytes of a number, lowest first. -/
def bytesOf : Nat → Nat → Text
  | 0, _ => []
  | n + 1, w => BitVec.ofNat 8 (w % 256) :: bytesOf n (w / 256)

/-- The bytes of a word of `nbits` bits, its first character in bits 7 to 0, without the zero bytes that fill it
up above its text (log 9). -/
def wordText (nbits w : Nat) : Text :=
  ((bytesOf ((nbits + 7) / 8) w).reverse.dropWhile (· = 0#8)).reverse

/-- The word a text is stored as: its first character in bits 7 to 0. -/
def textWord : Text → Nat
  | [] => 0
  | c :: cs => c.toNat + 256 * textWord cs

/-- The instruction of a line that holds one instruction and no condition. -/
def Line.single? : Line → Option Instr
  | .issue none [⟨false, i⟩] => some i
  | _ => none

/-- The instruction the decoder reads from an instruction whose bits are `w` (log 9). -/
def decodeTableWord (nbits w : Nat) : Option Instr :=
  match decodeLine (wordText nbits w) with
  | .ok l => l.single?
  | .error _ => none

end Sys2Proof
end

