-- ==== Sys2Proof/Machine/State.lean ====
section
/-! DEFINITION. The machine's state (10_state.md R10, R24, R25), how it stops, and its state after reset (R27). -/

namespace Sys2Proof.Machine

open Sys2Proof

/-- One compute block: what its shifter reads and writes (R10). `draws` is the model's own field: how many values
left open by the spec the block has taken so far (assumption log 5). -/
structure Block where
  regs : Vector Word Config.nreg
  stat : Word
  bfotmp : LongWord
  draws : Nat
deriving DecidableEq, Repr

/-- The sequencer's static flags XSCF0, XSCF1, YSCF0, YSCF1 (R24). -/
structure StaticFlags where
  xscf0 : Bool
  xscf1 : Bool
  yscf0 : Bool
  yscf1 : Bool
deriving DecidableEq, Repr

/-- The whole machine: two compute blocks (R1), the static flags (R24), the program as a list of instruction
lines of text (20_memory.md R47; assumption log 8) and the line counter `lc` (R25). There is no memory (R40) and no mode
(60_exceptions.md R275). -/
structure State where
  x : Block
  y : Block
  flags : StaticFlags
  program : List Text
  lc : Nat
deriving DecidableEq, Repr

/-- A stop of the machine that is no refusal. -/
inductive Fault
  /-- Raised by `step` when the line counter has passed the last line: the run is over (R25, 60_exceptions.md R277).
  Safe: the spec says the run ends there and gives nothing after it. -/
  | programEnd
  /-- Raised by FEXT and FDEP for a field that is empty or not inside the operand, and by GETBITS for a length outside 1 to
  64: `OUT_OF_DOMAIN`, the step has no successor and the run is not final (00_scope.md 4.3; 42_bit_field.md R181,
  44_bit_stream.md R232, 60_exceptions.md R270). It is no exception of the hardware. Safe: nothing is provable beyond it. -/
  | outOfDomain
deriving DecidableEq, Repr

/-- What the machine has no meaning for. -/
inductive Refusal
  /-- Raised by `exec` for an instruction without a meaning; no arm does so. Safe. -/
  | notModelled (mnemonic : String)
  /-- Raised by `step` for a line of text that is no well-formed instruction line: it never executes (R64). Safe.
  That the lines before it have executed is the model's choice (log 34). -/
  | notALine (e : DecodeError)
deriving DecidableEq, Repr

/-- A compute block after reset. The spec gives no value (R27): STAT is PRESUMED 0 (assumption log 3); the registers and
BFOTMP are 0 by DESIGN CHOICE (log 4); unsafe. -/
def Block.reset : Block :=
  { regs := Vector.replicate Config.nreg 0#32, stat := 0#32, bfotmp := 0#64, draws := 0 }

/-- The machine after reset: `lc` is 0 (R25, R27), no program is loaded (log 8), the static flags are
PRESUMED 0 (log 3). -/
def State.reset : State :=
  { x := Block.reset, y := Block.reset,
    flags := { xscf0 := false, xscf1 := false, yscf0 := false, yscf1 := false },
    program := [], lc := 0 }

end Sys2Proof.Machine
end

