-- ==== Sys2Proof/Machine/Ops.lean ====
section
/-! DEFINITION. The operations over compute blocks that every instruction is written with: reading and writing registers
(10_state.md R11 to R13), STAT bits, the draws, and executing in the chosen blocks (R29). The spec describes no exception
entry or return (60_exceptions.md R270 to R274), so there is none here; assumption log 30. -/

namespace Sys2Proof.Machine

open Sys2Proof

/-- What `exec` and `step` answer. -/
abbrev Result := Host.Outcome State Fault Refusal

/-! ## Registers -/

/-- `x[i]` (R11). -/
def Block.reg (b : Block) (i : Reg) : Word := b.regs[i]

/-- `x[i] <- v` (R11). -/
def Block.setReg (b : Block) (i : Reg) (v : Word) : Block := { b with regs := b.regs.set i v }

/-- `x2[i]`: the higher-numbered register is the more significant half (R12). -/
def Block.dual (b : Block) (i : Reg) : LongWord := b.reg (i + 1) ++ b.reg i

/-- `x2[i] <- v` (R12). -/
def Block.setDual (b : Block) (i : Reg) (v : LongWord) : Block :=
  (b.setReg i (v.extractLsb' 0 32)).setReg (i + 1) (v.extractLsb' 32 32)

/-- `x4[i]`: the lowest-numbered register is the least significant (R13). -/
def Block.quad (b : Block) (i : Reg) : BitVec 128 := b.dual (i + 2) ++ b.dual i

/-! ## STAT and BFOTMP -/

/-- A bit vector with one bit set to a value. -/
def setBit {w : Nat} (v : BitVec w) (i : Nat) (b : Bool) : BitVec w :=
  if b then v ||| (1#w <<< i) else v &&& ~~~(1#w <<< i)

/-- STAT.SZ (R16, R17). -/
def Block.sz (b : Block) : Bool := b.stat.getLsbD Config.szBit

/-- STAT.SN (R16, R18). -/
def Block.sn (b : Block) : Bool := b.stat.getLsbD Config.snBit

/-- STAT.BF, that is BF1 ++ BF0 (R16, R19). -/
def Block.bf (b : Block) : BitVec 2 := b.stat.extractLsb' Config.bfLsb 2

/-- STAT.AN (R16, R22). -/
def Block.an (b : Block) : Bool := b.stat.getLsbD Config.anBit

def Block.setStat (b : Block) (v : Word) : Block := { b with stat := v }

def Block.setSz (b : Block) (z : Bool) : Block := b.setStat (setBit b.stat Config.szBit z)

def Block.setSn (b : Block) (n : Bool) : Block := b.setStat (setBit b.stat Config.snBit n)

def Block.setBf (b : Block) (v : BitVec 2) : Block :=
  b.setStat (setBit (setBit b.stat Config.bfLsb (v.getLsbD 0)) (Config.bfLsb + 1) (v.getLsbD 1))

def Block.setAn (b : Block) (a : Bool) : Block := b.setStat (setBit b.stat Config.anBit a)

def Block.setBfotmp (b : Block) (v : LongWord) : Block := { b with bfotmp := v }

/-! ## Draws: `UNSPECIFIED_N` (00_scope.md 4.3; assumption log 5) -/

/-- The value the block's next draw has; an `UNSPECIFIED_N` is its low N bits. -/
def Block.drawn (side : Side) (b : Block) : LongWord := Config.draw side b.draws

/-- The draw is taken: the next one is another. -/
def Block.nextDraw (b : Block) : Block := { b with draws := b.draws + 1 }

/-- `STAT.SZ <- UNSPECIFIED_1` (R31). -/
def Block.drawSz (side : Side) (b : Block) : Block := (b.setSz ((b.drawn side).getLsbD 0)).nextDraw

/-- `STAT.SN <- UNSPECIFIED_1` (R31). -/
def Block.drawSn (side : Side) (b : Block) : Block := (b.setSn ((b.drawn side).getLsbD 0)).nextDraw

/-- Both flags drawn, SZ first (R31). -/
def Block.drawFlags (side : Side) (b : Block) : Block := (b.drawSz side).drawSn side

/-! ## The two compute blocks -/

/-- One of the two compute blocks. -/
def State.block (s : State) : Side → Block
  | .x => s.x
  | .y => s.y

/-- Execute in the chosen blocks, each on its own state (R29). -/
def State.onBlocks (s : State) (blk : Blk) (f : Side → Block → Block) : State :=
  { s with
    x := if blk.runs .x then f .x s.x else s.x
    y := if blk.runs .y then f .y s.y else s.y }

/-- In each of the chosen blocks the operands have values the spec gives the instruction a meaning for. -/
def State.inDomain (s : State) (blk : Blk) (ok : Block → Bool) : Bool :=
  (!blk.runs .x || ok s.x) && (!blk.runs .y || ok s.y)

/-- Execute in the chosen blocks, or `OUT_OF_DOMAIN` where the operands of one of them have no meaning: the step then has no
successor (00_scope.md 4.3, D14; assumption log 6). -/
def State.onBlocksWithin (s : State) (blk : Blk) (ok : Block → Bool) (f : Side → Block → Block) : Result :=
  if s.inDomain blk ok then .next (s.onBlocks blk f) else .fault .outOfDomain

/-- Read one static flag (R24). -/
def StaticFlags.get (fl : StaticFlags) : Side → StaticFlag → Bool
  | .x, .scf0 => fl.xscf0
  | .x, .scf1 => fl.xscf1
  | .y, .scf0 => fl.yscf0
  | .y, .scf1 => fl.yscf1

/-- Write one static flag (R258). -/
def StaticFlags.set (fl : StaticFlags) : Side → StaticFlag → Bool → StaticFlags
  | .x, .scf0, v => { fl with xscf0 := v }
  | .x, .scf1, v => { fl with xscf1 := v }
  | .y, .scf0, v => { fl with yscf0 := v }
  | .y, .scf1, v => { fl with yscf1 := v }

/-! ## The program -/

/-- The text of the line the line counter names, if there is one (R25). -/
def State.fetch (s : State) : Option Text := s.program[s.lc]?

/-- On to the next line (R25). -/
def State.advance (s : State) : State := { s with lc := s.lc + 1 }

/-- Load a program from outside the machine; the run starts at its first line (70_reset_and_hazards.md R291). The
text is not checked here, but line by line as the run reaches it (log 34). -/
def State.load (s : State) (program : List Text) : State := { s with program := program, lc := 0 }

/-- A program with the given line at the given place; lines that are missing before it are empty text. -/
def placeLine : List Text → Nat → Text → List Text
  | [], 0, t => [t]
  | _ :: rest, 0, t => t :: rest
  | [], n + 1, t => [] :: placeLine [] n t
  | l :: rest, n + 1, t => l :: placeLine rest n t

end Sys2Proof.Machine
end

