-- ==== Sys2Proof/Machine/Operands.lean ====
section
/-! DEFINITION. The lanes of an operand (10_state.md R14), the control fields that registers hold
(30_encoding.md R57 to R61) and the functions the instructions apply to one element. -/

namespace Sys2Proof.Machine

open Sys2Proof

/-! ## Lanes -/

/-- Lane `j` of width E: bits `E*j+E-1 … E*j` (R14). -/
def lane {w : Nat} (E : Nat) (v : BitVec w) (j : Nat) : BitVec E := v.extractLsb' (E * j) E

/-- The first `k` lanes of width E, lane 0 first (R14). -/
def lanes {w : Nat} (E k : Nat) (v : BitVec w) : List (BitVec E) := (List.range k).map (lane E v)

/-- The value whose lanes are given, lane 0 first and least significant (R14). -/
def joinLanes {E : Nat} (w : Nat) : List (BitVec E) → BitVec w
  | [] => 0#w
  | r :: rs => r.setWidth w ||| (joinLanes w rs <<< E)

/-! ## Control fields -/

/-- The two's-complement value of the low `bits` bits of a control operand: a shift magnitude (R57, R100). -/
def magnitude {w : Nat} (bits : Nat) (c : BitVec w) : Int := (c.setWidth bits).toInt

/-- The unsigned value of the low `bits` bits of a control register: a bit number (R59, R150). -/
def bitNumber (bits : Nat) (c : Word) : Nat := (c.setWidth bits).toNat

/-- `Pos8` of a single control register: bits 15 to 8 (R60). -/
def pos8 (c : Word) : Nat := (c.extractLsb' 8 8).toNat

/-- `Pos8` of a dual control register: bits 39 to 32 (R60). -/
def pos8Dual (c : LongWord) : Nat := (c.extractLsb' 32 8).toNat

/-- `Len7`: bits 6 to 0 of the control operand, single or dual (R60, R61). -/
def len7 {w : Nat} (c : BitVec w) : Nat := (c.extractLsb' 0 7).toNat

/-- `BFP6`: bits 37 to 32 of the dual control operand (R61, R230). -/
def bfp6 (c : LongWord) : Nat := (c.extractLsb' 32 6).toNat

/-! ## Functions on one element -/

/-- Logical shift by a signed magnitude, left when positive (40_shift_rotate.md R101, R104). -/
def lsh {E : Nat} (v : BitVec E) (k : Int) : BitVec E := if 0 ≤ k then v <<< k.toNat else v >>> (-k).toNat

/-- Arithmetic shift by a signed magnitude; a right shift copies the sign bit (R102, R104). -/
def ash {E : Nat} (v : BitVec E) (k : Int) : BitVec E :=
  if 0 ≤ k then v <<< k.toNat else v.sshiftRight (-k).toNat

/-- Rotate by a signed magnitude, left when positive, modulo the width (R103). -/
def rot {E : Nat} (v : BitVec E) (k : Int) : BitVec E := v.rotateLeft (k % (E : Int)).toNat

/-- Clear bit `b` (41_bit_manipulation.md R151). -/
def bclr {w : Nat} (v : BitVec w) (b : Nat) : BitVec w := v &&& ~~~(1#w <<< b)

/-- Set bit `b` (R151). -/
def bset {w : Nat} (v : BitVec w) (b : Nat) : BitVec w := v ||| (1#w <<< b)

/-- Invert bit `b` (R151). -/
def btgl {w : Nat} (v : BitVec w) (b : Nat) : BitVec w := v ^^^ (1#w <<< b)

/-- Extend a field to W bits, with zeros or with its sign under `(SE)` (42_bit_field.md R182). -/
def extend {len : Nat} (w : Nat) (f : BitVec len) (se : Bool) : BitVec w := if se then f.signExtend w else f.setWidth w

/-- The field of `len` bits from `pos` up, right-justified in W bits (R184; GETBITS: 44_bit_stream.md R232). -/
def extractField {v : Nat} (w : Nat) (d : BitVec v) (pos len : Nat) (se : Bool) : BitVec w :=
  extend w (d.extractLsb' pos len) se

/-- The low `len` bits of `d` placed at `pos`: the bits below the field keep `old`, those above follow the option
(42_bit_field.md R182, R183, R188). -/
def depositField {w : Nat} (old d : BitVec w) (pos len : Nat) (fill : Fill) : BitVec w :=
  let f := d.extractLsb' 0 len
  let lo := (old.extractLsb' 0 pos).setWidth w
  match fill with
  | .keep => ((old >>> (pos + len)) <<< (pos + len)) ||| (f.setWidth w <<< pos) ||| lo
  | .se => (f.signExtend w <<< pos) ||| lo
  | .zf => (f.setWidth w <<< pos) ||| lo

/-- The field lies inside the operand and is not empty (R181). -/
def fieldInside (w pos len : Nat) : Bool := decide (1 ≤ len ∧ pos + len ≤ w)

/-- Copy the bits of `d` under the mask, keep `old` elsewhere (R192). -/
def maskMerge {w : Nat} (old d k : BitVec w) : BitVec w := (old &&& ~~~k) ||| (d &&& k)

/-- How many consecutive bits from bit `n-1` downward equal `one`. -/
def leadingRun {w : Nat} (v : BitVec w) (one : Bool) : Nat → Nat
  | 0 => 0
  | n + 1 => if v.getLsbD n = one then leadingRun v one n + 1 else 0

/-- `clz_W` (43_conversion.md R210). -/
def clz {w : Nat} (v : BitVec w) : Nat := leadingRun v false w

/-- `clo_W` (R210). -/
def clo {w : Nat} (v : BitVec w) : Nat := leadingRun v true w

/-- The 64 bits PUTBITS leaves in its result: `d` from bit `bfp` up over the old low bits (44_bit_stream.md R233). -/
def putLow (old d : LongWord) (bfp : Nat) : LongWord := (d <<< bfp) ||| (old.extractLsb' 0 bfp).setWidth 64

/-- BFOTMP after PUTBITS: the `bfp` bits of `d` that did not fit, and free bits above them (R233, D20). -/
def putOverflow (d free : LongWord) (bfp : Nat) : LongWord := (d >>> (64 - bfp)) ||| ((free >>> bfp) <<< bfp)

end Sys2Proof.Machine
end

