-- ==== Sys2Proof/Machine/Flags.lean ====
section
/-! DEFINITION. How SZ and SN follow from results (10_state.md R17, R18, R20) and the conditions that test them
(45_conditional.md R252 to R257). -/

namespace Sys2Proof.Machine

open Sys2Proof

/-- SZ of several results: one of them is zero (R17, R20). -/
def zeroFlag {E : Nat} (rs : List (BitVec E)) : Bool := rs.any fun r => r == 0#E

/-- SN of several results: one of them has its top bit set (R18, R20). -/
def signFlag {E : Nat} (rs : List (BitVec E)) : Bool := rs.any BitVec.msb

/-- `setZN`: SZ and SN from the results, nothing else of STAT (R20). -/
def Block.setZN {E : Nat} (b : Block) (rs : List (BitVec E)) : Block := (b.setSz (zeroFlag rs)).setSn (signFlag rs)

/-- One 32-bit result in a single register, with its flags. -/
def Block.result (b : Block) (s : Reg) (r : Word) : Block := (b.setReg s r).setZN [r]

/-- One 64-bit result in a dual register, with its flags (R20, D32). -/
def Block.resultDual (b : Block) (s : Reg) (r : LongWord) : Block := (b.setDual s r).setZN [r]

/-- `k` results of width E in a single register, with their flags ORed (R20). -/
def Block.resultLanes {E : Nat} (b : Block) (s : Reg) (rs : List (BitVec E)) : Block :=
  (b.setReg s (joinLanes 32 rs)).setZN rs

/-- `k` results of width E in a dual register, with their flags ORed (R20). -/
def Block.resultLanesDual {E : Nat} (b : Block) (s : Reg) (rs : List (BitVec E)) : Block :=
  (b.setDual s (joinLanes 64 rs)).setZN rs

/-- The value of a shifter condition on a block's flags (R252 to R255; NSLT by D24). -/
def flagCondHolds (c : FlagCond) (b : Block) : Bool :=
  match c with
  | .seq => b.sz
  | .slt => b.sn && !b.sz
  | .nseq => !b.sz
  | .nslt => !(b.sn && !b.sz)

/-- The value of a condition on the state before its line; SF0 and SF1 are those of the given block (R256, R257). -/
def condHolds (c : Cond) (side : Side) (s : State) : Bool :=
  match c with
  | .flag sd fc => flagCondHolds fc (s.block sd)
  | .static f => s.flags.get side f

end Sys2Proof.Machine
end

