-- ==== Sys2Proof/Machine/BitManip.lean ====
section
/-! DEFINITION. BCLR, BSET, BTGL and BITEST (41_bit_manipulation.md R150 to R167). -/

namespace Sys2Proof.Machine

open Sys2Proof

/-- The flags of a bit test: SZ says whether the tested bit is 0, SN is drawn (R164, R31). No register is written. -/
def Block.testBit (side : Side) (b : Block) (t : Bool) : Block := (b.setSz (!t)).drawSn side

/-- `Rs = BCLR Rm BY Rn` (R152). -/
def execBclrNr (blk : Blk) (s m n : Reg) (σ : State) : Result :=
  .next (σ.onBlocks blk fun _ b => b.result s (bclr (b.reg m) (bitNumber 5 (b.reg n))))

/-- `Rs = BCLR Rm BY <Imm5>` (R153). -/
def execBclrNi (blk : Blk) (s m : Reg) (imm : Nat) (σ : State) : Result :=
  .next (σ.onBlocks blk fun _ b => b.result s (bclr (b.reg m) imm))

/-- `Rsd = BCLR Rmd BY Rn` (R154). -/
def execBclrLr (blk : Blk) (s m n : Reg) (σ : State) : Result :=
  .next (σ.onBlocks blk fun _ b => b.resultDual s (bclr (b.dual m) (bitNumber 6 (b.reg n))))

/-- `Rsd = BCLR Rmd BY <Imm6>` (R155). -/
def execBclrLi (blk : Blk) (s m : Reg) (imm : Nat) (σ : State) : Result :=
  .next (σ.onBlocks blk fun _ b => b.resultDual s (bclr (b.dual m) imm))

/-- `Rs = BSET Rm BY Rn` (R156). -/
def execBsetNr (blk : Blk) (s m n : Reg) (σ : State) : Result :=
  .next (σ.onBlocks blk fun _ b => b.result s (bset (b.reg m) (bitNumber 5 (b.reg n))))

/-- `Rs = BSET Rm BY <Imm5>` (R157). -/
def execBsetNi (blk : Blk) (s m : Reg) (imm : Nat) (σ : State) : Result :=
  .next (σ.onBlocks blk fun _ b => b.result s (bset (b.reg m) imm))

/-- `Rsd = BSET Rmd BY Rn` (R158). -/
def execBsetLr (blk : Blk) (s m n : Reg) (σ : State) : Result :=
  .next (σ.onBlocks blk fun _ b => b.resultDual s (bset (b.dual m) (bitNumber 6 (b.reg n))))

/-- `Rsd = BSET Rmd BY <Imm6>` (R159). -/
def execBsetLi (blk : Blk) (s m : Reg) (imm : Nat) (σ : State) : Result :=
  .next (σ.onBlocks blk fun _ b => b.resultDual s (bset (b.dual m) imm))

/-- `Rs = BTGL Rm BY Rn` (R160). -/
def execBtglNr (blk : Blk) (s m n : Reg) (σ : State) : Result :=
  .next (σ.onBlocks blk fun _ b => b.result s (btgl (b.reg m) (bitNumber 5 (b.reg n))))

/-- `Rs = BTGL Rm BY <Imm5>` (R161). -/
def execBtglNi (blk : Blk) (s m : Reg) (imm : Nat) (σ : State) : Result :=
  .next (σ.onBlocks blk fun _ b => b.result s (btgl (b.reg m) imm))

/-- `Rsd = BTGL Rmd BY Rn` (R162). -/
def execBtglLr (blk : Blk) (s m n : Reg) (σ : State) : Result :=
  .next (σ.onBlocks blk fun _ b => b.resultDual s (btgl (b.dual m) (bitNumber 6 (b.reg n))))

/-- `Rsd = BTGL Rmd BY <Imm6>` (R163). -/
def execBtglLi (blk : Blk) (s m : Reg) (imm : Nat) (σ : State) : Result :=
  .next (σ.onBlocks blk fun _ b => b.resultDual s (btgl (b.dual m) imm))

/-- `BITEST Rm BY Rn` (R164). -/
def execBitestNr (blk : Blk) (m n : Reg) (σ : State) : Result :=
  .next (σ.onBlocks blk fun side b => b.testBit side ((b.reg m).getLsbD (bitNumber 5 (b.reg n))))

/-- `BITEST Rm BY <Imm5>` (R165). -/
def execBitestNi (blk : Blk) (m : Reg) (imm : Nat) (σ : State) : Result :=
  .next (σ.onBlocks blk fun side b => b.testBit side ((b.reg m).getLsbD imm))

/-- `BITEST Rmd BY Rn` (R166). -/
def execBitestLr (blk : Blk) (m n : Reg) (σ : State) : Result :=
  .next (σ.onBlocks blk fun side b => b.testBit side ((b.dual m).getLsbD (bitNumber 6 (b.reg n))))

/-- `BITEST Rmd BY <Imm6>` (R167). -/
def execBitestLi (blk : Blk) (m : Reg) (imm : Nat) (σ : State) : Result :=
  .next (σ.onBlocks blk fun side b => b.testBit side ((b.dual m).getLsbD imm))

end Sys2Proof.Machine
end

