-- ==== Sys2Proof/Machine/BitField.lean ====
section
/-! DEFINITION. FEXT, FDEP and MASK (42_bit_field.md R180 to R194). Where the control fields name no field inside the
operand, FEXT and FDEP are `OUT_OF_DOMAIN` (R181). -/

namespace Sys2Proof.Machine

open Sys2Proof

/-- `Rs = FEXT Rm BY Rn {(SE)}` (R184). -/
def execFextNr (blk : Blk) (s m n : Reg) (se : Bool) (σ : State) : Result :=
  σ.onBlocksWithin blk (fun b => fieldInside 32 (pos8 (b.reg n)) (len7 (b.reg n))) fun _ b =>
    b.result s (extractField 32 (b.reg m) (pos8 (b.reg n)) (len7 (b.reg n)) se)

/-- `Rs = FEXT Rm BY Rnd {(SE)}` (R185). -/
def execFextNd (blk : Blk) (s m n : Reg) (se : Bool) (σ : State) : Result :=
  σ.onBlocksWithin blk (fun b => fieldInside 32 (pos8Dual (b.dual n)) (len7 (b.dual n))) fun _ b =>
    b.result s (extractField 32 (b.reg m) (pos8Dual (b.dual n)) (len7 (b.dual n)) se)

/-- `LRsd = FEXT Rmd BY Rn {(SE)}` (R186). -/
def execFextLr (blk : Blk) (s m n : Reg) (se : Bool) (σ : State) : Result :=
  σ.onBlocksWithin blk (fun b => fieldInside 64 (pos8 (b.reg n)) (len7 (b.reg n))) fun _ b =>
    b.resultDual s (extractField 64 (b.dual m) (pos8 (b.reg n)) (len7 (b.reg n)) se)

/-- `LRsd = FEXT Rmd BY Rnd {(SE)}` (R187). -/
def execFextLd (blk : Blk) (s m n : Reg) (se : Bool) (σ : State) : Result :=
  σ.onBlocksWithin blk (fun b => fieldInside 64 (pos8Dual (b.dual n)) (len7 (b.dual n))) fun _ b =>
    b.resultDual s (extractField 64 (b.dual m) (pos8Dual (b.dual n)) (len7 (b.dual n)) se)

/-- `Rs += FDEP Rm BY Rn {(SE|ZF)}` (R188). -/
def execFdepNr (blk : Blk) (s m n : Reg) (fill : Fill) (σ : State) : Result :=
  σ.onBlocksWithin blk (fun b => fieldInside 32 (pos8 (b.reg n)) (len7 (b.reg n))) fun _ b =>
    b.result s (depositField (b.reg s) (b.reg m) (pos8 (b.reg n)) (len7 (b.reg n)) fill)

/-- `Rs += FDEP Rm BY Rnd {(SE|ZF)}` (R189). -/
def execFdepNd (blk : Blk) (s m n : Reg) (fill : Fill) (σ : State) : Result :=
  σ.onBlocksWithin blk (fun b => fieldInside 32 (pos8Dual (b.dual n)) (len7 (b.dual n))) fun _ b =>
    b.result s (depositField (b.reg s) (b.reg m) (pos8Dual (b.dual n)) (len7 (b.dual n)) fill)

/-- `LRsd += FDEP Rmd BY Rn {(SE|ZF)}` (R190). -/
def execFdepLr (blk : Blk) (s m n : Reg) (fill : Fill) (σ : State) : Result :=
  σ.onBlocksWithin blk (fun b => fieldInside 64 (pos8 (b.reg n)) (len7 (b.reg n))) fun _ b =>
    b.resultDual s (depositField (b.dual s) (b.dual m) (pos8 (b.reg n)) (len7 (b.reg n)) fill)

/-- `LRsd += FDEP Rmd BY Rnd {(SE|ZF)}` (R191). -/
def execFdepLd (blk : Blk) (s m n : Reg) (fill : Fill) (σ : State) : Result :=
  σ.onBlocksWithin blk (fun b => fieldInside 64 (pos8Dual (b.dual n)) (len7 (b.dual n))) fun _ b =>
    b.resultDual s (depositField (b.dual s) (b.dual m) (pos8Dual (b.dual n)) (len7 (b.dual n)) fill)

/-- `Rs += MASK Rm BY Rn` (R193). -/
def execMaskN (blk : Blk) (s m n : Reg) (σ : State) : Result :=
  .next (σ.onBlocks blk fun _ b => b.result s (maskMerge (b.reg s) (b.reg m) (b.reg n)))

/-- `LRsd += MASK Rmd BY Rnd` (R194). -/
def execMaskL (blk : Blk) (s m n : Reg) (σ : State) : Result :=
  .next (σ.onBlocks blk fun _ b => b.resultDual s (maskMerge (b.dual s) (b.dual m) (b.dual n)))

end Sys2Proof.Machine
end

