-- ==== Sys2Proof/Machine/BitStream.lean ====
section
/-! DEFINITION. GETBITS, PUTBITS and the BFOTMP moves (44_bit_stream.md R230 to R235), and the host-level BFOINC step (R247, D34). -/

namespace Sys2Proof.Machine

open Sys2Proof

/-- `Rsd = GETBITS Rmq BY Rnd {(SE)}` (R232). -/
def execGetbits (blk : Blk) (s m n : Reg) (se : Bool) (σ : State) : Result :=
  σ.onBlocksWithin blk (fun b => decide (1 ≤ len7 (b.dual n) ∧ len7 (b.dual n) ≤ 64)) fun _ b =>
    b.resultDual s (extractField 64 (b.quad m) (bfp6 (b.dual n)) (len7 (b.dual n)) se)

/-- `Rsd += PUTBITS Rmd BY Rnd` (R233). -/
def execPutbits (blk : Blk) (s m n : Reg) (σ : State) : Result :=
  .next (σ.onBlocks blk fun side b =>
    ((b.setBfotmp (putOverflow (b.dual m) (b.drawn side) (bfp6 (b.dual n)))).nextDraw).resultDual s
      (putLow (b.dual s) (b.dual m) (bfp6 (b.dual n))))

/-- `Rsd = BFOTMP` (R234). -/
def execBfotmpStore (blk : Blk) (s : Reg) (σ : State) : Result :=
  .next (σ.onBlocks blk fun side b => (b.setDual s b.bfotmp).drawFlags side)

/-- `BFOTMP = Rmd` (R235). -/
def execBfotmpLoad (blk : Blk) (m : Reg) (σ : State) : Result :=
  .next (σ.onBlocks blk fun side b => (b.setBfotmp (b.dual m)).drawFlags side)

/-- BFOINC on the control pair `n`: an ALU instruction the bit FIFO needs, outside the instruction set; its two stated effects
(R247). BFP6 becomes the remainder of BFP6 + Len7 by 64, AN is set on the wrap and is drawn otherwise (D34). No step
calls it: the spec gives it no spelling. -/
def State.hostBfoinc (σ : State) (side : Side) (n : Reg) : State :=
  σ.onBlocks side.blk fun sd b =>
    let sum := bfp6 (b.dual n) + len7 (b.dual n)
    let up := b.reg (n + 1)
    let b' := b.setReg (n + 1) (((up >>> 6) <<< 6) ||| BitVec.ofNat 32 (sum % 64))
    if 64 ≤ sum then b'.setAn true else (b'.setAn ((b.drawn sd).getLsbD 0)).nextDraw

end Sys2Proof.Machine
end

