-- ==== Sys2Proof/Machine/Convert.lean ====
section
/-! DEFINITION. LD0, LD1, EXP and BKFPT (43_conversion.md R210 to R219). What EXP and BKFPT compute is uninterpreted (D21, D22). -/

namespace Sys2Proof.Machine

open Sys2Proof

/-- `Rs = LD0 Rm` (R211). -/
def execLd0N (blk : Blk) (s m : Reg) (σ : State) : Result :=
  .next (σ.onBlocks blk fun _ b => b.result s (BitVec.ofNat 32 (clz (b.reg m))))

/-- `Rs = LD0 Rmd` (R212). -/
def execLd0L (blk : Blk) (s m : Reg) (σ : State) : Result :=
  .next (σ.onBlocks blk fun _ b => b.result s (BitVec.ofNat 32 (clz (b.dual m))))

/-- `Rs = LD1 Rm` (R213). -/
def execLd1N (blk : Blk) (s m : Reg) (σ : State) : Result :=
  .next (σ.onBlocks blk fun _ b => b.result s (BitVec.ofNat 32 (clo (b.reg m))))

/-- `Rs = LD1 Rmd` (R214). -/
def execLd1L (blk : Blk) (s m : Reg) (σ : State) : Result :=
  .next (σ.onBlocks blk fun _ b => b.result s (BitVec.ofNat 32 (clo (b.dual m))))

/-- `Rs = EXP Rm` (R217). -/
def execExpN (blk : Blk) (s m : Reg) (σ : State) : Result :=
  .next (σ.onBlocks blk fun _ b => b.result s (Config.exp32 (b.reg m)))

/-- `Rs = EXP Rmd` (R218). -/
def execExpL (blk : Blk) (s m : Reg) (σ : State) : Result :=
  .next (σ.onBlocks blk fun _ b => b.result s (Config.exp64 (b.dual m)))

/-- `BKFPT Rmd, Rnd` (R219). -/
def execBkfpt (blk : Blk) (m n : Reg) (σ : State) : Result :=
  .next (σ.onBlocks blk fun side b => (b.setBf (Config.bkfpt b.bf (b.dual m) (b.dual n))).drawFlags side)

end Sys2Proof.Machine
end

