-- ==== Sys2Proof/Machine/ShiftRotate.lean ====
section
/-! DEFINITION. LSHIFT, ASHIFT and ROT (40_shift_rotate.md R100 to R138). Every form applies one function with one magnitude
to each lane of its data operand; operands are read from the block as it was (10_state.md R28). -/

namespace Sys2Proof.Machine

open Sys2Proof

/-- `Rs = LSHIFT Rm BY Rn` (R105). -/
def execLshiftNr (blk : Blk) (s m n : Reg) (σ : State) : Result :=
  .next (σ.onBlocks blk fun _ b => b.resultLanes s ((lanes 32 1 (b.reg m)).map (lsh · (magnitude 7 (b.reg n)))))

/-- `Rs = LSHIFT Rm BY <Imm6>` (R106). -/
def execLshiftNi (blk : Blk) (s m : Reg) (imm : Int) (σ : State) : Result :=
  .next (σ.onBlocks blk fun _ b => b.resultLanes s ((lanes 32 1 (b.reg m)).map (lsh · imm)))

/-- `BRs = LSHIFT Rm BY Rn` (R107). -/
def execLshiftBr (blk : Blk) (s m n : Reg) (σ : State) : Result :=
  .next (σ.onBlocks blk fun _ b => b.resultLanes s ((lanes 8 4 (b.reg m)).map (lsh · (magnitude 5 (b.reg n)))))

/-- `BRs = LSHIFT Rm BY <Imm4>` (R108). -/
def execLshiftBi (blk : Blk) (s m : Reg) (imm : Int) (σ : State) : Result :=
  .next (σ.onBlocks blk fun _ b => b.resultLanes s ((lanes 8 4 (b.reg m)).map (lsh · imm)))

/-- `SRs = LSHIFT Rm BY Rn` (R109). -/
def execLshiftSr (blk : Blk) (s m n : Reg) (σ : State) : Result :=
  .next (σ.onBlocks blk fun _ b => b.resultLanes s ((lanes 16 2 (b.reg m)).map (lsh · (magnitude 6 (b.reg n)))))

/-- `SRs = LSHIFT Rm BY <Imm5>` (R110). -/
def execLshiftSi (blk : Blk) (s m : Reg) (imm : Int) (σ : State) : Result :=
  .next (σ.onBlocks blk fun _ b => b.resultLanes s ((lanes 16 2 (b.reg m)).map (lsh · imm)))

/-- `Rsd = LSHIFT Rmd BY Rn` (R111). -/
def execLshiftDnr (blk : Blk) (s m n : Reg) (σ : State) : Result :=
  .next (σ.onBlocks blk fun _ b => b.resultLanesDual s ((lanes 32 2 (b.dual m)).map (lsh · (magnitude 7 (b.reg n)))))

/-- `Rsd = LSHIFT Rmd BY <Imm6>` (R112). -/
def execLshiftDni (blk : Blk) (s m : Reg) (imm : Int) (σ : State) : Result :=
  .next (σ.onBlocks blk fun _ b => b.resultLanesDual s ((lanes 32 2 (b.dual m)).map (lsh · imm)))

/-- `BRsd = LSHIFT Rmd BY Rn` (R113). -/
def execLshiftDbr (blk : Blk) (s m n : Reg) (σ : State) : Result :=
  .next (σ.onBlocks blk fun _ b => b.resultLanesDual s ((lanes 8 8 (b.dual m)).map (lsh · (magnitude 5 (b.reg n)))))

/-- `BRsd = LSHIFT Rmd BY <Imm4>` (R114). -/
def execLshiftDbi (blk : Blk) (s m : Reg) (imm : Int) (σ : State) : Result :=
  .next (σ.onBlocks blk fun _ b => b.resultLanesDual s ((lanes 8 8 (b.dual m)).map (lsh · imm)))

/-- `SRsd = LSHIFT Rmd BY Rn` (R115). -/
def execLshiftDsr (blk : Blk) (s m n : Reg) (σ : State) : Result :=
  .next (σ.onBlocks blk fun _ b => b.resultLanesDual s ((lanes 16 4 (b.dual m)).map (lsh · (magnitude 6 (b.reg n)))))

/-- `SRsd = LSHIFT Rmd BY <Imm5>` (R116). -/
def execLshiftDsi (blk : Blk) (s m : Reg) (imm : Int) (σ : State) : Result :=
  .next (σ.onBlocks blk fun _ b => b.resultLanesDual s ((lanes 16 4 (b.dual m)).map (lsh · imm)))

/-- `LRsd = LSHIFT Rmd BY Rn` (R117). -/
def execLshiftLr (blk : Blk) (s m n : Reg) (σ : State) : Result :=
  .next (σ.onBlocks blk fun _ b => b.resultLanesDual s ((lanes 64 1 (b.dual m)).map (lsh · (magnitude 8 (b.reg n)))))

/-- `LRsd = LSHIFT Rmd BY <Imm7>` (R118). -/
def execLshiftLi (blk : Blk) (s m : Reg) (imm : Int) (σ : State) : Result :=
  .next (σ.onBlocks blk fun _ b => b.resultLanesDual s ((lanes 64 1 (b.dual m)).map (lsh · imm)))

/-- `Rs = ASHIFT Rm BY Rn` (R119). -/
def execAshiftNr (blk : Blk) (s m n : Reg) (σ : State) : Result :=
  .next (σ.onBlocks blk fun _ b => b.resultLanes s ((lanes 32 1 (b.reg m)).map (ash · (magnitude 7 (b.reg n)))))

/-- `Rs = ASHIFT Rm BY <Imm6>` (R120). -/
def execAshiftNi (blk : Blk) (s m : Reg) (imm : Int) (σ : State) : Result :=
  .next (σ.onBlocks blk fun _ b => b.resultLanes s ((lanes 32 1 (b.reg m)).map (ash · imm)))

/-- `BRs = ASHIFT Rm BY Rn` (R121). -/
def execAshiftBr (blk : Blk) (s m n : Reg) (σ : State) : Result :=
  .next (σ.onBlocks blk fun _ b => b.resultLanes s ((lanes 8 4 (b.reg m)).map (ash · (magnitude 5 (b.reg n)))))

/-- `BRs = ASHIFT Rm BY <Imm4>` (R122). -/
def execAshiftBi (blk : Blk) (s m : Reg) (imm : Int) (σ : State) : Result :=
  .next (σ.onBlocks blk fun _ b => b.resultLanes s ((lanes 8 4 (b.reg m)).map (ash · imm)))

/-- `SRs = ASHIFT Rm BY Rn` (R123). -/
def execAshiftSr (blk : Blk) (s m n : Reg) (σ : State) : Result :=
  .next (σ.onBlocks blk fun _ b => b.resultLanes s ((lanes 16 2 (b.reg m)).map (ash · (magnitude 6 (b.reg n)))))

/-- `SRs = ASHIFT Rm BY <Imm5>` (R124). -/
def execAshiftSi (blk : Blk) (s m : Reg) (imm : Int) (σ : State) : Result :=
  .next (σ.onBlocks blk fun _ b => b.resultLanes s ((lanes 16 2 (b.reg m)).map (ash · imm)))

/-- `Rsd = ASHIFT Rmd BY Rn` (R125). -/
def execAshiftDnr (blk : Blk) (s m n : Reg) (σ : State) : Result :=
  .next (σ.onBlocks blk fun _ b => b.resultLanesDual s ((lanes 32 2 (b.dual m)).map (ash · (magnitude 7 (b.reg n)))))

/-- `Rsd = ASHIFT Rmd BY <Imm6>` (R126). -/
def execAshiftDni (blk : Blk) (s m : Reg) (imm : Int) (σ : State) : Result :=
  .next (σ.onBlocks blk fun _ b => b.resultLanesDual s ((lanes 32 2 (b.dual m)).map (ash · imm)))

/-- `BRsd = ASHIFT Rmd BY Rn` (R127). -/
def execAshiftDbr (blk : Blk) (s m n : Reg) (σ : State) : Result :=
  .next (σ.onBlocks blk fun _ b => b.resultLanesDual s ((lanes 8 8 (b.dual m)).map (ash · (magnitude 5 (b.reg n)))))

/-- `BRsd = ASHIFT Rmd BY <Imm4>` (R128). -/
def execAshiftDbi (blk : Blk) (s m : Reg) (imm : Int) (σ : State) : Result :=
  .next (σ.onBlocks blk fun _ b => b.resultLanesDual s ((lanes 8 8 (b.dual m)).map (ash · imm)))

/-- `SRsd = ASHIFT Rmd BY Rn` (R129). -/
def execAshiftDsr (blk : Blk) (s m n : Reg) (σ : State) : Result :=
  .next (σ.onBlocks blk fun _ b => b.resultLanesDual s ((lanes 16 4 (b.dual m)).map (ash · (magnitude 6 (b.reg n)))))

/-- `SRsd = ASHIFT Rmd BY <Imm5>` (R130). -/
def execAshiftDsi (blk : Blk) (s m : Reg) (imm : Int) (σ : State) : Result :=
  .next (σ.onBlocks blk fun _ b => b.resultLanesDual s ((lanes 16 4 (b.dual m)).map (ash · imm)))

/-- `LRsd = ASHIFT Rmd BY Rn` (R131). -/
def execAshiftLr (blk : Blk) (s m n : Reg) (σ : State) : Result :=
  .next (σ.onBlocks blk fun _ b => b.resultLanesDual s ((lanes 64 1 (b.dual m)).map (ash · (magnitude 8 (b.reg n)))))

/-- `LRsd = ASHIFT Rmd BY <Imm7>` (R132). -/
def execAshiftLi (blk : Blk) (s m : Reg) (imm : Int) (σ : State) : Result :=
  .next (σ.onBlocks blk fun _ b => b.resultLanesDual s ((lanes 64 1 (b.dual m)).map (ash · imm)))

/-- `Rs = ROT Rm BY Rn` (R133). -/
def execRotNr (blk : Blk) (s m n : Reg) (σ : State) : Result :=
  .next (σ.onBlocks blk fun _ b => b.resultLanes s ((lanes 32 1 (b.reg m)).map (rot · (magnitude 7 (b.reg n)))))

/-- `Rs = ROT Rm BY <Imm6>` (R134). -/
def execRotNi (blk : Blk) (s m : Reg) (imm : Int) (σ : State) : Result :=
  .next (σ.onBlocks blk fun _ b => b.resultLanes s ((lanes 32 1 (b.reg m)).map (rot · imm)))

/-- `Rsd = ROT Rmd BY Rnd` (R135). -/
def execRotDnr (blk : Blk) (s m n : Reg) (σ : State) : Result :=
  .next (σ.onBlocks blk fun _ b => b.resultLanesDual s ((lanes 32 2 (b.dual m)).map (rot · (magnitude 7 (b.dual n)))))

/-- `Rsd = ROT Rmd BY <Imm6>` (R136). -/
def execRotDni (blk : Blk) (s m : Reg) (imm : Int) (σ : State) : Result :=
  .next (σ.onBlocks blk fun _ b => b.resultLanesDual s ((lanes 32 2 (b.dual m)).map (rot · imm)))

/-- `LRsd = ROT Rmd BY Rnd` (R137). -/
def execRotLr (blk : Blk) (s m n : Reg) (σ : State) : Result :=
  .next (σ.onBlocks blk fun _ b => b.resultLanesDual s ((lanes 64 1 (b.dual m)).map (rot · (magnitude 8 (b.dual n)))))

/-- `LRsd = ROT Rmd BY <Imm7>` (R138). -/
def execRotLi (blk : Blk) (s m : Reg) (imm : Int) (σ : State) : Result :=
  .next (σ.onBlocks blk fun _ b => b.resultLanesDual s ((lanes 64 1 (b.dual m)).map (rot · imm)))

end Sys2Proof.Machine
end

