-- ==== Sys2Proof/Machine/StatMove.lean ====
section
/-! DEFINITION. The moves between a register and XSTAT or YSTAT (42_bit_field.md R195 to R198). STAT is a plain 32-bit cell
(U11, assumption log 25). A load leaves the loaded value as the new flags; a store leaves SZ and SN drawn (R31, D19). -/

namespace Sys2Proof.Machine

open Sys2Proof

/-- The low `n` bits of `v` over the rest of `old` (R197). -/
def lowMerge (n : Nat) (old v : Word) : Word := ((old >>> n) <<< n) ||| (v.extractLsb' 0 n).setWidth 32

/-- `{X|Y}STAT = Rm` (R196). -/
def execStatLoad (side : Side) (m : Reg) (σ : State) : Result :=
  .next (σ.onBlocks side.blk fun _ b => b.setStat (b.reg m))

/-- `{X|Y}STATL = Rm` (R197). -/
def execStatlLoad (side : Side) (m : Reg) (σ : State) : Result :=
  .next (σ.onBlocks side.blk fun _ b => b.setStat (lowMerge Config.statlWidth b.stat (b.reg m)))

/-- `{X|Y}Rs = {X|Y}STAT` (R198). -/
def execStatStore (side : Side) (s : Reg) (σ : State) : Result :=
  .next (σ.onBlocks side.blk fun sd b => (b.setReg s b.stat).drawFlags sd)

end Sys2Proof.Machine
end

