-- ==== Sys2Proof/Machine/Dispatch.lean ====
section
/-! DEFINITION. The meaning of each instruction, one arm per row of spec/opcode_table.json. -/

namespace Sys2Proof.Machine

open Sys2Proof

def exec (i : Instr) (s : State) : Host.Outcome State Fault Refusal :=
  match i with
  | .lshiftNr blk rs m n => Sys2Proof.Machine.execLshiftNr blk rs m n s
  | .lshiftNi blk rs m imm => Sys2Proof.Machine.execLshiftNi blk rs m imm s
  | .lshiftBr blk rs m n => Sys2Proof.Machine.execLshiftBr blk rs m n s
  | .lshiftBi blk rs m imm => Sys2Proof.Machine.execLshiftBi blk rs m imm s
  | .lshiftSr blk rs m n => Sys2Proof.Machine.execLshiftSr blk rs m n s
  | .lshiftSi blk rs m imm => Sys2Proof.Machine.execLshiftSi blk rs m imm s
  | .lshiftDnr blk rs m n => Sys2Proof.Machine.execLshiftDnr blk rs m n s
  | .lshiftDni blk rs m imm => Sys2Proof.Machine.execLshiftDni blk rs m imm s
  | .lshiftDbr blk rs m n => Sys2Proof.Machine.execLshiftDbr blk rs m n s
  | .lshiftDbi blk rs m imm => Sys2Proof.Machine.execLshiftDbi blk rs m imm s
  | .lshiftDsr blk rs m n => Sys2Proof.Machine.execLshiftDsr blk rs m n s
  | .lshiftDsi blk rs m imm => Sys2Proof.Machine.execLshiftDsi blk rs m imm s
  | .lshiftLr blk rs m n => Sys2Proof.Machine.execLshiftLr blk rs m n s
  | .lshiftLi blk rs m imm => Sys2Proof.Machine.execLshiftLi blk rs m imm s
  | .ashiftNr blk rs m n => Sys2Proof.Machine.execAshiftNr blk rs m n s
  | .ashiftNi blk rs m imm => Sys2Proof.Machine.execAshiftNi blk rs m imm s
  | .ashiftBr blk rs m n => Sys2Proof.Machine.execAshiftBr blk rs m n s
  | .ashiftBi blk rs m imm => Sys2Proof.Machine.execAshiftBi blk rs m imm s
  | .ashiftSr blk rs m n => Sys2Proof.Machine.execAshiftSr blk rs m n s
  | .ashiftSi blk rs m imm => Sys2Proof.Machine.execAshiftSi blk rs m imm s
  | .ashiftDnr blk rs m n => Sys2Proof.Machine.execAshiftDnr blk rs m n s
  | .ashiftDni blk rs m imm => Sys2Proof.Machine.execAshiftDni blk rs m imm s
  | .ashiftDbr blk rs m n => Sys2Proof.Machine.execAshiftDbr blk rs m n s
  | .ashiftDbi blk rs m imm => Sys2Proof.Machine.execAshiftDbi blk rs m imm s
  | .ashiftDsr blk rs m n => Sys2Proof.Machine.execAshiftDsr blk rs m n s
  | .ashiftDsi blk rs m imm => Sys2Proof.Machine.execAshiftDsi blk rs m imm s
  | .ashiftLr blk rs m n => Sys2Proof.Machine.execAshiftLr blk rs m n s
  | .ashiftLi blk rs m imm => Sys2Proof.Machine.execAshiftLi blk rs m imm s
  | .rotNr blk rs m n => Sys2Proof.Machine.execRotNr blk rs m n s
  | .rotNi blk rs m imm => Sys2Proof.Machine.execRotNi blk rs m imm s
  | .rotDnr blk rs m n => Sys2Proof.Machine.execRotDnr blk rs m n s
  | .rotDni blk rs m imm => Sys2Proof.Machine.execRotDni blk rs m imm s
  | .rotLr blk rs m n => Sys2Proof.Machine.execRotLr blk rs m n s
  | .rotLi blk rs m imm => Sys2Proof.Machine.execRotLi blk rs m imm s
  | .bclrNr blk rs m n => Sys2Proof.Machine.execBclrNr blk rs m n s
  | .bclrNi blk rs m imm => Sys2Proof.Machine.execBclrNi blk rs m imm s
  | .bclrLr blk rs m n => Sys2Proof.Machine.execBclrLr blk rs m n s
  | .bclrLi blk rs m imm => Sys2Proof.Machine.execBclrLi blk rs m imm s
  | .bsetNr blk rs m n => Sys2Proof.Machine.execBsetNr blk rs m n s
  | .bsetNi blk rs m imm => Sys2Proof.Machine.execBsetNi blk rs m imm s
  | .bsetLr blk rs m n => Sys2Proof.Machine.execBsetLr blk rs m n s
  | .bsetLi blk rs m imm => Sys2Proof.Machine.execBsetLi blk rs m imm s
  | .btglNr blk rs m n => Sys2Proof.Machine.execBtglNr blk rs m n s
  | .btglNi blk rs m imm => Sys2Proof.Machine.execBtglNi blk rs m imm s
  | .btglLr blk rs m n => Sys2Proof.Machine.execBtglLr blk rs m n s
  | .btglLi blk rs m imm => Sys2Proof.Machine.execBtglLi blk rs m imm s
  | .bitestNr blk m n => Sys2Proof.Machine.execBitestNr blk m n s
  | .bitestNi blk m imm => Sys2Proof.Machine.execBitestNi blk m imm s
  | .bitestLr blk m n => Sys2Proof.Machine.execBitestLr blk m n s
  | .bitestLi blk m imm => Sys2Proof.Machine.execBitestLi blk m imm s
  | .fextNr blk rs m n se => Sys2Proof.Machine.execFextNr blk rs m n se s
  | .fextNd blk rs m n se => Sys2Proof.Machine.execFextNd blk rs m n se s
  | .fextLr blk rs m n se => Sys2Proof.Machine.execFextLr blk rs m n se s
  | .fextLd blk rs m n se => Sys2Proof.Machine.execFextLd blk rs m n se s
  | .fdepNr blk rs m n fill => Sys2Proof.Machine.execFdepNr blk rs m n fill s
  | .fdepNd blk rs m n fill => Sys2Proof.Machine.execFdepNd blk rs m n fill s
  | .fdepLr blk rs m n fill => Sys2Proof.Machine.execFdepLr blk rs m n fill s
  | .fdepLd blk rs m n fill => Sys2Proof.Machine.execFdepLd blk rs m n fill s
  | .maskN blk rs m n => Sys2Proof.Machine.execMaskN blk rs m n s
  | .maskL blk rs m n => Sys2Proof.Machine.execMaskL blk rs m n s
  | .statLoad side m => Sys2Proof.Machine.execStatLoad side m s
  | .statlLoad side m => Sys2Proof.Machine.execStatlLoad side m s
  | .statStore side rs => Sys2Proof.Machine.execStatStore side rs s
  | .ld0N blk rs m => Sys2Proof.Machine.execLd0N blk rs m s
  | .ld0L blk rs m => Sys2Proof.Machine.execLd0L blk rs m s
  | .ld1N blk rs m => Sys2Proof.Machine.execLd1N blk rs m s
  | .ld1L blk rs m => Sys2Proof.Machine.execLd1L blk rs m s
  | .expN blk rs m => Sys2Proof.Machine.execExpN blk rs m s
  | .expL blk rs m => Sys2Proof.Machine.execExpL blk rs m s
  | .bkfpt blk m n => Sys2Proof.Machine.execBkfpt blk m n s
  | .getbits blk rs m n se => Sys2Proof.Machine.execGetbits blk rs m n se s
  | .putbits blk rs m n => Sys2Proof.Machine.execPutbits blk rs m n s
  | .bfotmpStore blk rs => Sys2Proof.Machine.execBfotmpStore blk rs s
  | .bfotmpLoad blk m => Sys2Proof.Machine.execBfotmpLoad blk m s

end Sys2Proof.Machine
end

