-- ==== Sys2Proof/Machine/Line.lean ====
section
/-! DEFINITION. Executing an instruction line (45_conditional.md R251, R258; 20_memory.md R45). Every slot reads the state
before the line; the line's effect is the union of its slots' effects, which lie in different compute blocks
(70_reset_and_hazards.md R293). -/

namespace Sys2Proof.Machine

open Sys2Proof

/-- `acc` with the compute blocks an instruction executes in taken from `t`. -/
def State.takeBlocks (acc : State) (i : Instr) (t : State) : State :=
  { acc with
    x := if i.runs .x then t.x else acc.x
    y := if i.runs .y then t.y else acc.y }

/-- The slots of a line, each executed on the state `pre` before the line, `acc` gathering their effects. A controlled slot
of a false condition has no effect at all (R251, D29). -/
def runSlots (c : Bool) (pre : State) : List Slot → State → Result
  | [], acc => .next acc
  | sl :: rest, acc =>
    if sl.controlled && !c then runSlots c pre rest acc
    else
      match exec sl.instr pre with
      | .next t => runSlots c pre rest (acc.takeBlocks sl.instr t)
      | .fault f => .fault f
      | .refused r => .refused r

/-- The block whose static flags SF0 and SF1 name in a line: the one block of all its controlled instructions (R257). -/
def staticSide (slots : List Slot) : Side := if controlledOnlyIn .y slots then .y else .x

/-- The value of a line's condition on the state before it; no condition is always true (R251). -/
def condValue (cond : Option Cond) (slots : List Slot) (s : State) : Bool :=
  match cond with
  | none => true
  | some c => condHolds c (staticSide slots) s

/-- The effect of a line, the line counter apart (R251, R258). -/
def execLine (l : Line) (s : State) : Result :=
  match l with
  | .issue cond slots => runSlots (condValue cond slots s) s slots s
  | .flagLoad dst f src c => .next { s with flags := s.flags.set dst f (flagCondHolds c (s.block src)) }

/-- The effect of a line, then the next line: every line, executed or not, advances the counter by one (R25, R251). -/
def runLine (l : Line) (s : State) : Result :=
  match execLine l s with
  | .next t => .next t.advance
  | .fault f => .fault f
  | .refused r => .refused r

/-- Run the text of one line: what is no well-formed line is refused by name and never executes (R42, R64, D16). Each line is
checked when the line counter reaches it, so the lines before an ill-formed one have executed: DESIGN CHOICE, unsafe
(assumption log 34). -/
def runText (t : Text) (s : State) : Result :=
  match decodeLine t with
  | .ok l => runLine l s
  | .error e => .refused (.notALine e)

end Sys2Proof.Machine
end

