-- ==== Sys2Proof/Machine/Step.lean ====
section
/-! DEFINITION. One step of the machine: one instruction line (10_state.md R33). -/

namespace Sys2Proof.Machine

open Sys2Proof

/-- Execute the line the line counter names; past the last line the run is over (R25, 60_exceptions.md R277). -/
def step (s : State) : Host.Outcome State Fault Refusal :=
  match s.fetch with
  | some t => runText t s
  | none => .fault .programEnd

/-- `s` with the text of the word `w` as the line its next step executes (assumption log 8 and 9). -/
def State.withFetchWord (s : State) (nbits w : Nat) : State :=
  { s with program := placeLine s.program s.lc (wordText nbits w) }

end Sys2Proof.Machine
end

