-- ==== Sys2Proof/Safety.lean ====
section
/-! DEFINITION. The words the claims are made in: what an instruction may leave changed, and what each result is, bit by bit.
Nothing here is written with the functions the meanings use on their operands. -/

namespace Sys2Proof.Safety

open Sys2Proof Sys2Proof.Machine

/-! ## Frames -/

/-- Every bit of STAT but SZ and SN is as before. -/
def StatKept (b b' : Block) : Prop :=
  ∀ j, j ≠ Config.szBit → j ≠ Config.snBit → b'.stat.getLsbD j = b.stat.getLsbD j

/-- Every register outside the list is as before. -/
def RegsKept (written : List Reg) (b b' : Block) : Prop := ∀ r, r ∉ written → b'.reg r = b.reg r

/-- Only the listed registers, SZ and SN may have changed in a block. -/
def OnlyRegsAndFlags (written : List Reg) (b b' : Block) : Prop :=
  RegsKept written b b' ∧ StatKept b b' ∧ b'.bfotmp = b.bfotmp

/-- An instruction acted in the blocks it was written for, as `P` says, and changed nothing else of the machine: not the other
block, the static flags, the program or the line counter. -/
def ActsIn (blk : Blk) (σ t : State) (P : Block → Block → Prop) : Prop :=
  (∀ side, blk.runs side = true → P (σ.block side) (t.block side)) ∧
  (∀ side, blk.runs side = false → t.block side = σ.block side) ∧
  t.flags = σ.flags ∧ t.program = σ.program ∧ t.lc = σ.lc

/-- The instruction completes from `σ`, acting as `P` says in the blocks it names and nowhere else. -/
def Does (i : Instr) (σ : State) (P : Block → Block → Prop) : Prop :=
  ∃ t, exec i σ = .next t ∧ ActsIn i.blk σ t P

/-! ## Where the spec gives an instruction a meaning -/

/-- A field of `len` bits from bit `pos` up is not empty and lies inside an operand of width `w` (42_bit_field.md R181). -/
def FieldInside (w pos len : Nat) : Prop := 1 ≤ len ∧ pos + len ≤ w

/-- The operand values for which the spec gives an instruction a meaning: for FEXT and FDEP those whose control fields Pos8 and
Len7, in a single or a dual register, name a field inside the operand (R180, R181), for GETBITS those with a length of 1 to
64 (44_bit_stream.md R232), for every other instruction all of them. -/
def Domain : Instr → Block → Prop
  | .fextNr _ _ _ n _, b | .fdepNr _ _ _ n _, b =>
    FieldInside 32 ((b.reg n).toNat / 256 % 256) ((b.reg n).toNat % 128)
  | .fextNd _ _ _ n _, b | .fdepNd _ _ _ n _, b =>
    FieldInside 32 ((b.reg (n + 1)).toNat % 256) ((b.reg n).toNat % 128)
  | .fextLr _ _ _ n _, b | .fdepLr _ _ _ n _, b =>
    FieldInside 64 ((b.reg n).toNat / 256 % 256) ((b.reg n).toNat % 128)
  | .fextLd _ _ _ n _, b | .fdepLd _ _ _ n _, b =>
    FieldInside 64 ((b.reg (n + 1)).toNat % 256) ((b.reg n).toNat % 128)
  | .getbits _ _ _ n _, b => 1 ≤ (b.reg n).toNat % 128 ∧ (b.reg n).toNat % 128 ≤ 64
  | _, _ => True

/-- The operands of an instruction are in its domain in every block it executes in. -/
def InDomain (i : Instr) (σ : State) : Prop := ∀ side, i.runs side = true → Domain i (σ.block side)

/-- In its domain the instruction completes, acting as `P` says in the blocks it names and nowhere else; outside it the model
stops with the fault of `OUT_OF_DOMAIN` (00_scope.md 4.3). -/
def DoesInDomain (i : Instr) (σ : State) (P : Block → Block → Prop) : Prop :=
  (InDomain i σ → Does i σ P) ∧ (¬ InDomain i σ → exec i σ = .fault .outOfDomain)

/-- Does a slot of a line execute: it has no `DO`, or the condition is true on the state before the line (R251)? -/
def Executes (cond : Option Cond) (slots : List Slot) (σ : State) (sl : Slot) : Prop :=
  sl.controlled = false ∨ condValue cond slots σ = true

/-- Every slot of the line that executes is in its domain. -/
def LineInDomain : Line → State → Prop
  | .issue cond slots, σ => ∀ sl, sl ∈ slots → Executes cond slots σ sl → InDomain sl.instr σ
  | .flagLoad _ _ _ _, _ => True

/-! ## Which terms the spec has -/

/-- A dual register: it starts at an even register, and both are in the file (10_state.md R15). -/
def IsPair (r : Reg) : Prop := r.val % 2 = 0 ∧ r.val + 1 < Config.nreg

/-- A quad register: it starts at a multiple of four, and all four are in the file (R15). -/
def IsQuad (r : Reg) : Prop := r.val % 4 = 0 ∧ r.val + 3 < Config.nreg

/-- The fields of an instruction are what its row of 30_encoding.md R63 allows: signed immediates of 6, 4, 5 or 7 bits (R58), bit
numbers below 32 or 64 (R59), dual and quad registers that start where one may (R15). -/
def FieldsInRange : Instr → Prop
  | .lshiftNi _ _ _ k | .ashiftNi _ _ _ k | .rotNi _ _ _ k => -32 ≤ k ∧ k ≤ 31
  | .lshiftBi _ _ _ k | .ashiftBi _ _ _ k => -8 ≤ k ∧ k ≤ 7
  | .lshiftSi _ _ _ k | .ashiftSi _ _ _ k => -16 ≤ k ∧ k ≤ 15
  | .lshiftDni _ s m k | .ashiftDni _ s m k | .rotDni _ s m k => IsPair s ∧ IsPair m ∧ -32 ≤ k ∧ k ≤ 31
  | .lshiftDbi _ s m k | .ashiftDbi _ s m k => IsPair s ∧ IsPair m ∧ -8 ≤ k ∧ k ≤ 7
  | .lshiftDsi _ s m k | .ashiftDsi _ s m k => IsPair s ∧ IsPair m ∧ -16 ≤ k ∧ k ≤ 15
  | .lshiftLi _ s m k | .ashiftLi _ s m k | .rotLi _ s m k => IsPair s ∧ IsPair m ∧ -64 ≤ k ∧ k ≤ 63
  | .lshiftDnr _ s m _ | .lshiftDbr _ s m _ | .lshiftDsr _ s m _ | .lshiftLr _ s m _
  | .ashiftDnr _ s m _ | .ashiftDbr _ s m _ | .ashiftDsr _ s m _ | .ashiftLr _ s m _
  | .bclrLr _ s m _ | .bsetLr _ s m _ | .btglLr _ s m _ | .fextLr _ s m _ _ | .fdepLr _ s m _ _ => IsPair s ∧ IsPair m
  | .rotDnr _ s m n | .rotLr _ s m n | .fextLd _ s m n _ | .fdepLd _ s m n _ | .maskL _ s m n | .putbits _ s m n =>
    IsPair s ∧ IsPair m ∧ IsPair n
  | .bclrNi _ _ _ k | .bsetNi _ _ _ k | .btglNi _ _ _ k | .bitestNi _ _ k => k ≤ 31
  | .bclrLi _ s m k | .bsetLi _ s m k | .btglLi _ s m k => IsPair s ∧ IsPair m ∧ k ≤ 63
  | .bitestLi _ m k => IsPair m ∧ k ≤ 63
  | .fextNd _ _ _ n _ | .fdepNd _ _ _ n _ => IsPair n
  | .bitestLr _ m _ | .ld0L _ _ m | .ld1L _ _ m | .expL _ _ m | .bfotmpLoad _ m => IsPair m
  | .bfotmpStore _ s => IsPair s
  | .bkfpt _ m n => IsPair m ∧ IsPair n
  | .getbits _ s m n _ => IsPair s ∧ IsQuad m ∧ IsPair n
  | .lshiftNr .. | .lshiftBr .. | .lshiftSr .. | .ashiftNr .. | .ashiftBr .. | .ashiftSr .. | .rotNr .. | .bclrNr ..
  | .bsetNr .. | .btglNr .. | .bitestNr .. | .fextNr .. | .fdepNr .. | .maskN .. | .statLoad .. | .statlLoad ..
  | .statStore .. | .ld0N .. | .ld1N .. | .expN .. => True

/-- The slots of a line may stand together: one to three after a condition, one to four without (30_encoding.md R51,
45_conditional.md R250), controlled ones only after a condition (R250), no two that execute in one compute block
(70_reset_and_hazards.md R292, R293), SF0 and SF1 with controlled slots that name one and the same single block (R257); and
each instruction's fields are in range. -/
def LineInRange : Line → Prop
  | .flagLoad _ _ _ _ => True
  | .issue cond slots =>
    1 ≤ slots.length ∧ slots.length ≤ (if cond = none then 4 else 3) ∧
    (cond = none → ∀ sl, sl ∈ slots → sl.controlled = false) ∧
    slots.Pairwise (fun a b => ∀ side, ¬ (a.instr.runs side = true ∧ b.instr.runs side = true)) ∧
    (∀ g, cond = some (.static g) → (∃ sl, sl ∈ slots ∧ sl.controlled = true) ∧
      ∃ side, ∀ sl, sl ∈ slots → sl.controlled = true →
        sl.instr.runs side = true ∧ ∀ other, sl.instr.runs other = true → other = side) ∧
    ∀ sl, sl ∈ slots → FieldsInRange sl.instr

/-! ## Elements and their bits -/

/-- Bit `j` of an element of width E shifted by `k` with zero fill, from the element's bits `v`. -/
def lshBit (E : Nat) (v : Nat → Bool) (k : Int) (j : Nat) : Bool :=
  decide (0 ≤ (j : Int) - k ∧ (j : Int) - k < E) && v ((j : Int) - k).toNat

/-- The same with sign fill from above. -/
def ashBit (E : Nat) (v : Nat → Bool) (k : Int) (j : Nat) : Bool :=
  if (j : Int) - k < 0 then false else if (j : Int) - k < E then v ((j : Int) - k).toNat else v (E - 1)

/-- Bit `j` of an element of width E rotated left by `k`. -/
def rotBit (E : Nat) (v : Nat → Bool) (k : Int) (j : Nat) : Bool := v (((j : Int) - k) % (E : Int)).toNat

/-- A function of an element's width, bits and a magnitude, giving the bits of the shifted element. -/
abbrev ElementBit := Nat → (Nat → Bool) → Int → Nat → Bool

/-- The `k` elements of width E of `r` are those of `d` shifted by `mag`, each within itself. -/
def ShiftedLanes {w : Nat} (bit : ElementBit) (E k : Nat) (mag : Int) (d r : BitVec w) : Prop :=
  ∀ q, q < k → ∀ j, j < E → r.getLsbD (E * q + j) = bit E (fun i => d.getLsbD (E * q + i)) mag j

/-- SZ is set exactly when one of the `k` elements of width E of `r` is zero, SN exactly when one has its top bit set. -/
def LaneFlags {w : Nat} (E k : Nat) (r : BitVec w) (b' : Block) : Prop :=
  (b'.sz = true ↔ ∃ q, q < k ∧ ∀ j, j < E → r.getLsbD (E * q + j) = false) ∧
  (b'.sn = true ↔ ∃ q, q < k ∧ r.getLsbD (E * q + (E - 1)) = true)

/-- SZ and SN are those of one result. -/
def OneResultFlags {w : Nat} (r : BitVec w) (b' : Block) : Prop := (b'.sz = true ↔ r = 0#w) ∧ b'.sn = r.msb

/-- A shift in a single register: its elements, its flags, and nothing else. -/
def ShiftsReg (bit : ElementBit) (E k : Nat) (s m : Reg) (mag : Block → Int) (b b' : Block) : Prop :=
  ShiftedLanes bit E k (mag b) (b.reg m) (b'.reg s) ∧ LaneFlags E k (b'.reg s) b' ∧ OnlyRegsAndFlags [s] b b'

/-- A shift in a dual register: its elements, its flags, and nothing else. -/
def ShiftsDual (bit : ElementBit) (E k : Nat) (s m : Reg) (mag : Block → Int) (b b' : Block) : Prop :=
  ShiftedLanes bit E k (mag b) (b.dual m) (b'.dual s) ∧ LaneFlags E k (b'.dual s) b' ∧
    OnlyRegsAndFlags [s, s + 1] b b'

/-- One result in a single register with its flags, and nothing else. -/
def WritesReg (s : Reg) (Q : Block → Word → Prop) (b b' : Block) : Prop :=
  Q b (b'.reg s) ∧ OneResultFlags (b'.reg s) b' ∧ OnlyRegsAndFlags [s] b b'

/-- One 64-bit result in a dual register with its flags, and nothing else. -/
def WritesDual (s : Reg) (Q : Block → LongWord → Prop) (b b' : Block) : Prop :=
  Q b (b'.dual s) ∧ OneResultFlags (b'.dual s) b' ∧ OnlyRegsAndFlags [s, s + 1] b b'

/-- `r` is `d` with bit `n` given by `f` of the old bit, every other bit as it was. -/
def OneBitChanged {w : Nat} (f : Bool → Bool) (d : BitVec w) (n : Nat) (r : BitVec w) : Prop :=
  ∀ j, j < w → r.getLsbD j = if j = n then f (d.getLsbD j) else d.getLsbD j

/-- `r` holds the field of `len` bits from `pos` of `d`, right-justified, the bits above zero or the field's top bit. -/
def IsField {v w : Nat} (d : BitVec v) (pos len : Nat) (se : Bool) (r : BitVec w) : Prop :=
  ∀ j, j < w → r.getLsbD j = if j < len then d.getLsbD (pos + j) else (se && d.getLsbD (pos + (len - 1)))

/-- `r` is `old` with the low `len` bits of `d` at `pos`; the bits below are kept, those above kept, signed or cleared. -/
def IsDeposit {w : Nat} (old d : BitVec w) (pos len : Nat) (fill : Fill) (r : BitVec w) : Prop :=
  ∀ j, j < w → r.getLsbD j =
    if j < pos then old.getLsbD j
    else if j < pos + len then d.getLsbD (j - pos)
    else match fill with
      | .keep => old.getLsbD j
      | .se => d.getLsbD (len - 1)
      | .zf => false

/-- `c` counts the bits equal to `one` from the top of `v` down to the first that is not. -/
def CountsLeading {w : Nat} (v : BitVec w) (one : Bool) (c : Nat) : Prop :=
  c ≤ w ∧ (∀ j, w - c ≤ j → j < w → v.getLsbD j = one) ∧ (c < w → v.getLsbD (w - 1 - c) = !one)

/-! ## Runs -/

/-- The line counter has not passed the end of the program, and every line it has passed is an instruction line. -/
def PassedLinesWellFormed (s : State) : Prop :=
  s.lc ≤ s.program.length ∧ ∀ n t, n < s.lc → s.program[n]? = some t → ∃ l, decodeLine t = .ok l ∧ l.wf = true

/-- The line may change a compute block: one of its slots executes in it. -/
def lineRuns (side : Side) : Line → Bool
  | .issue _ slots => slots.any fun sl => sl.instr.runs side
  | .flagLoad _ _ _ _ => false

/-- No line of the program executes in the given compute block. -/
def ProgramAvoids (side : Side) (s : State) : Prop :=
  ∀ t l, t ∈ s.program → decodeLine t = .ok l → lineRuns side l = false

end Sys2Proof.Safety
end

