-- ==== Sys2Proof/Certificates/Slice0/Obligations.lean ====
section
/-! DEFINITION. The statements for the provers. Each docstring names the rules it comes from and, where it rests on the model's
own choice, the assumption log entry. -/

open Sys2Proof Sys2Proof.Machine Sys2Proof.Safety

/-! ## Text: decoding and encoding -/

/-- Decoding the text of a well-formed line gives the line back: no part of R63's forms, of R250's conditions or of R258's
flag load is lost in spelling. How text is spelled where the source leaves it open is the model's choice (log 7). -/
def Obligations.DecodeReadsEveryEncodedLine : Prop :=
  ∀ l : Line, l.wf = true → decodeLine (encodeLine l) = .ok l

/-- The same for an instruction read from the bits of its text (log 9). -/
def Obligations.TableWordReadsEveryEncodedInstr : Prop :=
  ∀ i : Instr, i.wf = true → decodeTableWord (8 * (encode i).length) (textWord (encode i)) = some i

/-- Nothing ill-formed is ever decoded (R64, D16). What well-formed means is said in the next two statements. -/
def Obligations.DecodedLinesAreWellFormed : Prop :=
  ∀ t l, decodeLine t = .ok l → l.wf = true

/-- R15, R58, R59, R64: the well-formed instructions are those whose fields are in the ranges the spec gives, each dual register
starting at an even number and each quad register at a multiple of four (D5, log 24), each magnitude signed (D9, log 23). -/
def Obligations.WellFormedInstrsAreInRange : Prop := ∀ i : Instr, i.wf = true ↔ FieldsInRange i

/-- R51, R250, R257, R292, R293: the well-formed lines are those whose slots may stand together and are well formed. The number of
slots and one shifter instruction per block rest on log 31, the scope of SF0 and SF1 on D25 (log 11). -/
def Obligations.WellFormedLinesAreInRange : Prop := ∀ l : Line, l.wf = true ↔ LineInRange l

/-- Texts of the source and of the spec decode to the instructions they stand for (95_test_vectors.md 1, R63). The letter case of
`By` is log 7, BITEST of a pair by a single register conflict C7 and the condition before a comma, read as a line of one `DO` slot,
conflict C8 (both log 33). -/
def Obligations.SpecTextsDecode : Prop :=
  decodeLine (txt "XR5 = LSHIFT R4 BY R3;;") = .ok (.single (.lshiftNr .x 5 4 3)) ∧
  decodeLine (txt "R1:0 = ROT R3:2 BY 8;;") = .ok (.single (.rotDni .xy 0 2 8)) ∧
  decodeLine (txt "XBITEST R1:0 BY R7;;") = .ok (.single (.bitestLr .x 0 7)) ∧
  decodeLine (txt "XR5 = FEXT R4 By R3 (SE) ;;") = .ok (.single (.fextNr .x 5 4 3 true)) ∧
  decodeLine (txt "XR5:4 += PUTBITS R3:2 BY R7:6 ;;") = .ok (.single (.putbits .x 4 2 6)) ∧
  decodeLine (txt "IF SF0, XR5 = LSHIFT R4 BY R3 ;;") =
    .ok (.issue (some (.static .scf0)) [⟨true, .lshiftNr .x 5 4 3⟩])

/-- R6: a text means the same in either letter case (which the spec derives from the source's spellings; log 7). -/
def Obligations.LetterCaseHasNoEffect : Prop :=
  ∀ t : Text, decodeLine (t.map upper) = decodeLine t

/-- A comment has no effect but that of a blank. R52 says so of a comment after an instruction or a line; that one may stand at any
place, where it separates words as a blank does, is the model's choice (log 7). -/
def Obligations.CommentsHaveNoEffect : Prop :=
  ∀ (before body after : Text) (ts : List Token), lex before = .ok ts →
    (∀ u v, body ≠ u ++ txt "*/" ++ v) →
    decodeLine (before ++ txt "/*" ++ body ++ txt "*/" ++ after) = decodeLine (before ++ txt " " ++ after)

/-! ## Steps and lines -/

/-- A step runs the decoded instruction, then goes on to the next line (R25, R251; the line counter is the spec's
decision D3). -/
def Obligations.StepRunsTheDecodedInstr : Prop :=
  ∀ (σ : State) (t : Text) (i : Instr), σ.fetch = some t → decodeLine t = .ok (.single i) →
    step σ = match exec i σ with
      | .next u => .next { u with lc := σ.lc + 1 }
      | .fault f => .fault f
      | .refused r => .refused r

/-- The word the host places is the instruction the next step runs (log 8 and 9). -/
def Obligations.FetchWordIsRunNext : Prop :=
  ∀ (σ u : State) (nbits w : Nat) (i : Instr), decodeTableWord nbits w = some i →
    exec i (σ.withFetchWord nbits w) = .next u →
    step (σ.withFetchWord nbits w) = .next { u with lc := σ.lc + 1 }

/-- R251, R45: where every slot that executes is in its domain, each acts on the state before the line, in its own blocks; a block
no executing slot runs in is unchanged; the line counter moves on by one. A slot executes if it has no `DO` or the condition is
true (D15, D29). -/
def Obligations.LineExecutesItsSlotsOnTheStateBeforeIt : Prop :=
  ∀ (σ : State) (t : Text) (cond : Option Cond) (slots : List Slot), σ.fetch = some t →
    decodeLine t = .ok (.issue cond slots) → LineInDomain (.issue cond slots) σ →
    ∃ u, step σ = .next u ∧ u.lc = σ.lc + 1 ∧ u.program = σ.program ∧ u.flags = σ.flags ∧
      ∀ side,
        (∀ sl v, sl ∈ slots → Executes cond slots σ sl → sl.instr.runs side = true →
          exec sl.instr σ = .next v → u.block side = v.block side) ∧
        ((∀ sl, sl ∈ slots → Executes cond slots σ sl → sl.instr.runs side = false) → u.block side = σ.block side)

/-- R251 with D29: a line all of whose slots are controlled by a false condition changes nothing but the line counter. -/
def Obligations.FalseConditionHasNoEffect : Prop :=
  ∀ (σ : State) (t : Text) (cond : Option Cond) (slots : List Slot), σ.fetch = some t →
    decodeLine t = .ok (.issue cond slots) → (∀ sl, sl ∈ slots → sl.controlled = true) →
    condValue cond slots σ = false → step σ = .next { σ with lc := σ.lc + 1 }

/-- R45: the two slots of a line may be written in either order, and one after the other they do the same. -/
def Obligations.SlotOrderHasNoEffect : Prop :=
  ∀ (a b : Instr) (cond : Option Cond) (ca cb : Bool) (σ : State), (Line.issue cond [⟨ca, a⟩, ⟨cb, b⟩]).wf = true →
    runLine (.issue cond [⟨ca, a⟩, ⟨cb, b⟩]) σ = runLine (.issue cond [⟨cb, b⟩, ⟨ca, a⟩]) σ ∧
    ∀ t u, condValue cond [⟨ca, a⟩, ⟨cb, b⟩] σ = true → exec a σ = .next t → exec b t = .next u →
      runLine (.issue cond [⟨ca, a⟩, ⟨cb, b⟩]) σ = .next { u with lc := σ.lc + 1 }

/-- R25, R277: past the last line the run is over (D27; the fault is the model's, log 8). -/
def Obligations.StepPastTheLastLineEnds : Prop :=
  ∀ σ : State, σ.program.length ≤ σ.lc → step σ = .fault .programEnd

/-- R64: a text that is no well-formed line is refused and never executes (D16). That it is refused when the line counter reaches it,
and not with the whole program before the run, is the model's choice (log 34). -/
def Obligations.StepRefusesWhatIsNoLine : Prop :=
  ∀ (σ : State) (t : Text) (e : DecodeError), σ.fetch = some t → decodeLine t = .error e →
    step σ = .refused (.notALine e)

/-- R270: every well-formed line completes, whatever the data, where each instruction that executes is in its domain, and the model
stops with the fault of `OUT_OF_DOMAIN` where one is not (00_scope.md 4.3, D14; that it stops the whole line is log 6). For
registers never written this rests on log 4. -/
def Obligations.EveryDecodedLineCompletes : Prop :=
  ∀ (σ : State) (t : Text) (l : Line), σ.fetch = some t → decodeLine t = .ok l →
    (LineInDomain l σ → ∃ u, step σ = .next u) ∧ (¬ LineInDomain l σ → step σ = .fault .outOfDomain)

/-- R25, R47, R260: every step goes on to the next line, and none changes the program (D1, D3). -/
def Obligations.EveryStepAdvancesOneLine : Prop :=
  ∀ σ u : State, step σ = .next u → u.lc = σ.lc + 1 ∧ u.program = σ.program ∧ σ.lc < σ.program.length

/-- Every step keeps: the line counter has not passed the end, and every line it has passed is well formed (R25, R64, R291).
That it says nothing of the lines ahead is because a line is checked when it is reached (log 34). -/
def Obligations.StepKeepsPassedLinesWellFormed : Prop :=
  ∀ σ u : State, PassedLinesWellFormed σ → step σ = .next u → PassedLinesWellFormed u

/-- The invariant holds after reset, and whenever a program is loaded (R291). -/
def Obligations.ResetAndLoadMeetPassedLinesWellFormed : Prop :=
  PassedLinesWellFormed State.reset ∧ ∀ (σ : State) (p : List Text), PassedLinesWellFormed (σ.load p)

/-- R10, R29: a program none of whose lines executes in a compute block never changes that block, for as long as it runs. -/
def Obligations.ProgramLeavesAvoidedBlockAlone : Prop :=
  ∀ (side : Side) (σ u : State), ProgramAvoids side σ → step σ = .next u →
    u.block side = σ.block side ∧ ProgramAvoids side u

/-! ## Conditions and static flags -/

/-- R252, R253, R254: what SEQ, SLT and NSEQ test, in either block. -/
def Obligations.SeqSltNseqTestTheFlags : Prop :=
  ∀ (side sf : Side) (σ : State),
    (condHolds (.flag side .seq) sf σ = true ↔ (σ.block side).sz = true) ∧
    (condHolds (.flag side .slt) sf σ = true ↔ (σ.block side).sn = true ∧ (σ.block side).sz = false) ∧
    (condHolds (.flag side .nseq) sf σ = true ↔ (σ.block side).sz = false)

/-- R255, by the spec's decision D24 (90_conflicts.md C4; log 20): NSLT is the complement of SLT. -/
def Obligations.NsltIsTheComplementOfSlt : Prop :=
  ∀ (side sf : Side) (σ : State),
    condHolds (.flag side .nslt) sf σ = true ↔ (σ.block side).sn = false ∨ (σ.block side).sz = true

/-- R257, R258: a flag load takes the condition on the state before its line into the one flag it names, and changes nothing else;
SF0 and SF1 then test that flag. The general form is the spec's derivation (log 11). -/
def Obligations.StaticFlagLoadIsWhatSfTests : Prop :=
  ∀ (σ : State) (t : Text) (dst src : Side) (f : StaticFlag) (c : FlagCond), σ.fetch = some t →
    decodeLine t = .ok (.flagLoad dst f src c) →
    ∃ u, step σ = .next u ∧ u.x = σ.x ∧ u.y = σ.y ∧ u.program = σ.program ∧ u.lc = σ.lc + 1 ∧
      (∀ sd g, condHolds (.static g) sd u =
        if sd = dst ∧ g = f then condHolds (.flag src c) sd σ else condHolds (.static g) sd σ)

/-- R257: in a well-formed line whose condition is SF0 or SF1 the condition is that static flag of the one block all its controlled
instructions execute in. That other lines are ill-formed is D25 (log 11). -/
def Obligations.StaticConditionIsOfTheControlledBlock : Prop :=
  ∀ (g : StaticFlag) (slots : List Slot) (side : Side) (σ : State),
    (Line.issue (some (.static g)) slots).wf = true →
    (∀ sl, sl ∈ slots → sl.controlled = true → sl.instr.runs side = true) →
    condValue (some (.static g)) slots σ = σ.flags.get side g

/-! ## What instructions may change at all -/

/-- R270: every instruction completes from every state in its domain; outside it, which only FEXT, FDEP and GETBITS have, the model
stops with the fault of `OUT_OF_DOMAIN` (R181, R232, D14; log 6). -/
def Obligations.EveryInstrCompletesInItsDomain : Prop :=
  ∀ (i : Instr) (σ : State),
    (InDomain i σ → ∃ t, exec i σ = .next t) ∧ (¬ InDomain i σ → exec i σ = .fault .outOfDomain)

/-- R29, R30: an instruction changes only the blocks it executes in; no other block, static flag, line of the program or the line
counter. -/
def Obligations.InstrChangesOnlyItsBlocks : Prop :=
  ∀ (i : Instr) (σ t : State), exec i σ = .next t →
    (∀ side, i.runs side = false → t.block side = σ.block side) ∧
    t.flags = σ.flags ∧ t.program = σ.program ∧ t.lc = σ.lc

/-- R29: what an instruction does in a block depends on that block alone; the other block and the rest of the machine cannot be
told from it. A block's draws count as part of it (log 5). -/
def Obligations.BlockEffectDependsOnThatBlockAlone : Prop :=
  ∀ (i : Instr) (side : Side) (σ σ' t t' : State), σ.block side = σ'.block side → exec i σ = .next t →
    exec i σ' = .next t' → t.block side = t'.block side

/-- R19: BF1-0 is changed by BKFPT and by the loads of STAT only, and a load changes it to the bits it covers, which are all for
`STAT = Rm` (R196) and those below bit 14 for `STATL = Rm` (R197). The positions are open (log 2). -/
def Obligations.OnlyBkfptAndStatLoadsChangeBf : Prop :=
  ∀ (i : Instr) (σ t : State) (side : Side), exec i σ = .next t → i.runs side = true →
    match i with
    | .bkfpt _ _ _ => True
    | .statLoad _ m => (t.block side).bf = ((σ.block side).reg m).extractLsb' Config.bfLsb 2
    | .statlLoad _ m => ∀ j, j < 2 → (t.block side).bf.getLsbD j =
        if Config.bfLsb + j < 14 then ((σ.block side).reg m).getLsbD (Config.bfLsb + j) else (σ.block side).bf.getLsbD j
    | _ => (t.block side).bf = (σ.block side).bf

/-- R16, R22: the bits of STAT that are not the shifter's, AN among them, change by the loads of STAT only. The positions are
open (log 2). -/
def Obligations.OnlyStatLoadsChangeOtherStatBits : Prop :=
  ∀ (i : Instr) (σ t : State) (side : Side) (j : Nat), exec i σ = .next t →
    (∀ sd m, i ≠ .statLoad sd m) → (∀ sd m, i ≠ .statlLoad sd m) →
    j ≠ Config.szBit → j ≠ Config.snBit → j ≠ Config.bfLsb → j ≠ Config.bfLsb + 1 →
    (t.block side).stat.getLsbD j = (σ.block side).stat.getLsbD j

/-- R23, by 90_conflicts.md C14 and D33 (log 22): only PUTBITS and `BFOTMP = Rmd` write BFOTMP. -/
def Obligations.OnlyPutbitsAndLoadChangeBfotmp : Prop :=
  ∀ (i : Instr) (σ t : State) (side : Side), exec i σ = .next t →
    (∀ blk s m n, i ≠ .putbits blk s m n) → (∀ blk m, i ≠ .bfotmpLoad blk m) →
    (t.block side).bfotmp = (σ.block side).bfotmp

/-! ## Registers, reset, layout -/

/-- R12: the higher-numbered register is the more significant half of a dual register, read and written. -/
def Obligations.DualRegisterHalves : Prop :=
  ∀ (b : Block) (i r : Reg) (v : LongWord),
    (b.dual i).toNat = (b.reg (i + 1)).toNat * 2 ^ 32 + (b.reg i).toNat ∧
    ((b.setDual i v).reg (i + 1)).toNat = v.toNat / 2 ^ 32 ∧
    ((b.setDual i v).reg i).toNat = v.toNat % 2 ^ 32 ∧
    (r ≠ i → r ≠ i + 1 → (b.setDual i v).reg r = b.reg r)

/-- R13 (which the spec derives from R12 and R231): bit `k` of a quad register is bit `k mod 32` of its register `k / 32`. -/
def Obligations.QuadRegisterBits : Prop :=
  ∀ (b : Block) (i r : Reg) (k : Nat), k < 128 → r.val = (i.val + k / 32) % Config.nreg →
    (b.quad i).getLsbD k = (b.reg r).getLsbD (k % 32)

/-- After reset the line counter is 0 (R25, R27) and no program is loaded (log 8); every other value is the model's: STAT and the
static flags (log 3), the registers and BFOTMP (log 4). -/
def Obligations.ResetValues : Prop :=
  State.reset.lc = 0 ∧ State.reset.program = [] ∧
  (∀ side r, (State.reset.block side).reg r = 0#32 ∧ (State.reset.block side).stat = 0#32 ∧
    (State.reset.block side).bfotmp = 0#64) ∧
  State.reset.flags = ⟨false, false, false, false⟩

/-- D18, D4: whatever the open layout is, the flag positions are distinct bits of STAT, and the open number of registers is at
least 18 (log 1 and 2). -/
def Obligations.LayoutMeetsTheSpecsBounds : Prop :=
  [Config.szBit, Config.snBit, Config.bfLsb, Config.bfLsb + 1, Config.anBit].Nodup ∧
  (∀ p ∈ [Config.szBit, Config.snBit, Config.bfLsb, Config.bfLsb + 1, Config.anBit], p < 32) ∧ 18 ≤ Config.nreg

/-! ## Shift and rotate -/

/-- R101: the logical shift of one element of any width: left with zero fill when positive, right with zero fill when negative. -/
def Obligations.LogicalShiftOfOneElement : Prop :=
  ∀ (E : Nat) (v : BitVec E) (k : Int) (j : Nat), j < E →
    (lsh v k).getLsbD j =
      if 0 ≤ k then decide (k ≤ j) && v.getLsbD (j - k.toNat) else v.getLsbD (j + (-k).toNat)

/-- R104 (derived there; D28, log 28): a shift by the element width or more gives zeros, or copies of the sign bit, as the
arithmetic shift of R102 does, which is from general knowledge (U3, log 13). -/
def Obligations.OffScaleShifts : Prop :=
  ∀ (E : Nat) (v : BitVec E) (k : Int),
    ((E : Int) ≤ k → lsh v k = 0#E ∧ ash v k = 0#E) ∧
    (k ≤ -(E : Int) → lsh v k = 0#E ∧ ash v k = if v.msb then BitVec.allOnes E else 0#E)

/-- R105 to R110: LSHIFT in one register, on a normal word, four bytes or two shorts, by the low bits of Rn or an immediate; the
magnitude is two's complement by R57 and R58 (log 13 and 23), 5 bits for bytes by conflict C1 (log 17); SN by R18 (log 13);
off-scale results by D28 (log 28). -/
def Obligations.LshiftInOneRegister : Prop :=
  ∀ (blk : Blk) (s m n : Reg) (imm : Int) (σ : State),
    Does (.lshiftNr blk s m n) σ (ShiftsReg lshBit 32 1 s m fun b => ((b.reg n).setWidth 7).toInt) ∧
    Does (.lshiftNi blk s m imm) σ (ShiftsReg lshBit 32 1 s m fun _ => imm) ∧
    Does (.lshiftBr blk s m n) σ (ShiftsReg lshBit 8 4 s m fun b => ((b.reg n).setWidth 5).toInt) ∧
    Does (.lshiftBi blk s m imm) σ (ShiftsReg lshBit 8 4 s m fun _ => imm) ∧
    Does (.lshiftSr blk s m n) σ (ShiftsReg lshBit 16 2 s m fun b => ((b.reg n).setWidth 6).toInt) ∧
    Does (.lshiftSi blk s m imm) σ (ShiftsReg lshBit 16 2 s m fun _ => imm)

/-- R111 to R118: LSHIFT in a dual register, on two normal words, eight bytes, four shorts or a long word. Magnitudes and SN: log 13
and 23; bytes by 5 bits: conflict C1 (log 17); off-scale results: D28 (log 28). -/
def Obligations.LshiftInADualRegister : Prop :=
  ∀ (blk : Blk) (s m n : Reg) (imm : Int) (σ : State),
    Does (.lshiftDnr blk s m n) σ (ShiftsDual lshBit 32 2 s m fun b => ((b.reg n).setWidth 7).toInt) ∧
    Does (.lshiftDni blk s m imm) σ (ShiftsDual lshBit 32 2 s m fun _ => imm) ∧
    Does (.lshiftDbr blk s m n) σ (ShiftsDual lshBit 8 8 s m fun b => ((b.reg n).setWidth 5).toInt) ∧
    Does (.lshiftDbi blk s m imm) σ (ShiftsDual lshBit 8 8 s m fun _ => imm) ∧
    Does (.lshiftDsr blk s m n) σ (ShiftsDual lshBit 16 4 s m fun b => ((b.reg n).setWidth 6).toInt) ∧
    Does (.lshiftDsi blk s m imm) σ (ShiftsDual lshBit 16 4 s m fun _ => imm) ∧
    Does (.lshiftLr blk s m n) σ (ShiftsDual lshBit 64 1 s m fun b => ((b.reg n).setWidth 8).toInt) ∧
    Does (.lshiftLi blk s m imm) σ (ShiftsDual lshBit 64 1 s m fun _ => imm)

/-- R119 to R124: ASHIFT in one register; its arithmetic is U3's, from general knowledge, as are the sign of magnitudes and SN
(log 13, 23); bytes by 5 bits: conflict C1 (log 17); off-scale results: D28 (log 28). -/
def Obligations.AshiftInOneRegister : Prop :=
  ∀ (blk : Blk) (s m n : Reg) (imm : Int) (σ : State),
    Does (.ashiftNr blk s m n) σ (ShiftsReg ashBit 32 1 s m fun b => ((b.reg n).setWidth 7).toInt) ∧
    Does (.ashiftNi blk s m imm) σ (ShiftsReg ashBit 32 1 s m fun _ => imm) ∧
    Does (.ashiftBr blk s m n) σ (ShiftsReg ashBit 8 4 s m fun b => ((b.reg n).setWidth 5).toInt) ∧
    Does (.ashiftBi blk s m imm) σ (ShiftsReg ashBit 8 4 s m fun _ => imm) ∧
    Does (.ashiftSr blk s m n) σ (ShiftsReg ashBit 16 2 s m fun b => ((b.reg n).setWidth 6).toInt) ∧
    Does (.ashiftSi blk s m imm) σ (ShiftsReg ashBit 16 2 s m fun _ => imm)

/-- R125 to R132: ASHIFT in a dual register; arithmetic, magnitudes and SN: log 13 and 23; bytes by 5 bits: conflict C1 (log 17);
off-scale results: D28 (log 28). -/
def Obligations.AshiftInADualRegister : Prop :=
  ∀ (blk : Blk) (s m n : Reg) (imm : Int) (σ : State),
    Does (.ashiftDnr blk s m n) σ (ShiftsDual ashBit 32 2 s m fun b => ((b.reg n).setWidth 7).toInt) ∧
    Does (.ashiftDni blk s m imm) σ (ShiftsDual ashBit 32 2 s m fun _ => imm) ∧
    Does (.ashiftDbr blk s m n) σ (ShiftsDual ashBit 8 8 s m fun b => ((b.reg n).setWidth 5).toInt) ∧
    Does (.ashiftDbi blk s m imm) σ (ShiftsDual ashBit 8 8 s m fun _ => imm) ∧
    Does (.ashiftDsr blk s m n) σ (ShiftsDual ashBit 16 4 s m fun b => ((b.reg n).setWidth 6).toInt) ∧
    Does (.ashiftDsi blk s m imm) σ (ShiftsDual ashBit 16 4 s m fun _ => imm) ∧
    Does (.ashiftLr blk s m n) σ (ShiftsDual ashBit 64 1 s m fun b => ((b.reg n).setWidth 8).toInt) ∧
    Does (.ashiftLi blk s m imm) σ (ShiftsDual ashBit 64 1 s m fun _ => imm)

/-- R133 to R138: ROT on a normal word, each of two normal words, or a long word; direction and modulus by D10, the magnitude in the
lower register of a dual control by D23 (log 14); its sign and SN are log 13, the signed immediates D9 (log 23). -/
def Obligations.RotRotates : Prop :=
  ∀ (blk : Blk) (s m n : Reg) (imm : Int) (σ : State),
    Does (.rotNr blk s m n) σ (ShiftsReg rotBit 32 1 s m fun b => ((b.reg n).setWidth 7).toInt) ∧
    Does (.rotNi blk s m imm) σ (ShiftsReg rotBit 32 1 s m fun _ => imm) ∧
    Does (.rotDnr blk s m n) σ (ShiftsDual rotBit 32 2 s m fun b => ((b.reg n).setWidth 7).toInt) ∧
    Does (.rotDni blk s m imm) σ (ShiftsDual rotBit 32 2 s m fun _ => imm) ∧
    Does (.rotLr blk s m n) σ (ShiftsDual rotBit 64 1 s m fun b => ((b.reg n).setWidth 8).toInt) ∧
    Does (.rotLi blk s m imm) σ (ShiftsDual rotBit 64 1 s m fun _ => imm)

/-! ## Bit manipulation -/

/-- R152, R153, R156, R157, R160, R161: BCLR, BSET and BTGL on a normal word change one bit; the bit number is Rn modulo 32 by
D11 (log 15), SN the top bit of the result by R18 (log 13). -/
def Obligations.BitOpsOnANormalWord : Prop :=
  ∀ (blk : Blk) (s m n : Reg) (imm : Nat) (σ : State),
    Does (.bclrNr blk s m n) σ
      (WritesReg s fun b r => OneBitChanged (fun _ => false) (b.reg m) ((b.reg n).toNat % 32) r) ∧
    Does (.bclrNi blk s m imm) σ (WritesReg s fun b r => OneBitChanged (fun _ => false) (b.reg m) imm r) ∧
    Does (.bsetNr blk s m n) σ
      (WritesReg s fun b r => OneBitChanged (fun _ => true) (b.reg m) ((b.reg n).toNat % 32) r) ∧
    Does (.bsetNi blk s m imm) σ (WritesReg s fun b r => OneBitChanged (fun _ => true) (b.reg m) imm r) ∧
    Does (.btglNr blk s m n) σ (WritesReg s fun b r => OneBitChanged not (b.reg m) ((b.reg n).toNat % 32) r) ∧
    Does (.btglNi blk s m imm) σ (WritesReg s fun b r => OneBitChanged not (b.reg m) imm r)

/-- R154, R155, R158, R159, R162, R163: the same on a long word; the bit number is Rn modulo 64 by D11
(log 15), the flags those of one 64-bit result by D32 (log 21), SN its top bit (log 13). -/
def Obligations.BitOpsOnALongWord : Prop :=
  ∀ (blk : Blk) (s m n : Reg) (imm : Nat) (σ : State),
    Does (.bclrLr blk s m n) σ
      (WritesDual s fun b r => OneBitChanged (fun _ => false) (b.dual m) ((b.reg n).toNat % 64) r) ∧
    Does (.bclrLi blk s m imm) σ (WritesDual s fun b r => OneBitChanged (fun _ => false) (b.dual m) imm r) ∧
    Does (.bsetLr blk s m n) σ
      (WritesDual s fun b r => OneBitChanged (fun _ => true) (b.dual m) ((b.reg n).toNat % 64) r) ∧
    Does (.bsetLi blk s m imm) σ (WritesDual s fun b r => OneBitChanged (fun _ => true) (b.dual m) imm r) ∧
    Does (.btglLr blk s m n) σ (WritesDual s fun b r => OneBitChanged not (b.dual m) ((b.reg n).toNat % 64) r) ∧
    Does (.btglLi blk s m imm) σ (WritesDual s fun b r => OneBitChanged not (b.dual m) imm r)

/-- R164 to R167: BITEST sets SZ exactly when the tested bit is 0 and writes no register. The bit number is Rn modulo 32 or 64 by
D11 (log 15). SN is a draw (R31, D19; log 26): nothing is said of it. -/
def Obligations.BitestTestsOneBit : Prop :=
  ∀ (blk : Blk) (m n : Reg) (imm : Nat) (σ : State),
    Does (.bitestNr blk m n) σ (fun b b' =>
      b'.sz = !(b.reg m).getLsbD ((b.reg n).toNat % 32) ∧ OnlyRegsAndFlags [] b b') ∧
    Does (.bitestNi blk m imm) σ (fun b b' => b'.sz = !(b.reg m).getLsbD imm ∧ OnlyRegsAndFlags [] b b') ∧
    Does (.bitestLr blk m n) σ (fun b b' =>
      b'.sz = !(b.dual m).getLsbD ((b.reg n).toNat % 64) ∧ OnlyRegsAndFlags [] b b') ∧
    Does (.bitestLi blk m imm) σ (fun b b' => b'.sz = !(b.dual m).getLsbD imm ∧ OnlyRegsAndFlags [] b b')

/-- The corner cases of R156 to R163 (derived there from R151), for a normal and a long word and for both controls: a BSET of a bit
inside the operand never sets SZ, and toggling the same bit of a result again restores the operand. Which bit a register names is
D11 (log 15), one result of a long word D32 (log 21). -/
def Obligations.SetIsNeverZeroAndToggleTwiceRestores : Prop :=
  ∀ (blk : Blk) (side : Side) (s s' m n n' : Reg) (imm : Nat) (σ t u : State), blk.runs side = true →
    (exec (.bsetNr blk s m n) σ = .next t → (t.block side).sz = false) ∧
    (imm < 32 → exec (.bsetNi blk s m imm) σ = .next t → (t.block side).sz = false) ∧
    (exec (.bsetLr blk s m n) σ = .next t → (t.block side).sz = false) ∧
    (imm < 64 → exec (.bsetLi blk s m imm) σ = .next t → (t.block side).sz = false) ∧
    (exec (.btglNr blk s m n) σ = .next t → exec (.btglNr blk s' s n') t = .next u →
      ((t.block side).reg n').toNat % 32 = ((σ.block side).reg n).toNat % 32 →
      (u.block side).reg s' = (σ.block side).reg m) ∧
    (exec (.btglNi blk s m imm) σ = .next t → exec (.btglNi blk s' s imm) t = .next u →
      (u.block side).reg s' = (σ.block side).reg m) ∧
    (exec (.btglLr blk s m n) σ = .next t → exec (.btglLr blk s' s n') t = .next u →
      ((t.block side).reg n').toNat % 64 = ((σ.block side).reg n).toNat % 64 →
      (u.block side).dual s' = (σ.block side).dual m) ∧
    (exec (.btglLi blk s m imm) σ = .next t → exec (.btglLi blk s' s imm) t = .next u →
      (u.block side).dual s' = (σ.block side).dual m)

/-! ## Bit fields -/

/-- R184 to R187: FEXT. Where the control fields name a field inside the operand (R181, `Domain`) the result is that field, extended
by the option, and the flags are the result's, SN its top bit (R18, log 13); elsewhere the instruction is out of its domain and
the model stops (D14; log 6). -/
def Obligations.FextExtractsTheField : Prop :=
  ∀ (blk : Blk) (s m n : Reg) (se : Bool) (σ : State),
    DoesInDomain (.fextNr blk s m n se) σ (WritesReg s fun b r =>
      IsField (b.reg m) ((b.reg n).toNat / 256 % 256) ((b.reg n).toNat % 128) se r) ∧
    DoesInDomain (.fextNd blk s m n se) σ (WritesReg s fun b r =>
      IsField (b.reg m) ((b.reg (n + 1)).toNat % 256) ((b.reg n).toNat % 128) se r) ∧
    DoesInDomain (.fextLr blk s m n se) σ (WritesDual s fun b r =>
      IsField (b.dual m) ((b.reg n).toNat / 256 % 256) ((b.reg n).toNat % 128) se r) ∧
    DoesInDomain (.fextLd blk s m n se) σ (WritesDual s fun b r =>
      IsField (b.dual m) ((b.reg (n + 1)).toNat % 256) ((b.reg n).toNat % 128) se r)

/-- R188 to R191: FDEP, with the same domain (D14; log 6); what `(ZF)` clears by 90_conflicts.md C3 (log 19), SN the top bit of the
result (R18, log 13). -/
def Obligations.FdepDepositsTheField : Prop :=
  ∀ (blk : Blk) (s m n : Reg) (fill : Fill) (σ : State),
    DoesInDomain (.fdepNr blk s m n fill) σ (WritesReg s fun b r =>
      IsDeposit (b.reg s) (b.reg m) ((b.reg n).toNat / 256 % 256) ((b.reg n).toNat % 128) fill r) ∧
    DoesInDomain (.fdepNd blk s m n fill) σ (WritesReg s fun b r =>
      IsDeposit (b.reg s) (b.reg m) ((b.reg (n + 1)).toNat % 256) ((b.reg n).toNat % 128) fill r) ∧
    DoesInDomain (.fdepLr blk s m n fill) σ (WritesDual s fun b r =>
      IsDeposit (b.dual s) (b.dual m) ((b.reg n).toNat / 256 % 256) ((b.reg n).toNat % 128) fill r) ∧
    DoesInDomain (.fdepLd blk s m n fill) σ (WritesDual s fun b r =>
      IsDeposit (b.dual s) (b.dual m) ((b.reg (n + 1)).toNat % 256) ((b.reg n).toNat % 128) fill r)

/-- R182: `(SE)` copies the top bit of the placed field, at bit `t`, to every bit above it and changes nothing at or below it: `t` is
`len-1` for an extraction (FEXT, GETBITS) and `pos+len-1` for a deposit. -/
def Obligations.SignExtendOptionExtendsTheTopBit : Prop :=
  ∀ (v w pos len j : Nat) (d : BitVec v) (old e : BitVec w), 1 ≤ len → j < w →
    (extractField w d pos len true).getLsbD j =
      (extractField w d pos len false).getLsbD (if j ≤ len - 1 then j else len - 1) ∧
    (pos + len ≤ w → (depositField old e pos len .se).getLsbD j =
      (depositField old e pos len .keep).getLsbD (if j ≤ pos + len - 1 then j else pos + len - 1))

/-- R183: `(ZF)` clears every bit above the deposited field's top bit and changes nothing at or below it. -/
def Obligations.ZeroFillOptionClearsAboveTheField : Prop :=
  ∀ (w pos len j : Nat) (old d : BitVec w), 1 ≤ len → pos + len ≤ w → j < w →
    (depositField old d pos len .zf).getLsbD j =
      (decide (j ≤ pos + len - 1) && (depositField old d pos len .keep).getLsbD j)

/-- R193, R194: MASK takes the data bit where the mask is 1 and keeps the old bit where it is 0, by D12 (90_conflicts.md C5; log 16); SN is
the top bit of the result (R18, log 13). -/
def Obligations.MaskCopiesUnderTheMask : Prop :=
  ∀ (blk : Blk) (s m n : Reg) (σ : State),
    Does (.maskN blk s m n) σ (WritesReg s fun b r => ∀ j, j < 32 →
      r.getLsbD j = if (b.reg n).getLsbD j then (b.reg m).getLsbD j else (b.reg s).getLsbD j) ∧
    Does (.maskL blk s m n) σ (WritesDual s fun b r => ∀ j, j < 64 →
      r.getLsbD j = if (b.dual n).getLsbD j then (b.dual m).getLsbD j else (b.dual s).getLsbD j)

/-! ## STAT moves -/

/-- R196, R197: a load sets all of STAT, or its bits 13 to 0, from Rm, and the loaded flags stand (D19; log 26). STAT is a plain
cell (U11, log 25). -/
def Obligations.StatLoadsFromARegister : Prop :=
  ∀ (side : Side) (m : Reg) (σ : State),
    Does (.statLoad side m) σ (fun b b' => b'.stat = b.reg m ∧ RegsKept [] b b' ∧ b'.bfotmp = b.bfotmp) ∧
    Does (.statlLoad side m) σ (fun b b' =>
      (∀ j, j < 32 → b'.stat.getLsbD j = if j < 14 then (b.reg m).getLsbD j else b.stat.getLsbD j) ∧
      RegsKept [] b b' ∧ b'.bfotmp = b.bfotmp)

/-- R198: the register takes STAT as it was, all 32 bits of a plain cell (U11, log 25); SZ and SN become draws (R31, D19; log 26),
nothing else of the block changes. -/
def Obligations.StatStoresToARegister : Prop :=
  ∀ (side : Side) (s : Reg) (σ : State),
    Does (.statStore side s) σ (fun b b' => b'.reg s = b.stat ∧ OnlyRegsAndFlags [s] b b')

/-! ## Conversion -/

/-- R211 to R214: LD0 and LD1 count the leading zeros or ones of a word or a long word, an all-zero or all-one one giving its width
(R210; D30, log 27). That leading counts from the top bit, and SN, are log 13. -/
def Obligations.LeadingCounts : Prop :=
  ∀ (blk : Blk) (s m : Reg) (σ : State),
    Does (.ld0N blk s m) σ (WritesReg s fun b r => CountsLeading (b.reg m) false r.toNat) ∧
    Does (.ld0L blk s m) σ (WritesReg s fun b r => CountsLeading (b.dual m) false r.toNat) ∧
    Does (.ld1N blk s m) σ (WritesReg s fun b r => CountsLeading (b.reg m) true r.toNat) ∧
    Does (.ld1L blk s m) σ (WritesReg s fun b r => CountsLeading (b.dual m) true r.toNat)

/-- R217, R218: EXP writes the value of its uninterpreted function (D21; log 12) and sets the flags from it, SN from its
top bit (R18, log 13). -/
def Obligations.ExpWritesItsFunction : Prop :=
  ∀ (blk : Blk) (s m : Reg) (σ : State),
    Does (.expN blk s m) σ (WritesReg s fun b r => r = Config.exp32 (b.reg m)) ∧
    Does (.expL blk s m) σ (WritesReg s fun b r => r = Config.exp64 (b.dual m))

/-- R219: BKFPT writes BF1-0 from the old BF1-0 and its operands by an uninterpreted function (D22; log 12), writes no register, and
leaves SZ and SN drawn (R31, D19; log 26). -/
def Obligations.BkfptWritesBf : Prop :=
  ∀ (blk : Blk) (m n : Reg) (σ : State),
    Does (.bkfpt blk m n) σ (fun b b' => b'.bf = Config.bkfpt b.bf (b.dual m) (b.dual n) ∧ RegsKept [] b b' ∧
      b'.bfotmp = b.bfotmp ∧
      ∀ j, j ≠ Config.szBit → j ≠ Config.snBit → j ≠ Config.bfLsb → j ≠ Config.bfLsb + 1 →
        b'.stat.getLsbD j = b.stat.getLsbD j)

/-! ## Bit stream -/

/-- R232: GETBITS takes the field of Len7 bits from bit BFP6 of the quad register up; a length of 0 or above 64 is out of its domain,
and the model stops (D14; log 6). The length is 7 bits by conflict C2 (D13, log 18), the direction the spec's derivation (U16;
log 22), the 64-bit flags D32 (log 21), SN their top bit (log 13). -/
def Obligations.GetbitsExtractsFromTheStream : Prop :=
  ∀ (blk : Blk) (s m n : Reg) (se : Bool) (σ : State),
    DoesInDomain (.getbits blk s m n se) σ (WritesDual s fun b r =>
      IsField (b.quad m) ((b.reg (n + 1)).toNat % 64) ((b.reg n).toNat % 128) se r)

/-- R233: PUTBITS keeps the bits of Rsd below BFP6, puts the low bits of Rmd above them and the rest in the low bits of BFOTMP; the
bits of BFOTMP above are free (D20; log 5), the flags those of the new Rsd (D32; log 21), SN its
top bit (log 13). -/
def Obligations.PutbitsDepositsIntoTheStream : Prop :=
  ∀ (blk : Blk) (s m n : Reg) (σ : State),
    Does (.putbits blk s m n) σ (fun b b' =>
      let bfp := (b.reg (n + 1)).toNat % 64
      (∀ j, j < 64 → (b'.dual s).getLsbD j =
        if j < bfp then (b.dual s).getLsbD j else (b.dual m).getLsbD (j - bfp)) ∧
      (∀ j, j < bfp → b'.bfotmp.getLsbD j = (b.dual m).getLsbD (64 - bfp + j)) ∧
      OneResultFlags (b'.dual s) b' ∧ RegsKept [s, s + 1] b b' ∧ StatKept b b')

/-- R234, R235: the moves between a dual register and BFOTMP; SZ and SN become draws (R31, D19; log 26). -/
def Obligations.BfotmpMoves : Prop :=
  ∀ (blk : Blk) (s m : Reg) (σ : State),
    Does (.bfotmpStore blk s) σ (fun b b' => b'.dual s = b.bfotmp ∧ OnlyRegsAndFlags [s, s + 1] b b') ∧
    Does (.bfotmpLoad blk m) σ (fun b b' => b'.bfotmp = b.dual m ∧ RegsKept [] b b' ∧ StatKept b b')

/-- The corner case of R235 (derived there): what `BFOTMP = Rmd` loads, a following `Rsd = BFOTMP` returns. -/
def Obligations.BfotmpReturnsWhatWasLoaded : Prop :=
  ∀ (blk : Blk) (side : Side) (s m : Reg) (σ t u : State), blk.runs side = true →
    exec (.bfotmpLoad blk m) σ = .next t → exec (.bfotmpStore blk s) t = .next u →
    (u.block side).dual s = (σ.block side).dual m

/-- R247 with D34: the host-level BFOINC step moves BFP6 on by Len7 modulo 64, sets AN on the wrap, and keeps Len7, the other bits of
the pair, the other registers, the rest of STAT, BFOTMP and the other block (log 29). -/
def Obligations.BfoincAdvancesThePointer : Prop :=
  ∀ (side other : Side) (n r : Reg) (σ : State) (j : Nat),
    let b := σ.block side
    let b' := (σ.hostBfoinc side n).block side
    let sum := (b.reg (n + 1)).toNat % 64 + (b.reg n).toNat % 128
    (b'.reg (n + 1)).toNat % 64 = sum % 64 ∧ (b'.reg (n + 1)).toNat / 64 = (b.reg (n + 1)).toNat / 64 ∧
    (r ≠ n + 1 → b'.reg r = b.reg r) ∧ (64 ≤ sum → b'.an = true) ∧
    (j ≠ Config.anBit → b'.stat.getLsbD j = b.stat.getLsbD j) ∧ b'.bfotmp = b.bfotmp ∧
    (other ≠ side → (σ.hostBfoinc side n).block other = σ.block other)
end

