-- ==== Sys2Proof/Laws/Bits.lean ====
section
/-! SUPPORT. What each bit-level operation gives, bit by bit. -/

namespace Sys2Proof.Machine

open Sys2Proof Sys2Proof.Safety

theorem getLsbD_setBit {w : Nat} (v : BitVec w) (i j : Nat) (x : Bool) (hi : i < w) :
    (setBit v i x).getLsbD j = if j = i then x else v.getLsbD j := by
  by_cases hj : j < w
  · cases x <;> simp only [setBit] <;> by_cases h : j = i <;> simp_all <;> omega
  · have hne : j ≠ i := by omega
    simp [hne, BitVec.getLsbD_of_ge _ _ (Nat.le_of_not_lt hj)]

/-! ## Shifts and rotates -/

theorem getLsbD_lsh {E : Nat} (v : BitVec E) (k : Int) (j : Nat) (hj : j < E) :
    (lsh v k).getLsbD j = lshBit E v.getLsbD k j := by
  unfold lsh lshBit
  by_cases hk : 0 ≤ k
  · rw [if_pos hk]
    by_cases h : j < k.toNat
    · have h' : ¬ (0 ≤ (j : Int) - k ∧ (j : Int) - k < E) := by omega
      rw [decide_eq_false h']
      simp [h]
    · have h' : 0 ≤ (j : Int) - k ∧ (j : Int) - k < E := by omega
      have ht : ((j : Int) - k).toNat = j - k.toNat := by omega
      rw [decide_eq_true h', ht]
      simp [h, hj, -BitVec.getLsbD_eq_getElem]
  · rw [if_neg hk]
    have ht : ((j : Int) - k).toNat = (-k).toNat + j := by omega
    by_cases h : (j : Int) - k < E
    · have h' : 0 ≤ (j : Int) - k ∧ (j : Int) - k < E := by omega
      rw [decide_eq_true h', ht]
      simp [-BitVec.getLsbD_eq_getElem]
    · have h' : E ≤ (-k).toNat + j := by omega
      simp [h, BitVec.getLsbD_of_ge _ _ h', -BitVec.getLsbD_eq_getElem]

theorem getLsbD_ash {E : Nat} (v : BitVec E) (k : Int) (j : Nat) (hj : j < E) :
    (ash v k).getLsbD j = ashBit E v.getLsbD k j := by
  unfold ash ashBit
  by_cases hk : 0 ≤ k
  · rw [if_pos hk]
    by_cases h : j < k.toNat
    · have h' : (j : Int) - k < 0 := by omega
      simp [h, h']
    · have h1 : ¬ (j : Int) - k < 0 := by omega
      have h2 : (j : Int) - k < E := by omega
      have ht : ((j : Int) - k).toNat = j - k.toNat := by omega
      rw [if_neg h1, if_pos h2, ht]
      simp [h, hj, -BitVec.getLsbD_eq_getElem]
  · rw [if_neg hk]
    have h1 : ¬ (j : Int) - k < 0 := by omega
    have ht : ((j : Int) - k).toNat = (-k).toNat + j := by omega
    rw [if_neg h1, ht, BitVec.getLsbD_sshiftRight]
    by_cases h : (j : Int) - k < E
    · have h' : (-k).toNat + j < E := by omega
      simp [h, h', Nat.not_le.mpr hj]
    · have h' : ¬ (-k).toNat + j < E := by omega
      simp [h, h', Nat.not_le.mpr hj, BitVec.msb_eq_getLsbD_last]

theorem getLsbD_rot {E : Nat} (v : BitVec E) (k : Int) (j : Nat) (hj : j < E) :
    (rot v k).getLsbD j = rotBit E v.getLsbD k j := by
  unfold rot rotBit
  have hE : (0 : Int) < E := by omega
  have h0 := Int.emod_nonneg k (ne_of_gt hE)
  have h1 := Int.emod_lt_of_pos k hE
  have hr : ((k % (E : Int)).toNat : Int) = k % E := Int.toNat_of_nonneg h0
  have hlt : (k % (E : Int)).toNat < E := by omega
  rw [BitVec.getLsbD_rotateLeft, Nat.mod_eq_of_lt hlt]
  have hmod : ((j : Int) - k) % E = ((j : Int) - k % E) % E := by
    rw [Int.sub_emod, Int.sub_emod (j : Int) (k % E), Int.emod_emod_of_dvd k (dvd_refl _)]
  by_cases h : j < (k % (E : Int)).toNat
  · have : ((j : Int) - k % E) % E = j - k % E + E := by
      rw [← Int.add_emod_right, Int.emod_eq_of_lt (by omega) (by omega)]
    have ht : (((j : Int) - k) % E).toNat = E - (k % (E : Int)).toNat + j := by rw [hmod, this]; omega
    simp [h, ht, -BitVec.getLsbD_eq_getElem]
  · have : ((j : Int) - k % E) % E = j - k % E := Int.emod_eq_of_lt (by omega) (by omega)
    have ht : (((j : Int) - k) % E).toNat = j - (k % (E : Int)).toNat := by rw [hmod, this]; omega
    simp [h, ht, hj, -BitVec.getLsbD_eq_getElem]

/-! ## Lanes -/

theorem getLsbD_lane {w : Nat} (E : Nat) (v : BitVec w) (q j : Nat) :
    (lane E v q).getLsbD j = (decide (j < E) && v.getLsbD (E * q + j)) := by
  simp [lane]

@[simp] theorem length_lanes {w : Nat} (E k : Nat) (v : BitVec w) : (lanes E k v).length = k := by simp [lanes]

@[simp] theorem getElem_lanes {w : Nat} (E k : Nat) (v : BitVec w) (q : Nat) (h : q < (lanes E k v).length) :
    (lanes E k v)[q] = lane E v q := by simp [lanes]

/-- Lane `q` of joined lanes is the `q`-th of them. -/
theorem getLsbD_joinLanes {E : Nat} (w : Nat) (rs : List (BitVec E)) (hw : E * rs.length ≤ w) (q j : Nat)
    (hq : q < rs.length) (hj : j < E) : (joinLanes w rs).getLsbD (E * q + j) = rs[q].getLsbD j := by
  induction rs generalizing q with
  | nil => simp at hq
  | cons r rs ih =>
    have hlen : E * (rs.length + 1) ≤ w := by simpa using hw
    have hwid : E * rs.length + E ≤ w := by rw [← Nat.mul_succ]; exact hlen
    cases q with
    | zero =>
      have : j < w := by
        have : E ≤ w := by omega
        omega
      simp [joinLanes, hj, this]
    | succ q =>
      have hq' : q < rs.length := by simpa using hq
      have e : E * (q + 1) + j = E * q + j + E := by rw [Nat.mul_succ]; omega
      have hlt : E * q + j < E * rs.length := by
        calc E * q + j < E * q + E := by omega
          _ = E * (q + 1) := by rw [Nat.mul_succ]
          _ ≤ E * rs.length := Nat.mul_le_mul_left _ hq'
      have h1 : E * q + j + E < w := by omega
      rw [e]
      simp [joinLanes, h1, ih (by omega) q hq', -BitVec.getLsbD_eq_getElem]

/-! ## Fields -/

theorem getLsbD_extend {len : Nat} (w : Nat) (f : BitVec len) (se : Bool) (j : Nat) (hj : j < w) :
    (extend w f se).getLsbD j = if j < len then f.getLsbD j else (se && f.msb) := by
  cases se
  · by_cases h : j < len
    · simp [extend, h, hj]
    · simp [extend, h, BitVec.getLsbD_of_ge _ _ (Nat.le_of_not_lt h)]
  · simp [extend, BitVec.getLsbD_signExtend, hj, -BitVec.getLsbD_eq_getElem]

theorem msb_extractLsb' {w : Nat} (v : BitVec w) (pos len : Nat) (h : 1 ≤ len) :
    (v.extractLsb' pos len).msb = v.getLsbD (pos + (len - 1)) := by
  have : len - 1 < len := by omega
  simp [BitVec.msb_eq_getLsbD_last, this]

theorem extractField_isField {v : Nat} (w : Nat) (d : BitVec v) (pos len : Nat) (se : Bool) (h : 1 ≤ len) :
    IsField d pos len se (extractField w d pos len se) := by
  intro j hj
  rw [extractField, getLsbD_extend _ _ _ _ hj, msb_extractLsb' _ _ _ h]
  by_cases hl : j < len <;> simp [hl]

theorem depositField_isDeposit {w : Nat} (old d : BitVec w) (pos len : Nat) (fill : Fill) (h : 1 ≤ len) :
    IsDeposit old d pos len fill (depositField old d pos len fill) := by
  intro j hj
  have hf := msb_extractLsb' d 0 len h
  rw [Nat.zero_add] at hf
  by_cases h1 : j < pos
  · cases fill <;> simp [depositField, h1, hj]
    omega
  · by_cases h2 : j < pos + len
    · have h3 : j - pos < len := by omega
      have h4 : j - pos < w := by omega
      cases fill <;> simp [depositField, h1, h2, hj, h3, h4, BitVec.getLsbD_signExtend, -BitVec.getLsbD_eq_getElem]
    · have h3 : ¬ j - pos < len := by omega
      have h4 : j - pos < w := by omega
      cases fill
      · have : pos + len + (j - (pos + len)) = j := by omega
        simp [depositField, h1, h2, hj, h3, this]
      · simp [depositField, h1, h2, hj, h3, h4, BitVec.getLsbD_signExtend, hf, -BitVec.getLsbD_eq_getElem]
      · simp [depositField, h1, h2, hj, h3]

/-! ## Single bits and masks -/

theorem getLsbD_bclr {w : Nat} (v : BitVec w) (b j : Nat) (hj : j < w) :
    (bclr v b).getLsbD j = if j = b then false else v.getLsbD j := by
  by_cases h : j = b <;> simp [bclr, hj, h] <;> omega

theorem getLsbD_bset {w : Nat} (v : BitVec w) (b j : Nat) (hj : j < w) :
    (bset v b).getLsbD j = if j = b then true else v.getLsbD j := by
  by_cases h : j = b
  · subst h; simp [bset, hj]
  · have : b ≤ j → ¬ j - b = 0 := by omega
    simp [bset, hj, h]
    omega

theorem getLsbD_btgl {w : Nat} (v : BitVec w) (b j : Nat) (hj : j < w) :
    (btgl v b).getLsbD j = if j = b then !v.getLsbD j else v.getLsbD j := by
  by_cases h : j = b
  · subst h; simp [btgl, hj]
  · have e : (1#w <<< b).getLsbD j = false := by simp; omega
    rw [btgl, BitVec.getLsbD_xor, e, if_neg h, Bool.xor_false]

theorem getLsbD_maskMerge {w : Nat} (old d k : BitVec w) (j : Nat) (hj : j < w) :
    (maskMerge old d k).getLsbD j = if k.getLsbD j then d.getLsbD j else old.getLsbD j := by
  cases h : k.getLsbD j <;> simp [maskMerge, hj, h, -BitVec.getLsbD_eq_getElem]

/-! ## Counts -/

theorem leadingRun_spec {w : Nat} (v : BitVec w) (one : Bool) (n : Nat) :
    leadingRun v one n ≤ n ∧ (∀ j, n - leadingRun v one n ≤ j → j < n → v.getLsbD j = one) ∧
      (leadingRun v one n < n → v.getLsbD (n - 1 - leadingRun v one n) = !one) := by
  induction n with
  | zero => simp [leadingRun]
  | succ n ih =>
    obtain ⟨h1, h2, h3⟩ := ih
    by_cases h : v.getLsbD n = one
    · have e : leadingRun v one (n + 1) = leadingRun v one n + 1 := by simp [leadingRun, h]
      rw [e]
      refine ⟨by omega, fun j hj hn => ?_, fun hlt => ?_⟩
      · by_cases hjn : j = n
        · rw [hjn]; exact h
        · exact h2 j (by omega) (by omega)
      · have : n + 1 - 1 - (leadingRun v one n + 1) = n - 1 - leadingRun v one n := by omega
        rw [this]; exact h3 (by omega)
    · have e : leadingRun v one (n + 1) = 0 := by simp [leadingRun, h]
      rw [e]
      refine ⟨by omega, fun j hj hn => by omega, fun _ => ?_⟩
      simp only [Nat.add_sub_cancel, Nat.sub_zero]
      cases one <;> simpa using h

theorem clz_countsLeading {w : Nat} (v : BitVec w) : CountsLeading v false (clz v) := leadingRun_spec v false w

theorem clo_countsLeading {w : Nat} (v : BitVec w) : CountsLeading v true (clo v) := leadingRun_spec v true w

/-! ## PUTBITS -/

theorem getLsbD_putLow (old d : LongWord) (bfp j : Nat) (hj : j < 64) :
    (putLow old d bfp).getLsbD j = if j < bfp then old.getLsbD j else d.getLsbD (j - bfp) := by
  by_cases h : j < bfp <;> simp [putLow, h, hj, -BitVec.getLsbD_eq_getElem]

theorem getLsbD_putOverflow (d free : LongWord) (bfp j : Nat) (hb : bfp ≤ 64) (hj : j < 64) :
    (putOverflow d free bfp).getLsbD j = if j < bfp then d.getLsbD (64 - bfp + j) else free.getLsbD j := by
  by_cases h : j < bfp
  · simp [putOverflow, h]
  · have h1 : d.getLsbD (64 - bfp + j) = false := BitVec.getLsbD_of_ge _ _ (by omega)
    have h2 : bfp + (j - bfp) = j := by omega
    simp [putOverflow, h, hj, h1, h2, -BitVec.getLsbD_eq_getElem]

end Sys2Proof.Machine
end

