-- ==== Sys2Proof/Laws/Layout.lean ====
section
/-! SUPPORT. What is known of the open parameters: there are 18 registers or more (92_eei_decisions.md D4), and the five positions
of the fields of STAT are different bits of 32 (D18). -/

namespace Sys2Proof.Config

theorem nreg_ge : 18 ≤ nreg := Nat.le_add_left 18 moreRegs

theorem layout_valid : layout.valid = true := by
  unfold layout
  split
  · assumption
  · decide

/-- The five positions are below 32. -/
theorem positions_lt : szBit < 32 ∧ snBit < 32 ∧ bfLsb + 1 < 32 ∧ anBit < 32 := by
  have h := (of_decide_eq_true layout_valid).2
  simp only [Layout.positions, List.mem_cons, List.not_mem_nil, or_false, forall_eq_or_imp, forall_eq] at h
  exact ⟨h.1, h.2.1, h.2.2.2.1, h.2.2.2.2⟩

/-- No two of the five positions are one. -/
theorem positions_ne : (szBit ≠ snBit ∧ szBit ≠ bfLsb ∧ szBit ≠ bfLsb + 1 ∧ szBit ≠ anBit) ∧
    (snBit ≠ bfLsb ∧ snBit ≠ bfLsb + 1 ∧ snBit ≠ anBit) ∧ bfLsb ≠ anBit ∧ bfLsb + 1 ≠ anBit := by
  have h := (of_decide_eq_true layout_valid).1
  simp only [Layout.positions, List.nodup_cons, List.mem_cons, List.not_mem_nil,
    or_false, not_or, not_false_iff, List.nodup_nil, and_true] at h
  obtain ⟨⟨h1, h2, h3, h4⟩, ⟨h5, h6, h7⟩, ⟨_, h8⟩, h9⟩ := h
  exact ⟨⟨h1, h2, h3, h4⟩, ⟨h5, h6, h7⟩, h8, h9⟩

@[simp] theorem szBit_ne_snBit : szBit ≠ snBit := positions_ne.1.1
@[simp] theorem snBit_ne_szBit : snBit ≠ szBit := positions_ne.1.1.symm
@[simp] theorem bfLsb_ne_szBit : bfLsb ≠ szBit := positions_ne.1.2.1.symm
@[simp] theorem bfLsb_succ_ne_szBit : bfLsb + 1 ≠ szBit := positions_ne.1.2.2.1.symm
@[simp] theorem bfLsb_ne_snBit : bfLsb ≠ snBit := positions_ne.2.1.1.symm
@[simp] theorem bfLsb_succ_ne_snBit : bfLsb + 1 ≠ snBit := positions_ne.2.1.2.1.symm
@[simp] theorem anBit_ne_szBit : anBit ≠ szBit := positions_ne.1.2.2.2.symm
@[simp] theorem anBit_ne_snBit : anBit ≠ snBit := positions_ne.2.1.2.2.symm
@[simp] theorem anBit_ne_bfLsb : anBit ≠ bfLsb := positions_ne.2.2.1.symm
@[simp] theorem anBit_ne_bfLsb_succ : anBit ≠ bfLsb + 1 := positions_ne.2.2.2.symm
@[simp] theorem szBit_ne_anBit : szBit ≠ anBit := positions_ne.1.2.2.2
@[simp] theorem snBit_ne_anBit : snBit ≠ anBit := positions_ne.2.1.2.2

end Sys2Proof.Config
end

