-- ==== Sys2Proof/Laws/State.lean ====
section
/-! SUPPORT. What each update leaves in each field, so that no proof unfolds a record update. -/

namespace Sys2Proof.Machine

open Sys2Proof

/-! ## One register -/

theorem reg_setReg (b : Block) (i j : Reg) (v : Word) : (b.setReg i v).reg j = if i = j then v else b.reg j := by
  simp only [Block.setReg, Block.reg, Fin.getElem_fin, Vector.getElem_set, Fin.ext_iff]

@[simp] theorem reg_setReg_self (b : Block) (i : Reg) (v : Word) : (b.setReg i v).reg i = v := by simp [reg_setReg]

@[simp] theorem stat_setReg (b : Block) (i : Reg) (v : Word) : (b.setReg i v).stat = b.stat := rfl

@[simp] theorem bfotmp_setReg (b : Block) (i : Reg) (v : Word) : (b.setReg i v).bfotmp = b.bfotmp := rfl

@[simp] theorem draws_setReg (b : Block) (i : Reg) (v : Word) : (b.setReg i v).draws = b.draws := rfl

/-! ## STAT, BFOTMP and the draw counter -/

@[simp] theorem reg_setStat (b : Block) (v : Word) (j : Reg) : (b.setStat v).reg j = b.reg j := rfl

@[simp] theorem stat_setStat (b : Block) (v : Word) : (b.setStat v).stat = v := rfl

@[simp] theorem bfotmp_setStat (b : Block) (v : Word) : (b.setStat v).bfotmp = b.bfotmp := rfl

@[simp] theorem draws_setStat (b : Block) (v : Word) : (b.setStat v).draws = b.draws := rfl

@[simp] theorem reg_setBfotmp (b : Block) (v : LongWord) (j : Reg) : (b.setBfotmp v).reg j = b.reg j := rfl

@[simp] theorem stat_setBfotmp (b : Block) (v : LongWord) : (b.setBfotmp v).stat = b.stat := rfl

@[simp] theorem bfotmp_setBfotmp (b : Block) (v : LongWord) : (b.setBfotmp v).bfotmp = v := rfl

@[simp] theorem draws_setBfotmp (b : Block) (v : LongWord) : (b.setBfotmp v).draws = b.draws := rfl

@[simp] theorem reg_nextDraw (b : Block) (j : Reg) : b.nextDraw.reg j = b.reg j := rfl

@[simp] theorem stat_nextDraw (b : Block) : b.nextDraw.stat = b.stat := rfl

@[simp] theorem bfotmp_nextDraw (b : Block) : b.nextDraw.bfotmp = b.bfotmp := rfl

@[simp] theorem draws_nextDraw (b : Block) : b.nextDraw.draws = b.draws + 1 := rfl

/-! ## The machine -/

@[simp] theorem block_x (s : State) : s.block .x = s.x := rfl

@[simp] theorem block_y (s : State) : s.block .y = s.y := rfl

@[simp] theorem block_onBlocks (s : State) (blk : Blk) (f : Side → Block → Block) (side : Side) :
    (s.onBlocks blk f).block side = if blk.runs side then f side (s.block side) else s.block side := by
  cases side <;> rfl

@[simp] theorem flags_onBlocks (s : State) (blk : Blk) (f : Side → Block → Block) : (s.onBlocks blk f).flags = s.flags := rfl

@[simp] theorem program_onBlocks (s : State) (blk : Blk) (f : Side → Block → Block) :
    (s.onBlocks blk f).program = s.program := rfl

@[simp] theorem lc_onBlocks (s : State) (blk : Blk) (f : Side → Block → Block) : (s.onBlocks blk f).lc = s.lc := rfl

@[simp] theorem block_takeBlocks (acc t : State) (i : Instr) (side : Side) :
    (acc.takeBlocks i t).block side = if i.runs side then t.block side else acc.block side := by
  cases side <;> rfl

@[simp] theorem flags_takeBlocks (acc t : State) (i : Instr) : (acc.takeBlocks i t).flags = acc.flags := rfl

@[simp] theorem program_takeBlocks (acc t : State) (i : Instr) : (acc.takeBlocks i t).program = acc.program := rfl

@[simp] theorem lc_takeBlocks (acc t : State) (i : Instr) : (acc.takeBlocks i t).lc = acc.lc := rfl

@[simp] theorem block_advance (s : State) (side : Side) : s.advance.block side = s.block side := by cases side <;> rfl

@[simp] theorem x_advance (s : State) : s.advance.x = s.x := rfl

@[simp] theorem y_advance (s : State) : s.advance.y = s.y := rfl

@[simp] theorem flags_advance (s : State) : s.advance.flags = s.flags := rfl

@[simp] theorem program_advance (s : State) : s.advance.program = s.program := rfl

@[simp] theorem lc_advance (s : State) : s.advance.lc = s.lc + 1 := rfl

@[simp] theorem program_load (s : State) (p : List Text) : (s.load p).program = p := rfl

@[simp] theorem lc_load (s : State) (p : List Text) : (s.load p).lc = 0 := rfl

@[simp] theorem block_load (s : State) (p : List Text) (side : Side) : (s.load p).block side = s.block side := by
  cases side <;> rfl

@[simp] theorem flags_load (s : State) (p : List Text) : (s.load p).flags = s.flags := rfl

@[simp] theorem lc_withFetchWord (s : State) (nbits w : Nat) : (s.withFetchWord nbits w).lc = s.lc := rfl

@[simp] theorem block_withFetchWord (s : State) (nbits w : Nat) (side : Side) :
    (s.withFetchWord nbits w).block side = s.block side := by cases side <;> rfl

@[simp] theorem flags_withFetchWord (s : State) (nbits w : Nat) : (s.withFetchWord nbits w).flags = s.flags := rfl

/-- Two states are equal when their blocks and the rest are. -/
theorem state_ext {s t : State} (hb : ∀ side, s.block side = t.block side) (hf : s.flags = t.flags)
    (hp : s.program = t.program) (hl : s.lc = t.lc) : s = t := by
  cases s; cases t
  have hx := hb .x
  have hy := hb .y
  simp only [State.block] at hx hy hf hp hl
  simp [hx, hy, hf, hp, hl]

/-- The line placed is the one the line counter then names. -/
theorem placeLine_get (p : List Text) (n : Nat) (t : Text) : (placeLine p n t)[n]? = some t := by
  induction n generalizing p with
  | zero => cases p <;> rfl
  | succ n ih => cases p <;> simp [placeLine, ih]

@[simp] theorem fetch_withFetchWord (s : State) (nbits w : Nat) :
    (s.withFetchWord nbits w).fetch = some (wordText nbits w) := placeLine_get _ _ _

end Sys2Proof.Machine
end

