-- ==== Sys2Proof/Laws/Ops.lean ====
section
/-! SUPPORT. One lemma for each shared operation that says all it can do; proofs cite these and unfold nothing. -/

namespace Sys2Proof.Machine

open Sys2Proof Sys2Proof.Safety

/-! ## STAT bits -/

theorem stat_setSz (b : Block) (z : Bool) (j : Nat) :
    (b.setSz z).stat.getLsbD j = if j = Config.szBit then z else b.stat.getLsbD j :=
  getLsbD_setBit _ _ _ _ Config.positions_lt.1

theorem stat_setSn (b : Block) (n : Bool) (j : Nat) :
    (b.setSn n).stat.getLsbD j = if j = Config.snBit then n else b.stat.getLsbD j :=
  getLsbD_setBit _ _ _ _ Config.positions_lt.2.1

theorem stat_setAn (b : Block) (a : Bool) (j : Nat) :
    (b.setAn a).stat.getLsbD j = if j = Config.anBit then a else b.stat.getLsbD j :=
  getLsbD_setBit _ _ _ _ Config.positions_lt.2.2.2

theorem stat_setBf (b : Block) (v : BitVec 2) (j : Nat) :
    (b.setBf v).stat.getLsbD j =
      if j = Config.bfLsb + 1 then v.getLsbD 1 else if j = Config.bfLsb then v.getLsbD 0 else b.stat.getLsbD j := by
  have h := Config.positions_lt.2.2.1
  rw [Block.setBf, stat_setStat, getLsbD_setBit _ _ _ _ h, getLsbD_setBit _ _ _ _ (by omega)]

@[simp] theorem reg_setSz (b : Block) (z : Bool) (r : Reg) : (b.setSz z).reg r = b.reg r := rfl
@[simp] theorem reg_setSn (b : Block) (z : Bool) (r : Reg) : (b.setSn z).reg r = b.reg r := rfl
@[simp] theorem reg_setBf (b : Block) (v : BitVec 2) (r : Reg) : (b.setBf v).reg r = b.reg r := rfl
@[simp] theorem reg_setAn (b : Block) (a : Bool) (r : Reg) : (b.setAn a).reg r = b.reg r := rfl
@[simp] theorem bfotmp_setSz (b : Block) (z : Bool) : (b.setSz z).bfotmp = b.bfotmp := rfl
@[simp] theorem bfotmp_setSn (b : Block) (z : Bool) : (b.setSn z).bfotmp = b.bfotmp := rfl
@[simp] theorem bfotmp_setBf (b : Block) (v : BitVec 2) : (b.setBf v).bfotmp = b.bfotmp := rfl
@[simp] theorem bfotmp_setAn (b : Block) (a : Bool) : (b.setAn a).bfotmp = b.bfotmp := rfl
@[simp] theorem draws_setSz (b : Block) (z : Bool) : (b.setSz z).draws = b.draws := rfl
@[simp] theorem draws_setSn (b : Block) (z : Bool) : (b.setSn z).draws = b.draws := rfl
@[simp] theorem draws_setBf (b : Block) (v : BitVec 2) : (b.setBf v).draws = b.draws := rfl
@[simp] theorem draws_setAn (b : Block) (a : Bool) : (b.setAn a).draws = b.draws := rfl

@[simp] theorem sz_setSz (b : Block) (z : Bool) : (b.setSz z).sz = z := by simp [Block.sz, stat_setSz]
@[simp] theorem sn_setSz (b : Block) (z : Bool) : (b.setSz z).sn = b.sn := by
  simp [Block.sn, stat_setSz, -BitVec.getLsbD_eq_getElem]
@[simp] theorem sz_setSn (b : Block) (n : Bool) : (b.setSn n).sz = b.sz := by
  simp [Block.sz, stat_setSn, -BitVec.getLsbD_eq_getElem]
@[simp] theorem sn_setSn (b : Block) (n : Bool) : (b.setSn n).sn = n := by simp [Block.sn, stat_setSn]
@[simp] theorem an_setAn (b : Block) (a : Bool) : (b.setAn a).an = a := by simp [Block.an, stat_setAn]
@[simp] theorem sz_nextDraw (b : Block) : b.nextDraw.sz = b.sz := rfl
@[simp] theorem sn_nextDraw (b : Block) : b.nextDraw.sn = b.sn := rfl

theorem getLsbD_bf (b : Block) (j : Nat) (hj : j < 2) : b.bf.getLsbD j = b.stat.getLsbD (Config.bfLsb + j) := by
  simp [Block.bf, hj, -BitVec.getLsbD_eq_getElem]

/-- BF1-0 depends on its two bits of STAT only. -/
theorem bf_eq_of_stat {b b' : Block} (h0 : b'.stat.getLsbD Config.bfLsb = b.stat.getLsbD Config.bfLsb)
    (h1 : b'.stat.getLsbD (Config.bfLsb + 1) = b.stat.getLsbD (Config.bfLsb + 1)) : b'.bf = b.bf := by
  apply BitVec.eq_of_getLsbD_eq
  intro j hj
  rw [getLsbD_bf _ _ hj, getLsbD_bf _ _ hj]
  have : j = 0 ∨ j = 1 := by omega
  rcases this with rfl | rfl
  · exact h0
  · exact h1

@[simp] theorem bf_setSz (b : Block) (z : Bool) : (b.setSz z).bf = b.bf :=
  bf_eq_of_stat (by simp [stat_setSz, -BitVec.getLsbD_eq_getElem])
    (by simp [stat_setSz, -BitVec.getLsbD_eq_getElem])

@[simp] theorem bf_setSn (b : Block) (z : Bool) : (b.setSn z).bf = b.bf :=
  bf_eq_of_stat (by simp [stat_setSn, -BitVec.getLsbD_eq_getElem])
    (by simp [stat_setSn, -BitVec.getLsbD_eq_getElem])

@[simp] theorem bf_nextDraw (b : Block) : b.nextDraw.bf = b.bf := rfl

@[simp] theorem bf_setBf (b : Block) (v : BitVec 2) : (b.setBf v).bf = v := by
  apply BitVec.eq_of_getLsbD_eq
  intro j hj
  rw [getLsbD_bf _ _ hj, stat_setBf]
  have : j = 0 ∨ j = 1 := by omega
  rcases this with rfl | rfl <;> simp

/-! ## Dual registers -/

/-- No dual register holds one register twice. -/
theorem reg_ne_succ (s : Reg) : s ≠ s + 1 := by
  have hn := Config.nreg_ge
  have h1 : ((1 : Reg) : Nat) = 1 := Nat.mod_eq_of_lt (a := 1) (b := Config.nreg) (by omega)
  intro h
  have h := congrArg Fin.val h
  rw [Fin.val_add_eq_ite, h1] at h
  split at h <;> omega

theorem getLsbD_dual (b : Block) (s : Reg) (j : Nat) :
    (b.dual s).getLsbD j = if j < 32 then (b.reg s).getLsbD j else (b.reg (s + 1)).getLsbD (j - 32) :=
  BitVec.getLsbD_append (x := b.reg (s + 1)) (y := b.reg s) (i := j)

theorem getLsbD_quad (b : Block) (s : Reg) (j : Nat) :
    (b.quad s).getLsbD j = if j < 64 then (b.dual s).getLsbD j else (b.dual (s + 2)).getLsbD (j - 64) :=
  BitVec.getLsbD_append (x := b.dual (s + 2)) (y := b.dual s) (i := j)

theorem dual_eq_iff (b : Block) (s : Reg) (v : LongWord) :
    b.dual s = v ↔ b.reg s = v.extractLsb' 0 32 ∧ b.reg (s + 1) = v.extractLsb' 32 32 := by
  constructor
  · rintro rfl
    constructor <;> apply BitVec.eq_of_getLsbD_eq <;> intro j hj <;>
      simp [getLsbD_dual, hj, -BitVec.getLsbD_eq_getElem]
  · rintro ⟨h0, h1⟩
    apply BitVec.eq_of_getLsbD_eq
    intro j hj
    rw [getLsbD_dual]
    by_cases h : j < 32
    · simp [h, h0, -BitVec.getLsbD_eq_getElem]
    · have h2 : j - 32 < 32 := by omega
      have h3 : 32 + (j - 32) = j := by omega
      simp [h, h1, h2, h3, -BitVec.getLsbD_eq_getElem]

theorem reg_setDual (b : Block) (s r : Reg) (v : LongWord) :
    (b.setDual s v).reg r =
      if r = s + 1 then v.extractLsb' 32 32 else if r = s then v.extractLsb' 0 32 else b.reg r := by
  simp only [Block.setDual, reg_setReg, eq_comm]

@[simp] theorem dual_setDual (b : Block) (s : Reg) (v : LongWord) : (b.setDual s v).dual s = v := by
  rw [dual_eq_iff, reg_setDual, reg_setDual]
  simp

@[simp] theorem stat_setDual (b : Block) (s : Reg) (v : LongWord) : (b.setDual s v).stat = b.stat := rfl
@[simp] theorem bfotmp_setDual (b : Block) (s : Reg) (v : LongWord) : (b.setDual s v).bfotmp = b.bfotmp := rfl
@[simp] theorem draws_setDual (b : Block) (s : Reg) (v : LongWord) : (b.setDual s v).draws = b.draws := rfl

/-- The dual register read depends on its two registers only. -/
theorem dual_congr {b b' : Block} {s : Reg} (h0 : b'.reg s = b.reg s) (h1 : b'.reg (s + 1) = b.reg (s + 1)) :
    b'.dual s = b.dual s := by simp [Block.dual, h0, h1]

/-! ## Results and their flags -/

@[simp] theorem reg_setZN {E : Nat} (b : Block) (rs : List (BitVec E)) (r : Reg) : (b.setZN rs).reg r = b.reg r := rfl
@[simp] theorem dual_setZN {E : Nat} (b : Block) (rs : List (BitVec E)) (r : Reg) : (b.setZN rs).dual r = b.dual r := rfl
@[simp] theorem bfotmp_setZN {E : Nat} (b : Block) (rs : List (BitVec E)) : (b.setZN rs).bfotmp = b.bfotmp := rfl
@[simp] theorem draws_setZN {E : Nat} (b : Block) (rs : List (BitVec E)) : (b.setZN rs).draws = b.draws := rfl
@[simp] theorem sz_setZN {E : Nat} (b : Block) (rs : List (BitVec E)) : (b.setZN rs).sz = zeroFlag rs := by
  simp [Block.setZN]
@[simp] theorem sn_setZN {E : Nat} (b : Block) (rs : List (BitVec E)) : (b.setZN rs).sn = signFlag rs := by
  simp [Block.setZN]

theorem statKept_setSz (b : Block) (z : Bool) : StatKept b (b.setSz z) := fun j h _ => by rw [stat_setSz, if_neg h]

theorem statKept_setSn (b : Block) (n : Bool) : StatKept b (b.setSn n) := fun j _ h => by rw [stat_setSn, if_neg h]

theorem statKept_trans {a b c : Block} (h : StatKept a b) (h' : StatKept b c) : StatKept a c :=
  fun j h1 h2 => (h' j h1 h2).trans (h j h1 h2)

theorem statKept_setZN {E : Nat} (b : Block) (rs : List (BitVec E)) : StatKept b (b.setZN rs) :=
  statKept_trans (statKept_setSz b _) (statKept_setSn _ _)

theorem regsKept_setReg (b : Block) (s : Reg) (v : Word) : RegsKept [s] b (b.setReg s v) := fun r h => by
  rw [reg_setReg, if_neg (by simpa [eq_comm] using h)]

theorem regsKept_setDual (b : Block) (s : Reg) (v : LongWord) : RegsKept [s, s + 1] b (b.setDual s v) := fun r h => by
  simp only [List.mem_cons, List.not_mem_nil, or_false, not_or] at h
  rw [reg_setDual, if_neg h.2, if_neg h.1]

theorem oneResultFlags_setZN {w : Nat} (b : Block) (r : BitVec w) : OneResultFlags r (b.setZN [r]) := by
  simp [OneResultFlags, zeroFlag, signFlag]

/-- All that one result in a single register does. -/
theorem result_spec (b : Block) (s : Reg) (v : Word) : WritesReg s (fun _ r => r = v) b (b.result s v) :=
  ⟨by simp [Block.result], by simpa [Block.result] using oneResultFlags_setZN (b.setReg s v) v,
    regsKept_setReg b s v, statKept_setZN (b.setReg s v) _, rfl⟩

/-- All that one result in a dual register does. -/
theorem resultDual_spec (b : Block) (s : Reg) (v : LongWord) : WritesDual s (fun _ r => r = v) b (b.resultDual s v) :=
  ⟨by simp [Block.resultDual], by simpa [Block.resultDual] using oneResultFlags_setZN (b.setDual s v) v,
    regsKept_setDual b s v, statKept_setZN (b.setDual s v) _, rfl⟩

/-- The flags of several results are the flags of the lanes of the value they are joined into. -/
theorem laneFlags_setZN {E w : Nat} (b : Block) (rs : List (BitVec E)) (hE : 0 < E) (hw : E * rs.length ≤ w) :
    LaneFlags E rs.length (joinLanes w rs) (b.setZN rs) := by
  constructor
  · rw [sz_setZN, zeroFlag, List.any_eq_true]
    constructor
    · rintro ⟨r, hr, h0⟩
      obtain ⟨q, hq, rfl⟩ := List.getElem_of_mem hr
      refine ⟨q, hq, fun j hj => ?_⟩
      rw [getLsbD_joinLanes w rs hw q j hq hj, eq_of_beq h0]
      simp
    · rintro ⟨q, hq, h⟩
      refine ⟨rs[q], List.getElem_mem hq, beq_iff_eq.mpr (BitVec.eq_of_getLsbD_eq fun j hj => ?_)⟩
      rw [← getLsbD_joinLanes w rs hw q j hq hj, h j hj]
      simp
  · rw [sn_setZN, signFlag, List.any_eq_true]
    constructor
    · rintro ⟨r, hr, h1⟩
      obtain ⟨q, hq, rfl⟩ := List.getElem_of_mem hr
      exact ⟨q, hq, by
        rw [getLsbD_joinLanes w rs hw q _ hq (by omega), ← BitVec.msb_eq_getLsbD_last]; exact h1⟩
    · rintro ⟨q, hq, h⟩
      exact ⟨rs[q], List.getElem_mem hq, by
        rw [BitVec.msb_eq_getLsbD_last, ← getLsbD_joinLanes w rs hw q _ hq (by omega)]; exact h⟩

/-- A function on elements with its bits: `f` shifts an element by `k` as `bit` says. -/
def ShiftsElement (bit : ElementBit) (E : Nat) (k : Int) (f : BitVec E → BitVec E) : Prop :=
  ∀ v j, j < E → (f v).getLsbD j = bit E v.getLsbD k j

/-- The bits of an element that a shifted element depends on lie in the element. -/
def LocalBits (bit : ElementBit) : Prop :=
  ∀ E u v k j, j < E → (∀ i, i < E → u i = v i) → bit E u k j = bit E v k j

theorem shiftedLanes_joinLanes {w : Nat} {bit : ElementBit} (hbit : LocalBits bit) (E n : Nat) (k : Int) (d : BitVec w)
    (f : BitVec E → BitVec E) (hf : ShiftsElement bit E k f) (hw : E * n ≤ w) :
    ShiftedLanes bit E n k d (joinLanes w ((lanes E n d).map f)) := by
  intro q hq j hj
  have hlen : ((lanes E n d).map f).length = n := by simp
  rw [getLsbD_joinLanes w _ (by rw [hlen]; exact hw) q j (by rw [hlen]; exact hq) hj]
  rw [List.getElem_map, getElem_lanes, hf _ _ hj]
  exact hbit _ _ _ _ _ hj fun i hi => by simp [getLsbD_lane, hi, -BitVec.getLsbD_eq_getElem]

/-- All that a shift of the lanes of a single register does. -/
theorem resultLanes_spec {bit : ElementBit} (hbit : LocalBits bit) (b : Block) (s m : Reg) (E n : Nat) (k : Int)
    (f : BitVec E → BitVec E) (hf : ShiftsElement bit E k f) (hE : 0 < E) (hw : E * n ≤ 32) :
    ShiftsReg bit E n s m (fun _ => k) b (b.resultLanes s ((lanes E n (b.reg m)).map f)) := by
  refine ⟨?_, ?_, regsKept_setReg b s _, statKept_setZN (b.setReg s _) _, rfl⟩
  · simpa [Block.resultLanes] using shiftedLanes_joinLanes hbit E n k (b.reg m) f hf hw
  · have := laneFlags_setZN (w := 32) (b.setReg s (joinLanes 32 ((lanes E n (b.reg m)).map f)))
      ((lanes E n (b.reg m)).map f) hE (by simpa using hw)
    simpa [Block.resultLanes] using this

/-- All that a shift of the lanes of a dual register does. -/
theorem resultLanesDual_spec {bit : ElementBit} (hbit : LocalBits bit) (b : Block) (s m : Reg) (E n : Nat) (k : Int)
    (f : BitVec E → BitVec E) (hf : ShiftsElement bit E k f) (hE : 0 < E) (hw : E * n ≤ 64) :
    ShiftsDual bit E n s m (fun _ => k) b (b.resultLanesDual s ((lanes E n (b.dual m)).map f)) := by
  refine ⟨?_, ?_, regsKept_setDual b s _, statKept_setZN (b.setDual s _) _, rfl⟩
  · simpa [Block.resultLanesDual] using shiftedLanes_joinLanes hbit E n k (b.dual m) f hf hw
  · have := laneFlags_setZN (w := 64) (b.setDual s (joinLanes 64 ((lanes E n (b.dual m)).map f)))
      ((lanes E n (b.dual m)).map f) hE (by simpa using hw)
    simpa [Block.resultLanesDual] using this

theorem lsh_shiftsElement (E : Nat) (k : Int) : ShiftsElement lshBit E k (lsh · k) := fun v j => getLsbD_lsh v k j

theorem ash_shiftsElement (E : Nat) (k : Int) : ShiftsElement ashBit E k (ash · k) := fun v j => getLsbD_ash v k j

theorem rot_shiftsElement (E : Nat) (k : Int) : ShiftsElement rotBit E k (rot · k) := fun v j => getLsbD_rot v k j

theorem lshBit_local : LocalBits lshBit := by
  intro E u v k j _ h
  unfold lshBit
  by_cases hc : 0 ≤ (j : Int) - k ∧ (j : Int) - k < E
  · rw [h _ (by omega)]
  · simp only [hc, decide_false, Bool.false_and]

theorem ashBit_local : LocalBits ashBit := by
  intro E u v k j hj h
  unfold ashBit
  by_cases h1 : (j : Int) - k < 0
  · simp only [h1, if_true]
  · by_cases h2 : (j : Int) - k < E
    · simp only [h1, h2, if_true, if_false]; exact h _ (by omega)
    · simp only [h1, h2, if_false]; exact h _ (by omega)

theorem rotBit_local : LocalBits rotBit := by
  intro E u v k j hj h
  unfold rotBit
  have hE : (0 : Int) < E := by omega
  have h0 := Int.emod_nonneg ((j : Int) - k) (ne_of_gt hE)
  have h1 := Int.emod_lt_of_pos ((j : Int) - k) hE
  exact h _ (by omega)

/-! ## Draws -/

/-- All that drawing both flags does. -/
theorem drawFlags_spec (side : Side) (b : Block) : OnlyRegsAndFlags [] b (b.drawFlags side) :=
  ⟨fun _ _ => rfl, statKept_trans (statKept_setSz b _) (statKept_setSn (b.drawSz side) _), rfl⟩

@[simp] theorem reg_drawFlags (side : Side) (b : Block) (r : Reg) : (b.drawFlags side).reg r = b.reg r := rfl
@[simp] theorem dual_drawFlags (side : Side) (b : Block) (r : Reg) : (b.drawFlags side).dual r = b.dual r := rfl
@[simp] theorem bfotmp_drawFlags (side : Side) (b : Block) : (b.drawFlags side).bfotmp = b.bfotmp := rfl
@[simp] theorem bf_drawFlags (side : Side) (b : Block) : (b.drawFlags side).bf = b.bf := by
  simp [Block.drawFlags, Block.drawSn, Block.drawSz]

/-- All that a bit test does. -/
theorem testBit_spec (side : Side) (b : Block) (t : Bool) :
    (b.testBit side t).sz = !t ∧ OnlyRegsAndFlags [] b (b.testBit side t) :=
  ⟨by simp [Block.testBit, Block.drawSn], fun _ _ => rfl, statKept_trans (statKept_setSz b _) (statKept_setSn (b.setSz _) _), rfl⟩

/-! ## Executing in the chosen blocks -/

/-- All that executing in the chosen blocks does. -/
theorem onBlocks_actsIn (blk : Blk) (σ : State) (f : Side → Block → Block) (P : Block → Block → Prop)
    (h : ∀ side, P (σ.block side) (f side (σ.block side))) : ActsIn blk σ (σ.onBlocks blk f) P :=
  ⟨fun side hr => by rw [block_onBlocks, if_pos hr]; exact h side,
    fun side hr => by rw [block_onBlocks, hr]; rfl, rfl, rfl, rfl⟩

/-- An instruction that is one function of a block, applied in the blocks it names, does what the function does. -/
theorem does_of_onBlocks {i : Instr} {σ : State} {P : Block → Block → Prop} (f : Side → Block → Block)
    (he : exec i σ = .next (σ.onBlocks i.blk f)) (h : ∀ side b, P b (f side b)) : Does i σ P :=
  ⟨_, he, onBlocks_actsIn _ _ f P fun side => h side _⟩

/-- The domain test is the domain of every chosen block. -/
theorem inDomain_iff (σ : State) (blk : Blk) (ok : Block → Bool) :
    σ.inDomain blk ok = true ↔ ∀ side, blk.runs side = true → ok (σ.block side) = true := by
  constructor
  · intro h side hr
    rw [State.inDomain, Bool.and_eq_true] at h
    cases side
    · simpa [hr] using h.1
    · simpa [hr] using h.2
  · intro h
    have hx := h .x
    have hy := h .y
    cases hbx : blk.runs .x <;> cases hby : blk.runs .y <;> simp_all [State.inDomain]

/-- An instruction with a domain: inside it does what its function does, outside it is `OUT_OF_DOMAIN`. -/
theorem doesInDomain_of_onBlocksWithin {i : Instr} {σ : State} {P : Block → Block → Prop} (ok : Block → Bool)
    (f : Side → Block → Block) (he : exec i σ = σ.onBlocksWithin i.blk ok f)
    (hd : ∀ b, ok b = true ↔ Domain i b) (h : ∀ side b, Domain i b → P b (f side b)) : DoesInDomain i σ P := by
  have hiff : σ.inDomain i.blk ok = true ↔ InDomain i σ := by
    simp only [inDomain_iff, hd, InDomain, Instr.runs]
  constructor
  · intro hin
    refine ⟨σ.onBlocks i.blk f, by rw [he, State.onBlocksWithin, if_pos (hiff.mpr hin)],
      fun side hr => ?_, fun side hr => ?_, rfl, rfl, rfl⟩
    · rw [block_onBlocks, if_pos hr]; exact h side _ (hin side hr)
    · rw [block_onBlocks, hr]; rfl
  · intro hout
    rw [he, State.onBlocksWithin, if_neg (mt hiff.mp hout)]

theorem writesReg_mono {s : Reg} {P Q : Block → Word → Prop} {b b' : Block} (hpq : ∀ r, P b r → Q b r)
    (h : WritesReg s P b b') : WritesReg s Q b b' := ⟨hpq _ h.1, h.2⟩

theorem writesDual_mono {s : Reg} {P Q : Block → LongWord → Prop} {b b' : Block} (hpq : ∀ r, P b r → Q b r)
    (h : WritesDual s P b b') : WritesDual s Q b b' := ⟨hpq _ h.1, h.2⟩

/-! ## Control fields as numbers -/

theorem dual_toNat (b : Block) (i : Reg) : (b.dual i).toNat = (b.reg (i + 1)).toNat * 2 ^ 32 + (b.reg i).toNat := by
  rw [Block.dual, BitVec.toNat_append, ← Nat.shiftLeft_add_eq_or_of_lt (b.reg i).isLt, Nat.shiftLeft_eq]

theorem magnitude_dual (k : Nat) (hk : k ≤ 32) (b : Block) (n : Reg) :
    magnitude k (b.dual n) = ((b.reg n).setWidth k).toInt := by
  unfold magnitude
  congr 1
  apply BitVec.eq_of_getLsbD_eq
  intro j hj
  have : j < 32 := by omega
  simp only [BitVec.getLsbD_setWidth, getLsbD_dual, this, if_true]

theorem bitNumber_five (c : Word) : bitNumber 5 c = c.toNat % 32 := by simp [bitNumber]

theorem bitNumber_six (c : Word) : bitNumber 6 c = c.toNat % 64 := by simp [bitNumber]

theorem pos8_eq (c : Word) : pos8 c = c.toNat / 256 % 256 := by
  simp [pos8, BitVec.extractLsb'_toNat, Nat.shiftRight_eq_div_pow]

theorem len7_eq (c : Word) : len7 c = c.toNat % 128 := by simp [len7, BitVec.extractLsb'_toNat]

theorem len7_dual (b : Block) (n : Reg) : len7 (b.dual n) = (b.reg n).toNat % 128 := by
  simp only [len7, BitVec.extractLsb'_toNat, dual_toNat, Nat.shiftRight_zero]
  omega

theorem pos8Dual_dual (b : Block) (n : Reg) : pos8Dual (b.dual n) = (b.reg (n + 1)).toNat % 256 := by
  have := (b.reg n).isLt
  simp only [pos8Dual, BitVec.extractLsb'_toNat, dual_toNat, Nat.shiftRight_eq_div_pow]
  omega

theorem bfp6_dual (b : Block) (n : Reg) : bfp6 (b.dual n) = (b.reg (n + 1)).toNat % 64 := by
  have := (b.reg n).isLt
  simp only [bfp6, BitVec.extractLsb'_toNat, dual_toNat, Nat.shiftRight_eq_div_pow]
  omega

/-- A loaded low part takes its bits from the source, the rest stays. -/
theorem getLsbD_lowMerge (k : Nat) (old v : Word) (j : Nat) (hj : j < 32) :
    (lowMerge k old v).getLsbD j = if j < k then v.getLsbD j else old.getLsbD j := by
  by_cases h : j < k
  · simp [lowMerge, h, hj, -BitVec.getLsbD_eq_getElem]
  · have : k + (j - k) = j := by omega
    simp [lowMerge, h, hj, this, -BitVec.getLsbD_eq_getElem]

/-! ## Domains -/

theorem fieldInside_iff (w pos len : Nat) : fieldInside w pos len = true ↔ FieldInside w pos len := decide_eq_true_iff

theorem onBlocksWithin_true (σ : State) (blk : Blk) (f : Side → Block → Block) :
    σ.onBlocksWithin blk (fun _ => true) f = .next (σ.onBlocks blk f) := by
  simp [State.onBlocksWithin, State.inDomain]

end Sys2Proof.Machine
end

