-- ==== Sys2Proof/Laws/PerInstr.lean ====
section
/-! SUPPORT. The one fact stated of every instruction as a term, one lemma per constructor. -/

/-- The surface form an instruction is written in names the row of R63 it is, with every field it has. -/
def Sys2Proof.Laws.InstrFormRoundTrip.Statement (i : Sys2Proof.Instr) : Prop := i.form.instr? = some i

open Sys2Proof

theorem Sys2Proof.Laws.bitNumberOf_natCast (b : Nat) : bitNumberOf b = some b := by simp [bitNumberOf]

theorem Sys2Proof.Laws.InstrFormRoundTrip.lshiftNr (blk : Blk) (s m n : Reg) :
    Statement (.lshiftNr blk s m n) := rfl

theorem Sys2Proof.Laws.InstrFormRoundTrip.lshiftNi (blk : Blk) (s m : Reg) (imm : Int) :
    Statement (.lshiftNi blk s m imm) := rfl

theorem Sys2Proof.Laws.InstrFormRoundTrip.lshiftBr (blk : Blk) (s m n : Reg) :
    Statement (.lshiftBr blk s m n) := rfl

theorem Sys2Proof.Laws.InstrFormRoundTrip.lshiftBi (blk : Blk) (s m : Reg) (imm : Int) :
    Statement (.lshiftBi blk s m imm) := rfl

theorem Sys2Proof.Laws.InstrFormRoundTrip.lshiftSr (blk : Blk) (s m n : Reg) :
    Statement (.lshiftSr blk s m n) := rfl

theorem Sys2Proof.Laws.InstrFormRoundTrip.lshiftSi (blk : Blk) (s m : Reg) (imm : Int) :
    Statement (.lshiftSi blk s m imm) := rfl

theorem Sys2Proof.Laws.InstrFormRoundTrip.lshiftDnr (blk : Blk) (s m n : Reg) :
    Statement (.lshiftDnr blk s m n) := rfl

theorem Sys2Proof.Laws.InstrFormRoundTrip.lshiftDni (blk : Blk) (s m : Reg) (imm : Int) :
    Statement (.lshiftDni blk s m imm) := rfl

theorem Sys2Proof.Laws.InstrFormRoundTrip.lshiftDbr (blk : Blk) (s m n : Reg) :
    Statement (.lshiftDbr blk s m n) := rfl

theorem Sys2Proof.Laws.InstrFormRoundTrip.lshiftDbi (blk : Blk) (s m : Reg) (imm : Int) :
    Statement (.lshiftDbi blk s m imm) := rfl

theorem Sys2Proof.Laws.InstrFormRoundTrip.lshiftDsr (blk : Blk) (s m n : Reg) :
    Statement (.lshiftDsr blk s m n) := rfl

theorem Sys2Proof.Laws.InstrFormRoundTrip.lshiftDsi (blk : Blk) (s m : Reg) (imm : Int) :
    Statement (.lshiftDsi blk s m imm) := rfl

theorem Sys2Proof.Laws.InstrFormRoundTrip.lshiftLr (blk : Blk) (s m n : Reg) :
    Statement (.lshiftLr blk s m n) := rfl

theorem Sys2Proof.Laws.InstrFormRoundTrip.lshiftLi (blk : Blk) (s m : Reg) (imm : Int) :
    Statement (.lshiftLi blk s m imm) := rfl

theorem Sys2Proof.Laws.InstrFormRoundTrip.ashiftNr (blk : Blk) (s m n : Reg) :
    Statement (.ashiftNr blk s m n) := rfl

theorem Sys2Proof.Laws.InstrFormRoundTrip.ashiftNi (blk : Blk) (s m : Reg) (imm : Int) :
    Statement (.ashiftNi blk s m imm) := rfl

theorem Sys2Proof.Laws.InstrFormRoundTrip.ashiftBr (blk : Blk) (s m n : Reg) :
    Statement (.ashiftBr blk s m n) := rfl

theorem Sys2Proof.Laws.InstrFormRoundTrip.ashiftBi (blk : Blk) (s m : Reg) (imm : Int) :
    Statement (.ashiftBi blk s m imm) := rfl

theorem Sys2Proof.Laws.InstrFormRoundTrip.ashiftSr (blk : Blk) (s m n : Reg) :
    Statement (.ashiftSr blk s m n) := rfl

theorem Sys2Proof.Laws.InstrFormRoundTrip.ashiftSi (blk : Blk) (s m : Reg) (imm : Int) :
    Statement (.ashiftSi blk s m imm) := rfl

theorem Sys2Proof.Laws.InstrFormRoundTrip.ashiftDnr (blk : Blk) (s m n : Reg) :
    Statement (.ashiftDnr blk s m n) := rfl

theorem Sys2Proof.Laws.InstrFormRoundTrip.ashiftDni (blk : Blk) (s m : Reg) (imm : Int) :
    Statement (.ashiftDni blk s m imm) := rfl

theorem Sys2Proof.Laws.InstrFormRoundTrip.ashiftDbr (blk : Blk) (s m n : Reg) :
    Statement (.ashiftDbr blk s m n) := rfl

theorem Sys2Proof.Laws.InstrFormRoundTrip.ashiftDbi (blk : Blk) (s m : Reg) (imm : Int) :
    Statement (.ashiftDbi blk s m imm) := rfl

theorem Sys2Proof.Laws.InstrFormRoundTrip.ashiftDsr (blk : Blk) (s m n : Reg) :
    Statement (.ashiftDsr blk s m n) := rfl

theorem Sys2Proof.Laws.InstrFormRoundTrip.ashiftDsi (blk : Blk) (s m : Reg) (imm : Int) :
    Statement (.ashiftDsi blk s m imm) := rfl

theorem Sys2Proof.Laws.InstrFormRoundTrip.ashiftLr (blk : Blk) (s m n : Reg) :
    Statement (.ashiftLr blk s m n) := rfl

theorem Sys2Proof.Laws.InstrFormRoundTrip.ashiftLi (blk : Blk) (s m : Reg) (imm : Int) :
    Statement (.ashiftLi blk s m imm) := rfl

theorem Sys2Proof.Laws.InstrFormRoundTrip.rotNr (blk : Blk) (s m n : Reg) :
    Statement (.rotNr blk s m n) := rfl

theorem Sys2Proof.Laws.InstrFormRoundTrip.rotNi (blk : Blk) (s m : Reg) (imm : Int) :
    Statement (.rotNi blk s m imm) := rfl

theorem Sys2Proof.Laws.InstrFormRoundTrip.rotDnr (blk : Blk) (s m n : Reg) :
    Statement (.rotDnr blk s m n) := rfl

theorem Sys2Proof.Laws.InstrFormRoundTrip.rotDni (blk : Blk) (s m : Reg) (imm : Int) :
    Statement (.rotDni blk s m imm) := rfl

theorem Sys2Proof.Laws.InstrFormRoundTrip.rotLr (blk : Blk) (s m n : Reg) :
    Statement (.rotLr blk s m n) := rfl

theorem Sys2Proof.Laws.InstrFormRoundTrip.rotLi (blk : Blk) (s m : Reg) (imm : Int) :
    Statement (.rotLi blk s m imm) := rfl

theorem Sys2Proof.Laws.InstrFormRoundTrip.bclrNr (blk : Blk) (s m n : Reg) :
    Statement (.bclrNr blk s m n) := rfl

theorem Sys2Proof.Laws.InstrFormRoundTrip.bclrNi (blk : Blk) (s m : Reg) (imm : Nat) :
    Statement (.bclrNi blk s m imm) := by
  show Option.map _ (bitNumberOf imm) = _
  rw [Sys2Proof.Laws.bitNumberOf_natCast]; rfl

theorem Sys2Proof.Laws.InstrFormRoundTrip.bclrLr (blk : Blk) (s m n : Reg) :
    Statement (.bclrLr blk s m n) := rfl

theorem Sys2Proof.Laws.InstrFormRoundTrip.bclrLi (blk : Blk) (s m : Reg) (imm : Nat) :
    Statement (.bclrLi blk s m imm) := by
  show Option.map _ (bitNumberOf imm) = _
  rw [Sys2Proof.Laws.bitNumberOf_natCast]; rfl

theorem Sys2Proof.Laws.InstrFormRoundTrip.bsetNr (blk : Blk) (s m n : Reg) :
    Statement (.bsetNr blk s m n) := rfl

theorem Sys2Proof.Laws.InstrFormRoundTrip.bsetNi (blk : Blk) (s m : Reg) (imm : Nat) :
    Statement (.bsetNi blk s m imm) := by
  show Option.map _ (bitNumberOf imm) = _
  rw [Sys2Proof.Laws.bitNumberOf_natCast]; rfl

theorem Sys2Proof.Laws.InstrFormRoundTrip.bsetLr (blk : Blk) (s m n : Reg) :
    Statement (.bsetLr blk s m n) := rfl

theorem Sys2Proof.Laws.InstrFormRoundTrip.bsetLi (blk : Blk) (s m : Reg) (imm : Nat) :
    Statement (.bsetLi blk s m imm) := by
  show Option.map _ (bitNumberOf imm) = _
  rw [Sys2Proof.Laws.bitNumberOf_natCast]; rfl

theorem Sys2Proof.Laws.InstrFormRoundTrip.btglNr (blk : Blk) (s m n : Reg) :
    Statement (.btglNr blk s m n) := rfl

theorem Sys2Proof.Laws.InstrFormRoundTrip.btglNi (blk : Blk) (s m : Reg) (imm : Nat) :
    Statement (.btglNi blk s m imm) := by
  show Option.map _ (bitNumberOf imm) = _
  rw [Sys2Proof.Laws.bitNumberOf_natCast]; rfl

theorem Sys2Proof.Laws.InstrFormRoundTrip.btglLr (blk : Blk) (s m n : Reg) :
    Statement (.btglLr blk s m n) := rfl

theorem Sys2Proof.Laws.InstrFormRoundTrip.btglLi (blk : Blk) (s m : Reg) (imm : Nat) :
    Statement (.btglLi blk s m imm) := by
  show Option.map _ (bitNumberOf imm) = _
  rw [Sys2Proof.Laws.bitNumberOf_natCast]; rfl

theorem Sys2Proof.Laws.InstrFormRoundTrip.bitestNr (blk : Blk) (m n : Reg) :
    Statement (.bitestNr blk m n) := rfl

theorem Sys2Proof.Laws.InstrFormRoundTrip.bitestNi (blk : Blk) (m : Reg) (imm : Nat) :
    Statement (.bitestNi blk m imm) := by
  show Option.map _ (bitNumberOf imm) = _
  rw [Sys2Proof.Laws.bitNumberOf_natCast]; rfl

theorem Sys2Proof.Laws.InstrFormRoundTrip.bitestLr (blk : Blk) (m n : Reg) :
    Statement (.bitestLr blk m n) := rfl

theorem Sys2Proof.Laws.InstrFormRoundTrip.bitestLi (blk : Blk) (m : Reg) (imm : Nat) :
    Statement (.bitestLi blk m imm) := by
  show Option.map _ (bitNumberOf imm) = _
  rw [Sys2Proof.Laws.bitNumberOf_natCast]; rfl

theorem Sys2Proof.Laws.InstrFormRoundTrip.fextNr (blk : Blk) (s m n : Reg) (se : Bool) :
    Statement (.fextNr blk s m n se) := by cases se <;> rfl

theorem Sys2Proof.Laws.InstrFormRoundTrip.fextNd (blk : Blk) (s m n : Reg) (se : Bool) :
    Statement (.fextNd blk s m n se) := by cases se <;> rfl

theorem Sys2Proof.Laws.InstrFormRoundTrip.fextLr (blk : Blk) (s m n : Reg) (se : Bool) :
    Statement (.fextLr blk s m n se) := by cases se <;> rfl

theorem Sys2Proof.Laws.InstrFormRoundTrip.fextLd (blk : Blk) (s m n : Reg) (se : Bool) :
    Statement (.fextLd blk s m n se) := by cases se <;> rfl

theorem Sys2Proof.Laws.InstrFormRoundTrip.fdepNr (blk : Blk) (s m n : Reg) (fill : Fill) :
    Statement (.fdepNr blk s m n fill) := by cases fill <;> rfl

theorem Sys2Proof.Laws.InstrFormRoundTrip.fdepNd (blk : Blk) (s m n : Reg) (fill : Fill) :
    Statement (.fdepNd blk s m n fill) := by cases fill <;> rfl

theorem Sys2Proof.Laws.InstrFormRoundTrip.fdepLr (blk : Blk) (s m n : Reg) (fill : Fill) :
    Statement (.fdepLr blk s m n fill) := by cases fill <;> rfl

theorem Sys2Proof.Laws.InstrFormRoundTrip.fdepLd (blk : Blk) (s m n : Reg) (fill : Fill) :
    Statement (.fdepLd blk s m n fill) := by cases fill <;> rfl

theorem Sys2Proof.Laws.InstrFormRoundTrip.maskN (blk : Blk) (s m n : Reg) :
    Statement (.maskN blk s m n) := rfl

theorem Sys2Proof.Laws.InstrFormRoundTrip.maskL (blk : Blk) (s m n : Reg) :
    Statement (.maskL blk s m n) := rfl

theorem Sys2Proof.Laws.InstrFormRoundTrip.statLoad (side : Side) (m : Reg) :
    Statement (.statLoad side m) := by cases side <;> rfl

theorem Sys2Proof.Laws.InstrFormRoundTrip.statlLoad (side : Side) (m : Reg) :
    Statement (.statlLoad side m) := by cases side <;> rfl

theorem Sys2Proof.Laws.InstrFormRoundTrip.statStore (side : Side) (s : Reg) :
    Statement (.statStore side s) := by cases side <;> rfl

theorem Sys2Proof.Laws.InstrFormRoundTrip.ld0N (blk : Blk) (s m : Reg) :
    Statement (.ld0N blk s m) := rfl

theorem Sys2Proof.Laws.InstrFormRoundTrip.ld0L (blk : Blk) (s m : Reg) :
    Statement (.ld0L blk s m) := rfl

theorem Sys2Proof.Laws.InstrFormRoundTrip.ld1N (blk : Blk) (s m : Reg) :
    Statement (.ld1N blk s m) := rfl

theorem Sys2Proof.Laws.InstrFormRoundTrip.ld1L (blk : Blk) (s m : Reg) :
    Statement (.ld1L blk s m) := rfl

theorem Sys2Proof.Laws.InstrFormRoundTrip.expN (blk : Blk) (s m : Reg) :
    Statement (.expN blk s m) := rfl

theorem Sys2Proof.Laws.InstrFormRoundTrip.expL (blk : Blk) (s m : Reg) :
    Statement (.expL blk s m) := rfl

theorem Sys2Proof.Laws.InstrFormRoundTrip.bkfpt (blk : Blk) (m n : Reg) :
    Statement (.bkfpt blk m n) := rfl

theorem Sys2Proof.Laws.InstrFormRoundTrip.getbits (blk : Blk) (s m n : Reg) (se : Bool) :
    Statement (.getbits blk s m n se) := by cases se <;> rfl

theorem Sys2Proof.Laws.InstrFormRoundTrip.putbits (blk : Blk) (s m n : Reg) :
    Statement (.putbits blk s m n) := rfl

theorem Sys2Proof.Laws.InstrFormRoundTrip.bfotmpStore (blk : Blk) (s : Reg) :
    Statement (.bfotmpStore blk s) := rfl

theorem Sys2Proof.Laws.InstrFormRoundTrip.bfotmpLoad (blk : Blk) (m : Reg) :
    Statement (.bfotmpLoad blk m) := rfl
end

