-- ==== Sys2Proof/Laws/Step.lean ====
section
/-! SUPPORT. What a line and a step can do, said once; invariants of steps cite these and unfold no instruction. -/

namespace Sys2Proof.Machine

open Sys2Proof Sys2Proof.Safety

/-- Every meaning is one function of a block, applied in the blocks the instruction names where they are in its domain. -/
theorem exec_eq_onBlocksWithin (i : Instr) : ∃ (ok : Block → Bool) (f : Side → Block → Block),
    (∀ b, ok b = true ↔ Domain i b) ∧ ∀ σ, exec i σ = σ.onBlocksWithin i.blk ok f := by
  cases i
  case fextNr => exact ⟨_, _, fun b => by rw [fieldInside_iff, pos8_eq, len7_eq]; rfl, fun _ => rfl⟩
  case fdepNr => exact ⟨_, _, fun b => by rw [fieldInside_iff, pos8_eq, len7_eq]; rfl, fun _ => rfl⟩
  case fextLr => exact ⟨_, _, fun b => by rw [fieldInside_iff, pos8_eq, len7_eq]; rfl, fun _ => rfl⟩
  case fdepLr => exact ⟨_, _, fun b => by rw [fieldInside_iff, pos8_eq, len7_eq]; rfl, fun _ => rfl⟩
  case fextNd => exact ⟨_, _, fun b => by rw [fieldInside_iff, pos8Dual_dual, len7_dual]; rfl, fun _ => rfl⟩
  case fdepNd => exact ⟨_, _, fun b => by rw [fieldInside_iff, pos8Dual_dual, len7_dual]; rfl, fun _ => rfl⟩
  case fextLd => exact ⟨_, _, fun b => by rw [fieldInside_iff, pos8Dual_dual, len7_dual]; rfl, fun _ => rfl⟩
  case fdepLd => exact ⟨_, _, fun b => by rw [fieldInside_iff, pos8Dual_dual, len7_dual]; rfl, fun _ => rfl⟩
  case getbits => exact ⟨_, _, fun b => by rw [decide_eq_true_iff, len7_dual]; rfl, fun _ => rfl⟩
  all_goals exact ⟨fun _ => true, _, fun _ => ⟨fun _ => trivial, fun _ => rfl⟩, fun _ => (onBlocksWithin_true _ _ _).symm⟩

/-- What an instruction does in its domain, and out of it. -/
theorem exec_domain (i : Instr) : ∃ f : Side → Block → Block,
    (∀ σ, InDomain i σ → exec i σ = .next (σ.onBlocks i.blk f)) ∧
    ∀ σ, ¬ InDomain i σ → exec i σ = .fault .outOfDomain := by
  obtain ⟨ok, f, hd, hf⟩ := exec_eq_onBlocksWithin i
  have hiff : ∀ σ : State, σ.inDomain i.blk ok = true ↔ InDomain i σ := fun σ => by
    simp only [inDomain_iff, hd, InDomain, Instr.runs]
  exact ⟨f, fun σ h => by rw [hf, State.onBlocksWithin, if_pos ((hiff σ).mpr h)],
    fun σ h => by rw [hf, State.onBlocksWithin, if_neg (mt (hiff σ).mp h)]⟩

/-- What an instruction that completes leaves in each block, and in the rest of the machine. -/
theorem exec_cases {i : Instr} {σ t : State} (h : exec i σ = .next t) :
    InDomain i σ ∧ ∃ f : Side → Block → Block,
      (∀ side, t.block side = if i.runs side then f side (σ.block side) else σ.block side) ∧
      (∀ σ', InDomain i σ' → exec i σ' = .next (σ'.onBlocks i.blk f)) ∧
      t.flags = σ.flags ∧ t.program = σ.program ∧ t.lc = σ.lc := by
  obtain ⟨f, hin, hout⟩ := exec_domain i
  by_cases hd : InDomain i σ
  · rw [hin σ hd] at h
    cases h
    exact ⟨hd, f, fun side => block_onBlocks _ _ _ side, hin, rfl, rfl, rfl⟩
  · rw [hout σ hd] at h
    cases h

/-- Does a slot execute, given the value of its line's condition? -/
def Runs (c : Bool) (sl : Slot) (side : Side) : Prop :=
  (sl.controlled = false ∨ c = true) ∧ sl.instr.runs side = true

theorem runCount_cons (side : Side) (sl : Slot) (rest : List Slot) :
    runCount side (sl :: rest) = runCount side rest + if sl.instr.runs side then 1 else 0 := by
  simp [runCount, List.countP_cons]

theorem runCount_eq_zero {side : Side} {slots : List Slot} (h : runCount side slots = 0) :
    ∀ sl, sl ∈ slots → sl.instr.runs side = false := by
  intro sl hsl
  have := (List.countP_eq_zero.mp h) sl hsl
  simpa using this

/-- All that the slots of a line do where each that executes is in its domain: each block is as the one executing slot leaves it, or as it was gathered before. -/
theorem runSlots_spec (c : Bool) (pre : State) (slots : List Slot) (acc : State)
    (h1 : ∀ side, runCount side slots ≤ 1)
    (hd : ∀ sl, sl ∈ slots → sl.controlled = false ∨ c = true → InDomain sl.instr pre) :
    ∃ u, runSlots c pre slots acc = .next u ∧ u.flags = acc.flags ∧ u.program = acc.program ∧ u.lc = acc.lc ∧
      ∀ side,
        (∀ sl v, sl ∈ slots → Runs c sl side → exec sl.instr pre = .next v → u.block side = v.block side) ∧
        ((∀ sl, sl ∈ slots → ¬ Runs c sl side) → u.block side = acc.block side) := by
  induction slots generalizing acc with
  | nil => exact ⟨acc, rfl, rfl, rfl, rfl, fun side => ⟨fun sl v h => absurd h (List.not_mem_nil), fun _ => rfl⟩⟩
  | cons sl rest ih =>
    have h1' : ∀ side, runCount side rest ≤ 1 := fun side => by
      have := h1 side
      rw [runCount_cons] at this
      omega
    have hd' : ∀ sl, sl ∈ rest → sl.controlled = false ∨ c = true → InDomain sl.instr pre := fun sl hm =>
      hd sl (List.mem_cons_of_mem _ hm)
    by_cases hs : (sl.controlled && !c) = true
    · obtain ⟨u, hu, hf, hp, hl, hb⟩ := ih acc h1' hd'
      have hno : ∀ side, ¬ Runs c sl side := fun side hr => by
        rcases hr.1 with h | h <;> simp [h] at hs
      refine ⟨u, by rw [runSlots, if_pos hs]; exact hu, hf, hp, hl, fun side => ⟨fun sl' v hm hr he => ?_, fun hn => ?_⟩⟩
      · rcases List.mem_cons.mp hm with rfl | hm
        · exact absurd hr (hno side)
        · exact (hb side).1 sl' v hm hr he
      · exact (hb side).2 fun sl' hm => hn sl' (List.mem_cons_of_mem _ hm)
    · have hex : sl.controlled = false ∨ c = true := by
        cases hc : sl.controlled <;> cases c <;> simp_all
      obtain ⟨f, hf', -⟩ := exec_domain sl.instr
      have hf := hf' pre (hd sl List.mem_cons_self hex)
      obtain ⟨u, hu, hfl, hp, hl, hb⟩ := ih (acc.takeBlocks sl.instr (pre.onBlocks sl.instr.blk f)) h1' hd'
      refine ⟨u, by rw [runSlots, if_neg hs, hf]; exact hu, hfl, hp, hl, fun side => ⟨fun sl' v hm hr he => ?_, fun hn => ?_⟩⟩
      · rcases List.mem_cons.mp hm with rfl | hm
        · have h0 : runCount side rest = 0 := by
            have := h1 side
            rw [runCount_cons, hr.2] at this
            simpa using this
          rw [(hb side).2 fun sl'' hm hr'' =>
            absurd hr''.2 (by rw [runCount_eq_zero h0 _ hm]; decide),
            block_takeBlocks, hr.2]
          rw [hf] at he
          cases he
          rfl
        · exact (hb side).1 sl' v hm hr he
      · rw [(hb side).2 fun sl' hm => hn sl' (List.mem_cons_of_mem _ hm), block_takeBlocks]
        have : sl.instr.runs side = false := by
          by_contra hr
          exact hn sl (List.mem_cons_self) ⟨hex, by simpa using hr⟩
        rw [this]; rfl

/-- A slot that executes out of its domain stops the line. -/
theorem runSlots_outOfDomain {c : Bool} {pre : State} {slots : List Slot} {sl : Slot} (hm : sl ∈ slots)
    (hex : sl.controlled = false ∨ c = true) (hd : ¬ InDomain sl.instr pre) (acc : State) :
    runSlots c pre slots acc = .fault .outOfDomain := by
  induction slots generalizing acc with
  | nil => cases hm
  | cons sl' rest ih =>
    by_cases hm' : sl ∈ rest
    · rw [runSlots]
      split
      · exact ih hm' acc
      · obtain ⟨f, hin, hout⟩ := exec_domain sl'.instr
        by_cases hd' : InDomain sl'.instr pre
        · rw [hin pre hd']; exact ih hm' _
        · rw [hout pre hd']
    · have he : sl = sl' := (List.mem_cons.mp hm).resolve_right hm'
      subst he
      have hs : ¬ (sl.controlled && !c) = true := by
        rcases hex with h | h <;> simp [h]
      obtain ⟨f, hin, hout⟩ := exec_domain sl.instr
      rw [runSlots, if_neg hs, hout pre hd]

/-- What a well-formed line of slots is. -/
theorem wf_issue {cond : Option Cond} {slots : List Slot} (h : (Line.issue cond slots).wf = true) :
    slots ≠ [] ∧ slots.length ≤ maxSlots cond ∧ (∀ side, runCount side slots ≤ 1) ∧ condProblem cond slots = none ∧
      ∀ sl, sl ∈ slots → sl.instr.wf = true := by
  simp only [Line.wf, Line.problem] at h
  split at h
  · simp at h
  · rename_i hlen
    split at h
    · simp at h
    · rename_i hrun
      split at h
      · simp at h
      · rename_i hc
        refine ⟨fun he => hlen (Or.inl (by simp [he])), by omega, fun side => ?_, hc, fun sl hsl => ?_⟩
        · cases side <;> omega
        · have := List.findSome?_eq_none_iff.mp (Option.isNone_iff_eq_none.mp h) sl hsl
          simp [Instr.wf, this]

/-- A decoded line is well formed. -/
theorem decodeLine_cases {t : Text} {l : Line} (h : decodeLine t = .ok l) :
    l.wf = true ∧ ∃ ts, lex t = .ok ts ∧ lineOf ts = .ok l := by
  unfold decodeLine at h
  split at h
  · cases h
  · rename_i ts hts
    split at h
    · cases h
    · rename_i l' hl
      split at h
      · cases h
      · rename_i hp
        cases h
        exact ⟨by simp [Line.wf, hp], ts, hts, hl⟩

/-- All that a line does where it is in its domain. -/
theorem execLine_spec {l : Line} (hwf : l.wf = true) {s : State} (hd : LineInDomain l s) :
    ∃ u, execLine l s = .next u ∧ u.program = s.program ∧ u.lc = s.lc := by
  cases l with
  | flagLoad dst f src c => exact ⟨_, rfl, rfl, rfl⟩
  | issue cond slots =>
    obtain ⟨u, hu, _, hp, hl, _⟩ := runSlots_spec (condValue cond slots s) s slots s (wf_issue hwf).2.2.1 hd
    exact ⟨u, hu, hp, hl⟩

/-- A line out of its domain stops. -/
theorem execLine_outOfDomain {l : Line} {s : State} (hd : ¬ LineInDomain l s) : execLine l s = .fault .outOfDomain := by
  cases l with
  | flagLoad dst f src c => exact absurd trivial hd
  | issue cond slots =>
    simp only [LineInDomain, not_forall] at hd
    obtain ⟨sl, hm, hex, hd⟩ := hd
    exact runSlots_outOfDomain hm hex hd s

theorem fetch_eq_some {s : State} {t : Text} (h : s.fetch = some t) : s.lc < s.program.length := by
  by_contra hn
  rw [State.fetch, List.getElem?_eq_none (by omega)] at h
  cases h

/-- The four things a step can do: run a line, stop out of its domain, refuse a text, or find the run over. -/
theorem step_cases (s : State) :
    (∃ t l u, s.fetch = some t ∧ decodeLine t = .ok l ∧ l.wf = true ∧ LineInDomain l s ∧ execLine l s = .next u ∧
      step s = .next u.advance ∧ u.program = s.program ∧ u.lc = s.lc) ∨
    (∃ t l, s.fetch = some t ∧ decodeLine t = .ok l ∧ ¬ LineInDomain l s ∧ step s = .fault .outOfDomain) ∨
    (∃ t e, s.fetch = some t ∧ decodeLine t = .error e ∧ step s = .refused (.notALine e)) ∨
    (s.fetch = none ∧ step s = .fault .programEnd) := by
  unfold step
  cases hf : s.fetch with
  | none => exact .inr (.inr (.inr ⟨rfl, rfl⟩))
  | some t =>
    cases hd : decodeLine t with
    | error e => exact .inr (.inr (.inl ⟨t, e, rfl, hd, by simp [runText, hd]⟩))
    | ok l =>
      by_cases hin : LineInDomain l s
      · have hwf := (decodeLine_cases hd).1
        obtain ⟨u, hu, hp, hl⟩ := execLine_spec hwf hin
        exact .inl ⟨t, l, u, rfl, hd, hwf, hin, hu, by simp [runText, hd, runLine, hu], hp, hl⟩
      · exact .inr (.inl ⟨t, l, rfl, hd, hin, by simp [runText, hd, runLine, execLine_outOfDomain hin]⟩)

end Sys2Proof.Machine
end

