-- ==== Sys2Proof/Laws/Text.lean ====
section
/-! SUPPORT. What the lexer and the parser read from text and tokens that the encoder spells. -/

namespace Sys2Proof

/-! ## The lexer -/

/-- A character of a word as the encoder writes it: a digit or a capital. -/
def wordByte (c : Byte) : Prop := (48 ≤ c.toNat ∧ c.toNat ≤ 57) ∨ (65 ≤ c.toNat ∧ c.toNat ≤ 90)

/-- A token the encoder may write. -/
def Token.spellable : Token → Prop
  | .word w => w ≠ [] ∧ ∀ c, c ∈ w → wordByte c
  | _ => True

theorem classify_wordByte {c : Byte} (h : wordByte c) : classify c = .word := by
  unfold wordByte at h
  unfold classify
  dsimp only
  rw [if_neg (by omega), if_pos (by omega)]

theorem upper_wordByte {c : Byte} (h : wordByte c) : upper c = c := by
  unfold wordByte at h
  rw [upper, if_neg (by omega)]

/-- Reading on through the characters of a word. -/
theorem lexFrom_word_chars (u w t : Text) (h : ∀ c, c ∈ w → wordByte c) :
    lexFrom (.word u) (w ++ t) = lexFrom (.word (u ++ w)) t := by
  induction w generalizing u with
  | nil => simp
  | cons c cs ih =>
    have hc := h c (List.mem_cons_self)
    rw [List.cons_append, lexFrom, lexStep, classify_wordByte hc, upper_wordByte hc]
    dsimp only
    rw [ih _ fun d hd => h d (List.mem_cons_of_mem _ hd)]
    cases h' : lexFrom (.word (u ++ c :: cs)) t <;> simp [h', List.append_assoc]

/-- The mode the lexer is in after the text of a token. -/
def Token.after : Token → LexMode
  | .word w => .word w
  | .semi => .semi
  | _ => .gap

/-- The tokens the lexer has given after the text of a token. -/
def Token.given : Token → List Token
  | .word _ => []
  | .semi => []
  | t => [t]

theorem Token.given_pending (t : Token) : t.given ++ t.after.pending = [t] := by cases t <;> rfl

/-- Tokens put before what a lexer reads. -/
def prepend (ts : List Token) : Except DecodeError (List Token) → Except DecodeError (List Token)
  | .ok us => .ok (ts ++ us)
  | .error e => .error e

theorem prepend_nil (r : Except DecodeError (List Token)) : prepend [] r = r := by cases r <;> rfl

theorem prepend_prepend (ts us : List Token) (r : Except DecodeError (List Token)) :
    prepend ts (prepend us r) = prepend (ts ++ us) r := by cases r <;> simp [prepend]

theorem lexFrom_cons (m : LexMode) (c : Byte) (cs : Text) :
    lexFrom m (c :: cs) = match lexStep m c with
      | .ok p => prepend p.1 (lexFrom p.2 cs)
      | .error e => .error e := by
  rw [lexFrom]
  cases lexStep m c with
  | error e => rfl
  | ok p => cases h : lexFrom p.2 cs <;> simp [prepend, h]

/-- Reading the text of one token from a gap. -/
theorem lexFrom_spell (tk : Token) (h : tk.spellable) (t : Text) :
    lexFrom .gap (tk.spell ++ t) = prepend tk.given (lexFrom tk.after t) := by
  cases tk with
  | word w =>
    obtain ⟨hne, hw⟩ := h
    cases w with
    | nil => exact absurd rfl hne
    | cons c cs =>
      have hc := hw c (List.mem_cons_self)
      have hs : lexStep .gap c = .ok ([], .word [c]) := by
        simp [lexStep, flushThen, startToken, classify_wordByte hc, upper_wordByte hc, LexMode.pending]
      have : Token.spell (.word (c :: cs)) = c :: cs := rfl
      rw [this, List.cons_append, lexFrom_cons, hs]
      dsimp only [Token.given, Token.after]
      rw [lexFrom_word_chars [c] cs t fun d hd => hw d (List.mem_cons_of_mem _ hd)]
      rfl
  | eq => exact lexFrom_cons _ _ _
  | plusEq =>
    have : Token.spell .plusEq ++ t = byteOf '+' :: byteOf '=' :: t := rfl
    rw [this, lexFrom_cons]
    exact (prepend_nil _).trans (lexFrom_cons _ _ _)
  | semi => exact (lexFrom_cons _ _ _)
  | lineEnd =>
    have : Token.spell .lineEnd ++ t = byteOf ';' :: byteOf ';' :: t := rfl
    rw [this, lexFrom_cons]
    exact (prepend_nil _).trans (lexFrom_cons _ _ _)
  | comma => exact lexFrom_cons _ _ _
  | colon => exact lexFrom_cons _ _ _
  | minus => exact lexFrom_cons _ _ _
  | lpar => exact lexFrom_cons _ _ _
  | rpar => exact lexFrom_cons _ _ _

/-- A blank ends what a token's mode holds back. -/
theorem lexFrom_blank (tk : Token) (t : Text) :
    lexFrom tk.after (txt " " ++ t) = prepend tk.after.pending (lexFrom .gap t) := by
  have : txt " " ++ t = byteOf ' ' :: t := rfl
  rw [this, lexFrom_cons]
  cases tk <;> rfl

theorem lexFrom_flush {m m' : LexMode} {c : Byte} {ts : List Token} (t : Text) (h1 : lexStep m c = .ok (m.pending ++ ts, m'))
    (h2 : lexStep .gap c = .ok (ts, m')) : lexFrom m (c :: t) = prepend m.pending (lexFrom .gap (c :: t)) := by
  rw [lexFrom_cons, lexFrom_cons, h1, h2]
  exact (prepend_prepend _ _ _).symm

/-- A glued token ends what a token's mode holds back. -/
theorem lexFrom_glued (tk u : Token) (hg : glued tk u = true) (hs : ¬ (tk = .semi ∧ u = .semi)) (t : Text) :
    lexFrom tk.after (u.spell ++ t) = prepend tk.after.pending (lexFrom .gap (u.spell ++ t)) := by
  cases tk with
  | word w =>
    cases u with
    | comma => exact lexFrom_flush (m' := .gap) (ts := [.comma]) t rfl rfl
    | colon => exact lexFrom_flush (m' := .gap) (ts := [.colon]) t rfl rfl
    | rpar => exact lexFrom_flush (m' := .gap) (ts := [.rpar]) t rfl rfl
    | semi => exact lexFrom_flush (m' := .semi) (ts := []) t rfl rfl
    | _ => cases hg
  | semi =>
    cases u with
    | comma => exact lexFrom_flush (m' := .gap) (ts := [.comma]) t rfl rfl
    | colon => exact lexFrom_flush (m' := .gap) (ts := [.colon]) t rfl rfl
    | rpar => exact lexFrom_flush (m' := .gap) (ts := [.rpar]) t rfl rfl
    | semi => exact absurd ⟨rfl, rfl⟩ hs
    | _ => cases hg
  | _ => exact (prepend_nil _).symm

/-- No `;` right after a `;`. -/
def NoDoubleSemi : List Token → Prop
  | [] => True
  | [_] => True
  | t :: u :: rest => ¬ (t = .semi ∧ u = .semi) ∧ NoDoubleSemi (u :: rest)

/-- The lexer reads back the tokens that were written. -/
theorem lex_render (ts : List Token) (hok : ∀ t, t ∈ ts → t.spellable) (hs : NoDoubleSemi ts) : lex (render ts) = .ok ts := by
  unfold lex
  induction ts with
  | nil => rfl
  | cons t rest ih =>
    have ht := hok t (List.mem_cons_self)
    cases rest with
    | nil =>
      have := lexFrom_spell t ht []
      rw [List.append_nil] at this
      rw [render, this]
      cases t <;> rfl
    | cons u rest =>
      have ih := ih (fun v hv => hok v (List.mem_cons_of_mem _ hv)) hs.2
      have hr : ∃ x, render (u :: rest) = u.spell ++ x := by
        cases rest with
        | nil => exact ⟨[], by simp [render]⟩
        | cons v r => exact ⟨_, by rw [render, List.append_assoc]⟩
      rw [render, List.append_assoc, lexFrom_spell t ht]
      have key : lexFrom t.after ((if glued t u then [] else txt " ") ++ render (u :: rest)) =
          prepend t.after.pending (lexFrom .gap (render (u :: rest))) := by
        by_cases hg : glued t u = true
        · obtain ⟨x, hx⟩ := hr
          rw [if_pos hg, List.nil_append, hx]
          exact lexFrom_glued t u hg hs.1 x
        · rw [if_neg hg]
          exact lexFrom_blank t _
      rw [key, ih, prepend_prepend, Token.given_pending]
      rfl


/-! ## Numbers and operands -/

theorem digitByte_toNat (n : Nat) : (digitByte n).toNat = 48 + n % 10 := by
  simp only [digitByte, BitVec.toNat_ofNat]
  omega

theorem digitValue_digitByte (n : Nat) : digitValue 10 (digitByte n) = some (n % 10) := by
  have h : 48 ≤ 48 + n % 10 ∧ 48 + n % 10 ≤ 57 := by omega
  have h' : 48 + n % 10 - 48 = n % 10 := by omega
  have h'' : n % 10 < 10 := by omega
  simp only [digitValue, digitByte_toNat, if_pos h, h', if_pos h'']

theorem digitsValue_append (base : Nat) (u v : Text) (acc : Nat) :
    digitsValue base (u ++ v) acc = (digitsValue base u acc).bind (digitsValue base v) := by
  induction u generalizing acc with
  | nil => rfl
  | cons c u ih =>
    simp only [List.cons_append, digitsValue]
    cases digitValue base c with
    | none => rfl
    | some d => exact ih _

theorem digitsValue_spellDigits (fuel n : Nat) (h : n < fuel) : digitsValue 10 (spellDigits fuel n) 0 = some n := by
  induction fuel generalizing n with
  | zero => omega
  | succ fuel ih =>
    rw [spellDigits]
    split
    · have : n % 10 = n := by omega
      simp [digitsValue, digitValue_digitByte, this]
    · have h2 : n / 10 * 10 + n % 10 = n := by omega
      rw [digitsValue_append, ih _ (by omega)]
      simp only [Option.bind_some, digitsValue, digitValue_digitByte, h2]

theorem spellNumber_ne_nil (n : Nat) : spellNumber n ≠ [] := by
  unfold spellNumber spellDigits
  split <;> simp

theorem readDecimal_spellNumber (n : Nat) : readDecimal (spellNumber n) = some n := by
  rw [readDecimal, if_neg (spellNumber_ne_nil n)]
  exact digitsValue_spellDigits _ _ (Nat.lt_succ_self n)

theorem digit_of_mem_spellNumber {n : Nat} {c : Byte} (h : c ∈ spellNumber n) : 48 ≤ c.toNat ∧ c.toNat ≤ 57 := by
  have key : ∀ fuel m, c ∈ spellDigits fuel m → 48 ≤ c.toNat ∧ c.toNat ≤ 57 := by
    intro fuel
    induction fuel with
    | zero => intro m hm; simp [spellDigits] at hm
    | succ fuel ih =>
      intro m hm
      rw [spellDigits] at hm
      have hd : c = digitByte m → 48 ≤ c.toNat ∧ c.toNat ≤ 57 := fun e => by rw [e, digitByte_toNat]; omega
      split at hm
      · exact hd (List.mem_singleton.mp hm)
      · rcases List.mem_append.mp hm with hm | hm
        · exact ih _ hm
        · exact hd (List.mem_singleton.mp hm)
  exact key _ _ h

theorem readLiteral_spellNumber (n : Nat) : readLiteral (spellNumber n) = some n := by
  unfold readLiteral
  split
  · rename_i z x h he
    have hx := (digit_of_mem_spellNumber (n := n) (c := x) (by rw [he]; simp)).2
    rw [if_neg (by rintro ⟨_, e, _⟩; rw [e] at hx; revert hx; decide)]
    exact readDecimal_spellNumber n
  · exact readDecimal_spellNumber n

theorem readLiteral_register (n : Nat) : readLiteral (txt "R" ++ spellNumber n) = none := by
  have h : readDecimal (byteOf 'R' :: spellNumber n) = none := rfl
  have e : txt "R" ++ spellNumber n = byteOf 'R' :: spellNumber n := rfl
  rw [e]
  unfold readLiteral
  split
  · rename_i z x t he
    rw [if_neg (by rintro ⟨e, _, _⟩; rw [(List.cons.inj he).1.symm] at e; revert e; decide)]
    exact h
  · exact h

theorem registerNumber_register (n : Nat) : registerNumber (txt "R" ++ spellNumber n) = some n :=
  readDecimal_spellNumber n

theorem wordByte_spellNumber (n : Nat) : ∀ c, c ∈ spellNumber n → wordByte c := fun _ hc =>
  .inl (digit_of_mem_spellNumber hc)

/-- The number an operand's name begins with. -/
def Operand.top : Operand → Nat
  | .single r => r.val
  | .dual r => r.val + 1
  | .quad r => r.val + 3

/-- The tokens of an operand after its first word. -/
def Operand.rest : Operand → List Token
  | .single _ => []
  | .dual r => [.colon, .word (spellNumber r.val)]
  | .quad r => [.colon, .word (spellNumber r.val)]

theorem Operand.tokens_eq (o : Operand) (lead : Text) :
    o.tokens lead = .word (lead ++ txt "R" ++ spellNumber o.top) :: o.rest := by cases o <;> rfl

theorem regOf_val (r : Reg) : regOf r.val = some r := by simp [regOf]

/-- Tokens that do not go on with a colon. -/
def NoColon (ts : List Token) : Prop := ts.head? ≠ some .colon

theorem operandFrom_spelled (o : Operand) (ts : List Token) (h : NoColon ts) :
    operandFrom (txt "R" ++ spellNumber o.top) (o.rest ++ ts) = some (o, ts) := by
  unfold operandFrom
  rw [registerNumber_register]
  cases o with
  | single r =>
    simp only [Operand.rest, Operand.top, List.nil_append]
    split
    · exact absurd rfl h
    · rw [regOf_val]; rfl
  | dual r =>
    have := r.isLt
    simp only [Operand.rest, Operand.top, List.cons_append, List.nil_append]
    rw [readDecimal_spellNumber]
    simp [operandOfPair, regOf_val]
  | quad r =>
    have := r.isLt
    simp only [Operand.rest, Operand.top, List.cons_append, List.nil_append]
    rw [readDecimal_spellNumber]
    simp [operandOfPair, regOf_val]

theorem takeOperand_tokens (o : Operand) (ts : List Token) (h : NoColon ts) :
    takeOperand (o.tokens [] ++ ts) = some (o, ts) := by
  rw [o.tokens_eq]
  exact operandFrom_spelled o ts h

theorem takeControl_tokens (c : Control) (ts : List Token) (h : NoColon ts) :
    takeControl (c.tokens ++ ts) = some (c, ts) := by
  cases c with
  | reg o =>
    have hl := readLiteral_register o.top
    have ho := operandFrom_spelled o ts h
    simp only [Control.tokens, o.tokens_eq, List.nil_append, List.cons_append, takeControl]
    rw [hl, ho]; rfl
  | imm k =>
    by_cases hk : k < 0
    · have e : -(((-k).toNat : Nat) : Int) = k := by omega
      simp only [Control.tokens, immTokens, hk, if_true, List.cons_append, List.nil_append, takeControl]
      rw [readDecimal_spellNumber]
      show some (Control.imm (-(((-k).toNat : Nat) : Int)), ts) = _
      rw [e]
    · have e : ((k.toNat : Nat) : Int) = k := by omega
      simp only [Control.tokens, immTokens, hk, if_false, List.cons_append, List.nil_append, takeControl]
      rw [readLiteral_spellNumber]
      show some (Control.imm ((k.toNat : Nat) : Int), ts) = _
      rw [e]

theorem noColon_nil : NoColon [] := by simp [NoColon]

theorem noColon_cons {t : Token} (ts : List Token) (h : t ≠ .colon) : NoColon (t :: ts) := by simp [NoColon, h]

theorem noColon_optTokens (o : Option Opt) : NoColon (optTokens o) := by
  cases o with
  | none => exact noColon_nil
  | some o => cases o <;> exact noColon_cons _ (by decide)

theorem noColon_control (c : Option Control) (o : Option Opt) : NoColon (controlTokens c ++ optTokens o) := by
  cases c with
  | none => exact noColon_optTokens o
  | some c => exact noColon_cons _ (by intro h; cases h)

theorem optionAt_optTokens (o : Option Opt) : optionAt (optTokens o) = some o := by
  cases o with
  | none => rfl
  | some o => cases o <;> decide

theorem controlAndOption_tokens (c : Option Control) (o : Option Opt) :
    controlAndOption (controlTokens c ++ optTokens o) = some (c, o) := by
  cases c with
  | none =>
    cases o with
    | none => rfl
    | some o => cases o <;> decide
  | some c =>
    simp only [controlTokens, List.cons_append, controlAndOption, if_true]
    rw [takeControl_tokens c _ (noColon_optTokens o)]
    simp [optionAt_optTokens]

/-! ## Forms -/

/-- The letters before a register name. -/
theorem splitBlock_spell (blk : Blk) (a : Byte) (r : Text) (hy : a ≠ byteOf 'Y') :
    splitBlock (blk.spell ++ a :: r) = (blk, a :: r) := by
  cases blk
  · show splitBlock (byteOf 'X' :: a :: r) = _
    simp [splitBlock, hy, show byteOf 'X' ≠ byteOf 'Y' by decide]
  · rfl
  · rfl

theorem splitSize_spell (size : Size) (r : Text) :
    splitSize (size.spell ++ byteOf 'R' :: r) = (size, byteOf 'R' :: r) := by
  cases size <;> rfl

theorem find_spell (mn : Mnemonic) : Mnemonic.all.find? (fun m => m.spell = mn.spell) = some mn := by
  cases mn <;> decide

theorem sourceForm_op (blk : Blk) (size : Size) (dest : Operand) (rmw : Bool) (mn : Mnemonic) (data : Operand)
    (c : Option Control) (o : Option Opt) :
    sourceForm blk size dest rmw (.word mn.spell :: data.tokens [] ++ controlTokens c ++ optTokens o) =
      some (.op blk size dest rmw mn data c o) := by
  rw [List.append_assoc, List.cons_append, sourceForm]
  have hne : data.tokens [] ++ (controlTokens c ++ optTokens o) ≠ [] := by rw [data.tokens_eq]; simp
  rw [if_neg hne, find_spell]
  dsimp only
  rw [takeOperand_tokens data _ (noColon_control c o)]
  dsimp only
  rw [controlAndOption_tokens c o]
  rfl

/-- The first word of a slot that begins with a result register is no other opening word. -/
theorem result_word_ne (size : Size) (r : Text) :
    size.spell ++ byteOf 'R' :: r ≠ txt "BITEST" ∧ size.spell ++ byteOf 'R' :: r ≠ txt "BKFPT" ∧
    size.spell ++ byteOf 'R' :: r ≠ txt "BFOTMP" ∧ size.spell ++ byteOf 'R' :: r ≠ txt "STAT" ∧
    size.spell ++ byteOf 'R' :: r ≠ txt "STATL" := by
  have e1 : txt "BITEST" = byteOf 'B' :: byteOf 'I' :: txt "TEST" := rfl
  have e2 : txt "BKFPT" = byteOf 'B' :: byteOf 'K' :: txt "FPT" := rfl
  have e3 : txt "BFOTMP" = byteOf 'B' :: byteOf 'F' :: txt "OTMP" := rfl
  have e4 : txt "STAT" = byteOf 'S' :: byteOf 'T' :: txt "AT" := rfl
  have e5 : txt "STATL" = byteOf 'S' :: byteOf 'T' :: txt "ATL" := rfl
  have n1 : byteOf 'R' ≠ byteOf 'B' := by decide
  have n2 : byteOf 'R' ≠ byteOf 'S' := by decide
  have n3 : byteOf 'R' ≠ byteOf 'I' := by decide
  have n4 : byteOf 'R' ≠ byteOf 'K' := by decide
  have n5 : byteOf 'R' ≠ byteOf 'F' := by decide
  have n6 : byteOf 'R' ≠ byteOf 'T' := by decide
  have n7 : byteOf 'L' ≠ byteOf 'B' := by decide
  have n8 : byteOf 'L' ≠ byteOf 'S' := by decide
  have n9 : byteOf 'B' ≠ byteOf 'S' := by decide
  have n10 : byteOf 'S' ≠ byteOf 'B' := by decide
  have s1 : Size.spell .normal = [] := rfl
  have s2 : Size.spell .byte = [byteOf 'B'] := rfl
  have s3 : Size.spell .short = [byteOf 'S'] := rfl
  have s4 : Size.spell .long = [byteOf 'L'] := rfl
  rw [e1, e2, e3, e4, e5]
  cases size <;> simp only [s1, s2, s3, s4, List.nil_append, List.cons_append, List.cons.injEq, ne_eq] <;>
    simp [n1, n2, n3, n4, n5, n6, n7, n8, n9, n10]

theorem formOf_result (blk : Blk) (size : Size) (dest : Operand) (rmw : Bool) (src : List Token) :
    formOf (dest.tokens (blk.spell ++ size.spell) ++ (if rmw then .plusEq else .eq) :: src) =
      sourceForm blk size dest rmw src := by
  have hs : splitBlock (blk.spell ++ size.spell ++ txt "R" ++ spellNumber dest.top) =
      (blk, size.spell ++ byteOf 'R' :: spellNumber dest.top) := by
    have : blk.spell ++ size.spell ++ txt "R" ++ spellNumber dest.top =
        blk.spell ++ (size.spell ++ byteOf 'R' :: spellNumber dest.top) := by
      simp only [List.append_assoc]; rfl
    rw [this]
    cases size
    · exact splitBlock_spell _ _ _ (by decide)
    · exact splitBlock_spell _ _ _ (by decide)
    · exact splitBlock_spell _ _ _ (by decide)
    · exact splitBlock_spell _ _ _ (by decide)
  obtain ⟨h1, h2, h3, h4, h5⟩ := result_word_ne size (spellNumber dest.top)
  rw [dest.tokens_eq, List.cons_append, formOf, hs]
  dsimp only
  rw [if_neg h1, if_neg h2, if_neg h3, if_neg h4, if_neg h5, resultForm, splitSize_spell]
  have := operandFrom_spelled dest ((if rmw then .plusEq else .eq) :: src) (noColon_cons _ (by cases rmw <;> decide))
  have e : txt "R" ++ spellNumber dest.top = byteOf 'R' :: spellNumber dest.top := rfl
  rw [e] at this
  rw [this]
  cases rmw <;> rfl

theorem loadOperand_tokens (m : Operand) : loadOperand (.eq :: m.tokens []) = some m := by
  have := takeOperand_tokens m [] noColon_nil
  rw [List.append_nil] at this
  simp [loadOperand, this]

theorem takeOperand_tokens_nil (m : Operand) : takeOperand (m.tokens []) = some (m, []) := by
  have := takeOperand_tokens m [] noColon_nil
  rwa [List.append_nil] at this

/-- The parser reads back the surface form that was spelled. -/
theorem formOf_tokens (f : Form) : formOf f.tokens = some f := by
  cases f with
  | op blk size dest rmw mn data c o =>
    have e : Form.tokens (.op blk size dest rmw mn data c o) = dest.tokens (blk.spell ++ size.spell) ++
        ((if rmw then .plusEq else .eq) :: (.word mn.spell :: data.tokens [] ++ controlTokens c ++ optTokens o)) := by
      simp [Form.tokens, List.append_assoc]
    rw [e, formOf_result]
    exact sourceForm_op blk size dest _ mn data c o
  | bitest blk data c =>
    have hs : splitBlock (blk.spell ++ txt "BITEST") = (blk, txt "BITEST") := by cases blk <;> decide
    have hc := controlAndOption_tokens (some c) none
    have hd := takeOperand_tokens data (controlTokens (some c) ++ optTokens none) (noColon_control _ _)
    have e : controlTokens (some c) ++ optTokens none = controlTokens (some c) := by simp [optTokens]
    rw [e] at hc hd
    simp only [Form.tokens, List.cons_append, formOf, hs, if_true, bitestForm]
    rw [hd]; dsimp only; rw [hc]
  | bkfpt blk m n =>
    have hs : splitBlock (blk.spell ++ txt "BKFPT") = (blk, txt "BKFPT") := by cases blk <;> decide
    have h1 : txt "BKFPT" ≠ txt "BITEST" := by decide
    have hm := takeOperand_tokens m (.comma :: n.tokens []) (noColon_cons _ (by decide))
    simp only [Form.tokens, List.cons_append, formOf, hs, if_neg h1, if_true, bkfptForm]
    rw [hm]; dsimp only; rw [takeOperand_tokens_nil]
  | statLoad blk low m =>
    have hs : splitBlock (blk.spell ++ if low then txt "STATL" else txt "STAT") = (blk, if low then txt "STATL" else txt "STAT") := by
      cases blk <;> cases low <;> decide
    rw [Form.tokens, formOf, hs]
    cases low <;> dsimp only
    · rw [if_neg (by decide), if_neg (by decide), if_neg (by decide), if_pos (by decide), loadOperand_tokens]; rfl
    · rw [if_neg (by decide), if_neg (by decide), if_neg (by decide), if_neg (by decide), if_pos (by decide), loadOperand_tokens]; rfl
  | statStore blk size dest src =>
    have e := formOf_result blk size dest false [.word (src.spell ++ txt "STAT")]
    rw [if_neg (by decide)] at e
    rw [Form.tokens, e]
    have hs : splitBlock (src.spell ++ txt "STAT") = (src, txt "STAT") := by cases src <;> decide
    have hn : src.spell ++ txt "STAT" ≠ txt "BFOTMP" := by cases src <;> decide
    rw [sourceForm, if_pos rfl, if_neg (by decide), if_neg hn, hs, if_pos rfl]
  | bfotmpStore blk size dest =>
    exact formOf_result blk size dest false [.word (txt "BFOTMP")]
  | bfotmpLoad blk m =>
    have hs : splitBlock (blk.spell ++ txt "BFOTMP") = (blk, txt "BFOTMP") := by cases blk <;> decide
    rw [Form.tokens, formOf, hs]
    dsimp only
    rw [if_neg (by decide), if_neg (by decide), if_pos (by decide), loadOperand_tokens]; rfl


/-! ## Lines -/

/-- A token that may stand inside a slot as the encoder spells it. -/
def Token.inSlot (t : Token) : Prop := t.spellable ∧ t ≠ .semi ∧ t ≠ .lineEnd

theorem inSlot_word {w : Text} (hne : w ≠ []) (h : ∀ c, c ∈ w → wordByte c) : Token.inSlot (.word w) :=
  ⟨⟨hne, h⟩, nofun, nofun⟩

theorem wordByte_append {v w : Text} (hv : ∀ c, c ∈ v → wordByte c) (hw : ∀ c, c ∈ w → wordByte c) :
    ∀ c, c ∈ v ++ w → wordByte c := fun c hc => (List.mem_append.mp hc).elim (hv c) (hw c)

/-- `wordByte` on numbers, which the kernel evaluates fast. -/
def wordNumber (n : Nat) : Bool := (Nat.ble 48 n && Nat.ble n 57) || (Nat.ble 65 n && Nat.ble n 90)

theorem wordByte_of_all {w : Text} (h : (w.map BitVec.toNat).all wordNumber = true) : ∀ c, c ∈ w → wordByte c := by
  intro c hc
  have := List.all_eq_true.mp h c.toNat (List.mem_map_of_mem hc)
  simpa [wordNumber, wordByte] using this

/-- A literal word of capitals and digits. -/
theorem inSlot_txt {w : Text} (h : (!w.isEmpty && (w.map BitVec.toNat).all wordNumber) = true) :
    Token.inSlot (.word w) := by
  rw [Bool.and_eq_true] at h
  exact inSlot_word (by rintro rfl; exact absurd h.1 (by decide)) (wordByte_of_all h.2)

theorem wordByte_blk (blk : Blk) : ∀ c, c ∈ blk.spell → wordByte c := by
  cases blk <;> exact wordByte_of_all (by decide)

theorem wordByte_size (size : Size) : ∀ c, c ∈ size.spell → wordByte c := by
  cases size <;> exact wordByte_of_all (by decide)

theorem inSlot_number (n : Nat) : Token.inSlot (.word (spellNumber n)) :=
  inSlot_word (spellNumber_ne_nil n) (wordByte_spellNumber n)

theorem inSlot_operand (o : Operand) (lead : Text) (h : ∀ c, c ∈ lead → wordByte c) :
    ∀ t, t ∈ o.tokens lead → t.inSlot := by
  rw [o.tokens_eq]
  intro t ht
  rcases List.mem_cons.mp ht with rfl | ht
  · refine inSlot_word ?_ (wordByte_append (wordByte_append h (wordByte_of_all (w := txt "R") (by decide))) (wordByte_spellNumber _))
    simp [spellNumber_ne_nil]
  · have hc : Token.inSlot .colon := ⟨trivial, by decide, by decide⟩
    cases o <;> simp only [Operand.rest, List.not_mem_nil, List.mem_cons, or_false] at ht
    · rcases ht with rfl | rfl
      · exact hc
      · exact inSlot_number _
    · rcases ht with rfl | rfl
      · exact hc
      · exact inSlot_number _

theorem inSlot_control (c : Control) : ∀ t, t ∈ c.tokens → t.inSlot := by
  cases c with
  | reg o => exact inSlot_operand o [] (by simp)
  | imm k =>
    intro t ht
    simp only [Control.tokens, immTokens] at ht
    split at ht <;> simp only [List.mem_cons, List.not_mem_nil, or_false] at ht
    · rcases ht with rfl | rfl
      · exact ⟨trivial, by decide, by decide⟩
      · exact inSlot_number _
    · rw [ht]; exact inSlot_number _

theorem inSlot_controlTokens (c : Option Control) : ∀ t, t ∈ controlTokens c → t.inSlot := by
  intro t ht
  cases c with
  | none => exact absurd ht (List.not_mem_nil)
  | some c =>
    rcases List.mem_cons.mp ht with rfl | ht
    · exact inSlot_txt (by decide)
    · exact inSlot_control c t ht

theorem inSlot_optTokens (o : Option Opt) : ∀ t, t ∈ optTokens o → t.inSlot := by
  have h1 : Token.inSlot .lpar := ⟨trivial, by decide, by decide⟩
  have h2 : Token.inSlot .rpar := ⟨trivial, by decide, by decide⟩
  intro t ht
  cases o with
  | none => exact absurd ht (List.not_mem_nil)
  | some o =>
    cases o <;> simp only [optTokens, List.mem_cons, List.not_mem_nil, or_false] at ht <;>
      rcases ht with rfl | rfl | rfl
    · exact h1
    · exact inSlot_txt (by decide)
    · exact h2
    · exact h1
    · exact inSlot_txt (by decide)
    · exact h2

/-- A form is spelled with tokens that may stand in a slot. -/
theorem inSlot_form (f : Form) : ∀ t, t ∈ f.tokens → t.inSlot := by
  have heq : Token.inSlot .eq := ⟨trivial, by decide, by decide⟩
  have hpe : Token.inSlot .plusEq := ⟨trivial, by decide, by decide⟩
  have hcm : Token.inSlot .comma := ⟨trivial, by decide, by decide⟩
  have hno : ∀ o : Operand, ∀ t, t ∈ o.tokens [] → t.inSlot := fun o => inSlot_operand o [] (by simp)
  have hlead : ∀ (b : Blk) (s : Size) (o : Operand) t, t ∈ o.tokens (b.spell ++ s.spell) → t.inSlot := fun b s o =>
    inSlot_operand o _ (wordByte_append (wordByte_blk b) (wordByte_size s))
  intro t ht
  cases f with
  | op blk size dest rmw mn data c o =>
    simp only [Form.tokens, List.mem_append, List.mem_cons] at ht
    rcases ht with ((ht | rfl | rfl | ht) | ht) | ht
    · exact hlead _ _ _ t ht
    · cases rmw <;> assumption
    · exact inSlot_txt (by cases mn <;> decide)
    · exact hno _ t ht
    · exact inSlot_controlTokens _ t ht
    · exact inSlot_optTokens _ t ht
  | bitest blk data c =>
    simp only [Form.tokens, List.mem_append, List.mem_cons] at ht
    rcases ht with (rfl | ht) | ht
    · exact inSlot_txt (by cases blk <;> decide)
    · exact hno _ t ht
    · exact inSlot_controlTokens _ t ht
  | bkfpt blk m n =>
    simp only [Form.tokens, List.mem_append, List.mem_cons] at ht
    rcases ht with (rfl | ht) | rfl | ht
    · exact inSlot_txt (by cases blk <;> decide)
    · exact hno _ t ht
    · exact hcm
    · exact hno _ t ht
  | statLoad blk low m =>
    simp only [Form.tokens, List.mem_cons] at ht
    rcases ht with rfl | rfl | ht
    · exact inSlot_txt (by cases blk <;> cases low <;> decide)
    · exact heq
    · exact hno _ t ht
  | statStore blk size dest src =>
    simp only [Form.tokens, List.mem_append, List.mem_cons, List.not_mem_nil, or_false] at ht
    rcases ht with ht | rfl | rfl
    · exact hlead _ _ _ t ht
    · exact heq
    · exact inSlot_txt (by cases src <;> decide)
  | bfotmpStore blk size dest =>
    simp only [Form.tokens, List.mem_append, List.mem_cons, List.not_mem_nil, or_false] at ht
    rcases ht with ht | rfl | rfl
    · exact hlead _ _ _ t ht
    · exact heq
    · exact inSlot_txt (by decide)
  | bfotmpLoad blk m =>
    simp only [Form.tokens, List.mem_cons] at ht
    rcases ht with rfl | rfl | ht
    · exact inSlot_txt (by cases blk <;> decide)
    · exact heq
    · exact hno _ t ht

theorem inSlot_slot (sl : Slot) : ∀ t, t ∈ sl.tokens → t.inSlot := by
  intro t ht
  rw [Slot.tokens, List.mem_append] at ht
  rcases ht with ht | ht
  · split at ht
    · simp only [List.mem_cons, List.not_mem_nil, or_false] at ht
      rcases ht with rfl | rfl
      · exact inSlot_txt (by decide)
      · exact ⟨trivial, by decide, by decide⟩
    · exact absurd ht (List.not_mem_nil)
  · exact inSlot_form _ t ht

theorem cutSlots_append (cur ts rest : List Token) (h : ∀ t, t ∈ ts → t.inSlot) :
    cutSlots cur (ts ++ rest) = cutSlots (cur ++ ts) rest := by
  induction ts generalizing cur with
  | nil => simp
  | cons t ts ih =>
    obtain ⟨_, h1, h2⟩ := h t (List.mem_cons_self)
    have : cutSlots cur (t :: (ts ++ rest)) = cutSlots (cur ++ [t]) (ts ++ rest) := by
      cases t <;> first | rfl | exact absurd rfl h1 | exact absurd rfl h2
    rw [List.cons_append, this, ih _ fun u hu => h u (List.mem_cons_of_mem _ hu), List.append_assoc]
    rfl

theorem cutSlots_slotsTokens (slots : List Slot) (h : slots ≠ []) :
    cutSlots [] (slotsTokens slots) = some (slots.map Slot.tokens) := by
  induction slots with
  | nil => exact absurd rfl h
  | cons sl rest ih =>
    cases rest with
    | nil =>
      rw [slotsTokens, cutSlots_append _ _ _ (inSlot_slot sl)]
      rfl
    | cons sl' rest =>
      have ih := ih (by simp)
      have e : slotsTokens (sl :: sl' :: rest) = sl.tokens ++ .semi :: slotsTokens (sl' :: rest) := rfl
      rw [e, cutSlots_append _ _ _ (inSlot_slot sl)]
      show (cutSlots [] (slotsTokens (sl' :: rest))).map (fun segs => ([] ++ sl.tokens) :: segs) = _
      rw [ih]
      rfl

end Sys2Proof
end

