-- ==== Sys2Proof/Tests/Slice0.lean ====
section
/-! SUPPORT. The model's own tests. Expected values come from the spec: the texts are written out from the listing of R63
(with operands put in) and from the source's examples; the vectors test_V<n> are those of 95_test_vectors.md section 2;
a test without a number says beside it what it is computed from. -/

namespace Sys2Proof.Tests

open Sys2Proof Sys2Proof.Machine Sys2Proof.Safety

/-! ## What the tests are written with -/

def setRegs (b : Block) : List (Reg × Word) → Block
  | [] => b
  | (r, v) :: rest => setRegs (b.setReg r v) rest

/-- The state after reset with registers of block X given. -/
def onX (l : List (Reg × Word)) : State := { State.reset with x := setRegs Block.reset l }

/-- What block X shows after one instruction. -/
def afterX {α : Type} (i : Instr) (l : List (Reg × Word)) (p : Block → α) : Option α :=
  match exec i (onX l) with
  | .next t => some (p t.x)
  | _ => none

/-- The flags shown are those of the instruction's results: the layout of STAT is open, so they are read by this lemma. -/
theorem afterX_flags {α : Type} {E : Nat} {i : Instr} {l : List (Reg × Word)} {t : State} {b : Block} {rs : List (BitVec E)}
    (p : Block → α) (he : exec i (onX l) = .next t) (hb : t.x = b.setZN rs) :
    afterX i l (fun b => (p b, b.sz, b.sn)) = some (p (b.setZN rs), zeroFlag rs, signFlag rs) := by
  simp [afterX, he, hb]

/-- The state after reset with SZ and SN of both blocks given. -/
def withFlags (xz xn yz yn : Bool) : State :=
  { State.reset with x := (Block.reset.setSz xz).setSn xn, y := (Block.reset.setSz yz).setSn yn }

/-- The flags of `withFlags` are those given. -/
theorem flags_withFlags (xz xn yz yn : Bool) : (withFlags xz xn yz yn).x.sz = xz ∧ (withFlags xz xn yz yn).x.sn = xn ∧
    (withFlags xz xn yz yn).y.sz = yz ∧ (withFlags xz xn yz yn).y.sn = yn := by simp [withFlags]

/-- R5 of a block after the slots of a line whose condition has the given value. -/
def reg5After (c : Bool) (slots : List Slot) (s : State) (side : Side) : Option Word :=
  match runSlots c s slots s with
  | .next t => some ((t.block side).reg 5)
  | _ => none

/-- R5 of a block after a line. -/
def afterLine (cond : Option Cond) (slots : List Slot) (s : State) (side : Side) : Option Word :=
  reg5After (condValue cond slots s) slots s side

/-- The value of the condition is found first: the layout of STAT is open, so nothing evaluates a flag. -/
theorem afterLine_of {cond : Option Cond} {slots : List Slot} {s : State} {side : Side} (c : Bool)
    (h : condValue cond slots s = c) : afterLine cond slots s side = reg5After c slots s side := by rw [afterLine, h]

/-! ## WellFormed: each check refuses an ill-formed term -/

theorem test_pair_refused : (Instr.bfotmpLoad .x 3).problem = some .pair := by decide
theorem test_quad_refused : (Instr.getbits .x 4 2 6 false).problem = some .quad := by decide
theorem test_magnitude_refused : (Instr.lshiftBi .x 5 4 8).problem = some .magnitude := by decide
theorem test_magnitude_negative_refused : (Instr.rotLi .x 4 2 (-65)).problem = some .magnitude := by decide
theorem test_bitNumber_refused : (Instr.bclrNi .x 5 4 32).problem = some .bitNumber := by decide
theorem test_slotCount_refused : (Line.issue (some (.flag .x .seq)) []).problem = some .slotCount := by decide
theorem test_doWithoutIf_refused : (Line.issue none [⟨true, .ld0N .x 5 4⟩]).problem = some .doWithoutIf := by decide
theorem test_sharedBlock_refused :
    (Line.issue none [⟨false, .ld0N .x 5 4⟩, ⟨false, .ld0N .xy 6 4⟩]).problem = some .sharedBlock := by decide
theorem test_staticFlagScope_refused :
    (Line.issue (some (.static .scf0)) [⟨true, .ld0N .xy 5 4⟩]).problem = some .staticFlagScope := by decide
theorem test_immediates_at_their_bounds :
    (Instr.lshiftBi .x 5 4 (-8)).wf && (Instr.lshiftSi .x 5 4 15).wf && (Instr.bclrLi .x 4 2 63).wf = true := by decide

/-! ## Decode: one text for each row of R63 -/

theorem test_decode_lshiftNr : decodeLine (txt "XR5 = LSHIFT R14 BY R13;;") =
    .ok (.single (.lshiftNr .x 5 14 13)) := by decide

theorem test_decode_lshiftNi : decodeLine (txt "YR5 = LSHIFT R14 BY -32;;") =
    .ok (.single (.lshiftNi .y 5 14 (-32))) := by decide

theorem test_decode_lshiftBr : decodeLine (txt "XYBR5 = LSHIFT R14 BY R13;;") =
    .ok (.single (.lshiftBr .xy 5 14 13)) := by decide

theorem test_decode_lshiftBi : decodeLine (txt "BR5 = LSHIFT R14 BY 7;;") =
    .ok (.single (.lshiftBi .xy 5 14 7)) := by decide

theorem test_decode_lshiftSr : decodeLine (txt "XSR5 = LSHIFT R14 BY R13;;") =
    .ok (.single (.lshiftSr .x 5 14 13)) := by decide

theorem test_decode_lshiftSi : decodeLine (txt "YSR5 = LSHIFT R14 BY -16;;") =
    .ok (.single (.lshiftSi .y 5 14 (-16))) := by decide

theorem test_decode_lshiftDnr : decodeLine (txt "XYR5:4 = LSHIFT R11:10 BY R13;;") =
    .ok (.single (.lshiftDnr .xy 4 10 13)) := by decide

theorem test_decode_lshiftDni : decodeLine (txt "R5:4 = LSHIFT R11:10 BY 31;;") =
    .ok (.single (.lshiftDni .xy 4 10 31)) := by decide

theorem test_decode_lshiftDbr : decodeLine (txt "XBR5:4 = LSHIFT R11:10 BY R13;;") =
    .ok (.single (.lshiftDbr .x 4 10 13)) := by decide

theorem test_decode_lshiftDbi : decodeLine (txt "YBR5:4 = LSHIFT R11:10 BY -8;;") =
    .ok (.single (.lshiftDbi .y 4 10 (-8))) := by decide

theorem test_decode_lshiftDsr : decodeLine (txt "XYSR5:4 = LSHIFT R11:10 BY R13;;") =
    .ok (.single (.lshiftDsr .xy 4 10 13)) := by decide

theorem test_decode_lshiftDsi : decodeLine (txt "SR5:4 = LSHIFT R11:10 BY 15;;") =
    .ok (.single (.lshiftDsi .xy 4 10 15)) := by decide

theorem test_decode_lshiftLr : decodeLine (txt "XLR5:4 = LSHIFT R11:10 BY R13;;") =
    .ok (.single (.lshiftLr .x 4 10 13)) := by decide

theorem test_decode_lshiftLi : decodeLine (txt "YLR5:4 = LSHIFT R11:10 BY -64;;") =
    .ok (.single (.lshiftLi .y 4 10 (-64))) := by decide

theorem test_decode_ashiftNr : decodeLine (txt "XYR5 = ASHIFT R14 BY R13;;") =
    .ok (.single (.ashiftNr .xy 5 14 13)) := by decide

theorem test_decode_ashiftNi : decodeLine (txt "R5 = ASHIFT R14 BY 31;;") =
    .ok (.single (.ashiftNi .xy 5 14 31)) := by decide

theorem test_decode_ashiftBr : decodeLine (txt "XBR5 = ASHIFT R14 BY R13;;") =
    .ok (.single (.ashiftBr .x 5 14 13)) := by decide

theorem test_decode_ashiftBi : decodeLine (txt "YBR5 = ASHIFT R14 BY -8;;") =
    .ok (.single (.ashiftBi .y 5 14 (-8))) := by decide

theorem test_decode_ashiftSr : decodeLine (txt "XYSR5 = ASHIFT R14 BY R13;;") =
    .ok (.single (.ashiftSr .xy 5 14 13)) := by decide

theorem test_decode_ashiftSi : decodeLine (txt "SR5 = ASHIFT R14 BY 15;;") =
    .ok (.single (.ashiftSi .xy 5 14 15)) := by decide

theorem test_decode_ashiftDnr : decodeLine (txt "XR5:4 = ASHIFT R11:10 BY R13;;") =
    .ok (.single (.ashiftDnr .x 4 10 13)) := by decide

theorem test_decode_ashiftDni : decodeLine (txt "YR5:4 = ASHIFT R11:10 BY -32;;") =
    .ok (.single (.ashiftDni .y 4 10 (-32))) := by decide

theorem test_decode_ashiftDbr : decodeLine (txt "XYBR5:4 = ASHIFT R11:10 BY R13;;") =
    .ok (.single (.ashiftDbr .xy 4 10 13)) := by decide

theorem test_decode_ashiftDbi : decodeLine (txt "BR5:4 = ASHIFT R11:10 BY 7;;") =
    .ok (.single (.ashiftDbi .xy 4 10 7)) := by decide

theorem test_decode_ashiftDsr : decodeLine (txt "XSR5:4 = ASHIFT R11:10 BY R13;;") =
    .ok (.single (.ashiftDsr .x 4 10 13)) := by decide

theorem test_decode_ashiftDsi : decodeLine (txt "YSR5:4 = ASHIFT R11:10 BY -16;;") =
    .ok (.single (.ashiftDsi .y 4 10 (-16))) := by decide

theorem test_decode_ashiftLr : decodeLine (txt "XYLR5:4 = ASHIFT R11:10 BY R13;;") =
    .ok (.single (.ashiftLr .xy 4 10 13)) := by decide

theorem test_decode_ashiftLi : decodeLine (txt "LR5:4 = ASHIFT R11:10 BY 63;;") =
    .ok (.single (.ashiftLi .xy 4 10 63)) := by decide

theorem test_decode_rotNr : decodeLine (txt "XR5 = ROT R14 BY R13;;") =
    .ok (.single (.rotNr .x 5 14 13)) := by decide

theorem test_decode_rotNi : decodeLine (txt "YR5 = ROT R14 BY -32;;") =
    .ok (.single (.rotNi .y 5 14 (-32))) := by decide

theorem test_decode_rotDnr : decodeLine (txt "XYR5:4 = ROT R11:10 BY R17:16;;") =
    .ok (.single (.rotDnr .xy 4 10 16)) := by decide

theorem test_decode_rotDni : decodeLine (txt "R5:4 = ROT R11:10 BY 31;;") =
    .ok (.single (.rotDni .xy 4 10 31)) := by decide

theorem test_decode_rotLr : decodeLine (txt "XLR5:4 = ROT R11:10 BY R17:16;;") =
    .ok (.single (.rotLr .x 4 10 16)) := by decide

theorem test_decode_rotLi : decodeLine (txt "YLR5:4 = ROT R11:10 BY -64;;") =
    .ok (.single (.rotLi .y 4 10 (-64))) := by decide

theorem test_decode_bclrNr : decodeLine (txt "XYR5 = BCLR R14 BY R13;;") =
    .ok (.single (.bclrNr .xy 5 14 13)) := by decide

theorem test_decode_bclrNi : decodeLine (txt "R5 = BCLR R14 BY 0;;") =
    .ok (.single (.bclrNi .xy 5 14 0)) := by decide

theorem test_decode_bclrLr : decodeLine (txt "XR5:4 = BCLR R11:10 BY R13;;") =
    .ok (.single (.bclrLr .x 4 10 13)) := by decide

theorem test_decode_bclrLi : decodeLine (txt "YR5:4 = BCLR R11:10 BY 63;;") =
    .ok (.single (.bclrLi .y 4 10 63)) := by decide

theorem test_decode_bsetNr : decodeLine (txt "XYR5 = BSET R14 BY R13;;") =
    .ok (.single (.bsetNr .xy 5 14 13)) := by decide

theorem test_decode_bsetNi : decodeLine (txt "R5 = BSET R14 BY 0;;") =
    .ok (.single (.bsetNi .xy 5 14 0)) := by decide

theorem test_decode_bsetLr : decodeLine (txt "XR5:4 = BSET R11:10 BY R13;;") =
    .ok (.single (.bsetLr .x 4 10 13)) := by decide

theorem test_decode_bsetLi : decodeLine (txt "YR5:4 = BSET R11:10 BY 63;;") =
    .ok (.single (.bsetLi .y 4 10 63)) := by decide

theorem test_decode_btglNr : decodeLine (txt "XYR5 = BTGL R14 BY R13;;") =
    .ok (.single (.btglNr .xy 5 14 13)) := by decide

theorem test_decode_btglNi : decodeLine (txt "R5 = BTGL R14 BY 0;;") =
    .ok (.single (.btglNi .xy 5 14 0)) := by decide

theorem test_decode_btglLr : decodeLine (txt "XR5:4 = BTGL R11:10 BY R13;;") =
    .ok (.single (.btglLr .x 4 10 13)) := by decide

theorem test_decode_btglLi : decodeLine (txt "YR5:4 = BTGL R11:10 BY 63;;") =
    .ok (.single (.btglLi .y 4 10 63)) := by decide

theorem test_decode_bitestNr : decodeLine (txt "XYBITEST R14 BY R13;;") =
    .ok (.single (.bitestNr .xy 14 13)) := by decide

theorem test_decode_bitestNi : decodeLine (txt "BITEST R14 BY 0;;") =
    .ok (.single (.bitestNi .xy 14 0)) := by decide

theorem test_decode_bitestLr : decodeLine (txt "XBITEST R11:10 BY R13;;") =
    .ok (.single (.bitestLr .x 10 13)) := by decide

theorem test_decode_bitestLi : decodeLine (txt "YBITEST R11:10 BY 63;;") =
    .ok (.single (.bitestLi .y 10 63)) := by decide

theorem test_decode_fextNr : decodeLine (txt "XYR5 = FEXT R14 BY R13 (SE);;") =
    .ok (.single (.fextNr .xy 5 14 13 true)) := by decide

theorem test_decode_fextNd : decodeLine (txt "R5 = FEXT R14 BY R17:16;;") =
    .ok (.single (.fextNd .xy 5 14 16 false)) := by decide

theorem test_decode_fextLr : decodeLine (txt "XLR5:4 = FEXT R11:10 BY R13 (SE);;") =
    .ok (.single (.fextLr .x 4 10 13 true)) := by decide

theorem test_decode_fextLd : decodeLine (txt "YLR5:4 = FEXT R11:10 BY R17:16;;") =
    .ok (.single (.fextLd .y 4 10 16 false)) := by decide

theorem test_decode_fdepNr : decodeLine (txt "XYR5 += FDEP R14 BY R13 (ZF);;") =
    .ok (.single (.fdepNr .xy 5 14 13 .zf)) := by decide

theorem test_decode_fdepNd : decodeLine (txt "R5 += FDEP R14 BY R17:16 (SE);;") =
    .ok (.single (.fdepNd .xy 5 14 16 .se)) := by decide

theorem test_decode_fdepLr : decodeLine (txt "XLR5:4 += FDEP R11:10 BY R13;;") =
    .ok (.single (.fdepLr .x 4 10 13 .keep)) := by decide

theorem test_decode_fdepLd : decodeLine (txt "YLR5:4 += FDEP R11:10 BY R17:16 (ZF);;") =
    .ok (.single (.fdepLd .y 4 10 16 .zf)) := by decide

theorem test_decode_maskN : decodeLine (txt "XYR5 += MASK R14 BY R13;;") =
    .ok (.single (.maskN .xy 5 14 13)) := by decide

theorem test_decode_maskL : decodeLine (txt "LR5:4 += MASK R11:10 BY R17:16;;") =
    .ok (.single (.maskL .xy 4 10 16)) := by decide

theorem test_decode_statLoad : decodeLine (txt "XSTAT = R14;;") =
    .ok (.single (.statLoad .x 14)) := by decide

theorem test_decode_statlLoad : decodeLine (txt "YSTATL = R14;;") =
    .ok (.single (.statlLoad .y 14)) := by decide

theorem test_decode_statStore : decodeLine (txt "XR5 = XSTAT;;") =
    .ok (.single (.statStore .x 5)) := by decide

theorem test_decode_ld0N : decodeLine (txt "R5 = LD0 R14;;") =
    .ok (.single (.ld0N .xy 5 14)) := by decide

theorem test_decode_ld0L : decodeLine (txt "XR5 = LD0 R11:10;;") =
    .ok (.single (.ld0L .x 5 10)) := by decide

theorem test_decode_ld1N : decodeLine (txt "YR5 = LD1 R14;;") =
    .ok (.single (.ld1N .y 5 14)) := by decide

theorem test_decode_ld1L : decodeLine (txt "XYR5 = LD1 R11:10;;") =
    .ok (.single (.ld1L .xy 5 10)) := by decide

theorem test_decode_expN : decodeLine (txt "R5 = EXP R14;;") =
    .ok (.single (.expN .xy 5 14)) := by decide

theorem test_decode_expL : decodeLine (txt "XR5 = EXP R11:10;;") =
    .ok (.single (.expL .x 5 10)) := by decide

theorem test_decode_bkfpt : decodeLine (txt "YBKFPT R11:10, R17:16;;") =
    .ok (.single (.bkfpt .y 10 16)) := by decide

theorem test_decode_getbits : decodeLine (txt "XYR5:4 = GETBITS R3:0 BY R17:16 (SE);;") =
    .ok (.single (.getbits .xy 4 0 16 true)) := by decide

theorem test_decode_putbits : decodeLine (txt "R5:4 += PUTBITS R11:10 BY R17:16;;") =
    .ok (.single (.putbits .xy 4 10 16)) := by decide

theorem test_decode_bfotmpStore : decodeLine (txt "XR5:4 = BFOTMP;;") =
    .ok (.single (.bfotmpStore .x 4)) := by decide

theorem test_decode_bfotmpLoad : decodeLine (txt "YBFOTMP = R11:10;;") =
    .ok (.single (.bfotmpLoad .y 10)) := by decide

/-! ## Decode: what R64 refuses, and the other spellings -/

theorem test_refuses_se_on_lshift : decodeLine (txt "XR5 = LSHIFT R4 BY R3 (SE);;") = .error .notAForm := by decide
theorem test_refuses_zf_on_fext : decodeLine (txt "XR5 = FEXT R4 BY R3 (ZF);;") = .error .notAForm := by decide
theorem test_refuses_two_options : decodeLine (txt "XR5 += FDEP R4 BY R3 (SE) (ZF);;") = .error .notAForm := by decide
theorem test_refuses_byte_rot : decodeLine (txt "XBR5 = ROT R4 BY R3;;") = .error .notAForm := by decide
theorem test_refuses_long_single : decodeLine (txt "XLR5 = LSHIFT R4 BY R3;;") = .error .notAForm := by decide
theorem test_refuses_dual_fext : decodeLine (txt "XR5:4 = FEXT R3:2 BY R6;;") = .error .notAForm := by decide
theorem test_refuses_mixed_mask : decodeLine (txt "XR5 += MASK R4 BY R7:6;;") = .error .notAForm := by decide
theorem test_refuses_immediate_fext : decodeLine (txt "XR5 = FEXT R4 BY 8;;") = .error .notAForm := by decide
theorem test_refuses_wide_immediate : decodeLine (txt "XR5 = LSHIFT R4 BY 32;;") = .error (.illFormed .magnitude) := by
  decide
theorem test_refuses_both_blocks_stat : decodeLine (txt "STAT = R4;;") = .error .notAForm := by decide
theorem test_refuses_crossed_stat : decodeLine (txt "XR5 = YSTAT;;") = .error .notAForm := by decide
theorem test_refuses_odd_pair : decodeLine (txt "XBFOTMP = R4:3;;") = .error (.illFormed .pair) := by decide
theorem test_refuses_register_nreg : regOf Config.nreg = none := by simp [regOf]
theorem test_refuses_dual_ld0 : decodeLine (txt "XR5:4 = LD0 R3:2;;") = .error .notAForm := by decide
theorem test_refuses_two_for_one_block :
    decodeLine (txt "XR5 = LD0 R4; XR6 = LD1 R4;;") = .error (.illFormed .sharedBlock) := by decide
theorem test_refuses_fdep_without_plus : decodeLine (txt "XR5 = FDEP R4 BY R3;;") = .error .notAForm := by decide
theorem test_V131 : decodeLine (txt "IF SEQ; DO, XR5 = BSET R4 BY 0 ;;") = .error .condition := by decide
theorem test_refuses_missing_end : decodeLine (txt "XR5 = LD0 R4;") = .error .lineEnd := by decide
theorem test_refuses_empty_text : decodeLine [] = .error .lineEnd := by decide
theorem test_refuses_open_comment : decodeLine (txt "XR5 = LD0 R4;; /* no end") = .error .openComment := by decide
theorem test_refuses_odd_character : decodeLine (txt "XR5 = LD0 R4 ! ;;") = .error .badByte := by decide

/-- R67: a hexadecimal literal; the listing's 8 is 0x8. -/
theorem test_hexadecimal_immediate : decodeLine (txt "R1:0 = ROT R3:2 BY 0x1F;;") = .ok (.single (.rotDni .xy 0 2 31)) := by
  decide
/-- V129's line: a controlled slot and one that is not, for the two blocks. -/
theorem test_conditional_line : decodeLine (txt "IF XSEQ; DO, XR5 = BSET R4 BY 0; YR5 = BSET R4 BY 0 ;;") =
    .ok (.issue (some (.flag .x .seq)) [⟨true, .bsetNi .x 5 4 0⟩, ⟨false, .bsetNi .y 5 4 0⟩]) := by decide
/-- The source's line that loads a static flag, with its comment (R258). -/
theorem test_flag_load : decodeLine (txt "XSCF0 = XSEQ ;; /* Load X-compute block SEQ flag */") =
    .ok (.flagLoad .x .scf0 .x .seq) := by decide
/-- The encoder spells as the listing does. -/
theorem test_encode : encode (.fdepLd .y 4 2 6 .zf) = txt "YLR5:4 += FDEP R3:2 BY R7:6 (ZF) ;;" := by decide
/-- The source's first line as a word: 23 characters, the first in bits 7 to 0. -/
theorem test_table_word :
    decodeTableWord 184 0x3b3b33522059422034522054464948534c203d20355258 = some (.lshiftNr .x 5 4 3) := by decide

/-! ## Vectors of the spec -/

theorem test_V2 : afterX (.lshiftNr .x 5 4 3) [(4, 0x12345678), (3, 0xfffffffc)] (fun b => (b.reg 5, b.sz, b.sn)) =
    some (0x01234567#32, false, false) :=
  (afterX_flags (·.reg 5) rfl rfl).trans (by decide)

theorem test_V4 : afterX (.lshiftNr .x 5 4 3) [(4, 0xffffffff), (3, 0x000000c0)] (fun b => (b.reg 5, b.sz, b.sn)) =
    some (0x00000000#32, true, false) :=
  (afterX_flags (·.reg 5) rfl rfl).trans (by decide)

theorem test_V7 : afterX (.lshiftNi .x 5 4 (-31)) [(4, 0x80000000)] (fun b => (b.reg 5, b.sz, b.sn)) =
    some (0x00000001#32, false, false) :=
  (afterX_flags (·.reg 5) rfl rfl).trans (by decide)

theorem test_V8 : afterX (.lshiftBr .x 5 4 3) [(4, 0x80ff0140), (3, 0xabcd001d)] (fun b => (b.reg 5, b.sz, b.sn)) =
    some (0x101f0008#32, true, false) :=
  (afterX_flags (·.reg 5) rfl rfl).trans (by decide)

theorem test_V9 : afterX (.lshiftBi .x 5 4 2) [(4, 0x80ff0140)] (fun b => (b.reg 5, b.sz, b.sn)) =
    some (0x00fc0400#32, true, true) :=
  (afterX_flags (·.reg 5) rfl rfl).trans (by decide)

theorem test_V10 : afterX (.lshiftSi .x 5 4 1) [(4, 0x00018000)] (fun b => (b.reg 5, b.sz, b.sn)) =
    some (0x00020000#32, true, false) :=
  (afterX_flags (·.reg 5) rfl rfl).trans (by decide)

theorem test_V11 : afterX (.lshiftDnr .x 4 2 6) [(2, 0x00000100), (3, 0x80000001), (6, 0x00000008)] (fun b => (b.dual 4, b.sz, b.sn)) =
    some (0x0000010000010000#64, false, false) :=
  (afterX_flags (·.dual 4) rfl rfl).trans (by decide)

theorem test_V12 : afterX (.lshiftLr .x 4 2 6) [(2, 0x00000001), (3, 0x80000000), (6, 0xffffffc4)] (fun b => (b.dual 4, b.sz, b.sn)) =
    some (0x0000000000000008#64, false, false) :=
  (afterX_flags (·.dual 4) rfl rfl).trans (by decide)

theorem test_V13 : afterX (.lshiftLi .x 4 2 33) [(2, 0x00000001), (3, 0x80000000)] (fun b => (b.dual 4, b.sz, b.sn)) =
    some (0x0000000200000000#64, false, false) :=
  (afterX_flags (·.dual 4) rfl rfl).trans (by decide)

theorem test_V14 : afterX (.ashiftNr .x 5 4 3) [(4, 0x87654321), (3, 0x00000008)] (fun b => (b.reg 5, b.sz, b.sn)) =
    some (0x65432100#32, false, false) :=
  (afterX_flags (·.reg 5) rfl rfl).trans (by decide)

theorem test_V16 : afterX (.ashiftNr .x 5 4 3) [(4, 0x87654321), (3, 0x00000040)] (fun b => (b.reg 5, b.sz, b.sn)) =
    some (0xffffffff#32, false, true) :=
  (afterX_flags (·.reg 5) rfl rfl).trans (by decide)

theorem test_V18 : afterX (.ashiftBr .x 5 4 3) [(4, 0x80ff0140), (3, 0xabcd001d)] (fun b => (b.reg 5, b.sz, b.sn)) =
    some (0xf0ff0008#32, true, true) :=
  (afterX_flags (·.reg 5) rfl rfl).trans (by decide)

theorem test_V19 : afterX (.ashiftSi .x 5 4 (-1)) [(4, 0x00018000)] (fun b => (b.reg 5, b.sz, b.sn)) =
    some (0x0000c000#32, true, true) :=
  (afterX_flags (·.reg 5) rfl rfl).trans (by decide)

theorem test_V20 : afterX (.ashiftDni .x 4 2 (-32)) [(2, 0x00000100), (3, 0x80000001)] (fun b => (b.dual 4, b.sz, b.sn)) =
    some (0xffffffff00000000#64, true, true) :=
  (afterX_flags (·.dual 4) rfl rfl).trans (by decide)

theorem test_V21 : afterX (.ashiftLi .x 4 2 (-63)) [(2, 0x00000001), (3, 0x80000000)] (fun b => (b.dual 4, b.sz, b.sn)) =
    some (0xffffffffffffffff#64, false, true) :=
  (afterX_flags (·.dual 4) rfl rfl).trans (by decide)

theorem test_V22 : afterX (.rotNr .x 5 4 3) [(4, 0x80000001), (3, 0xfffffffc)] (fun b => (b.reg 5, b.sz, b.sn)) =
    some (0x18000000#32, false, false) :=
  (afterX_flags (·.reg 5) rfl rfl).trans (by decide)

theorem test_V23 : afterX (.rotNi .x 5 4 8) [(4, 0x80000001)] (fun b => (b.reg 5, b.sz, b.sn)) =
    some (0x00000180#32, false, false) :=
  (afterX_flags (·.reg 5) rfl rfl).trans (by decide)

theorem test_V27 : afterX (.rotDni .x 0 2 8) [(2, 0xff000000), (3, 0x00000000)] (fun b => (b.dual 0, b.sz, b.sn)) =
    some (0x00000000000000ff#64, true, false) :=
  (afterX_flags (·.dual 0) rfl rfl).trans (by decide)

theorem test_V28 : afterX (.rotLi .x 0 2 16) [(2, 0x89abcdef), (3, 0x01234567)] (fun b => (b.dual 0, b.sz, b.sn)) =
    some (0x456789abcdef0123#64, false, false) :=
  (afterX_flags (·.dual 0) rfl rfl).trans (by decide)

theorem test_V29 : afterX (.rotLr .x 0 2 4) [(2, 0x89abcdef), (3, 0x01234567), (4, 0xffffffbc), (5, 0xffffffbc), (4, 0x000000bc)] (fun b => (b.dual 0, b.sz, b.sn)) =
    some (0xf0123456789abcde#64, false, true) :=
  (afterX_flags (·.dual 0) rfl rfl).trans (by decide)

theorem test_V42 : afterX (.bclrNr .x 5 4 3) [(4, 0xffffffff), (3, 0xffffff28)] (fun b => (b.reg 5, b.sz, b.sn)) =
    some (0xfffffeff#32, false, true) :=
  (afterX_flags (·.reg 5) rfl rfl).trans (by decide)

theorem test_V43 : afterX (.bsetNi .x 5 4 31) [(4, 0x00000000)] (fun b => (b.reg 5, b.sz, b.sn)) =
    some (0x80000000#32, false, true) :=
  (afterX_flags (·.reg 5) rfl rfl).trans (by decide)

theorem test_V44 : afterX (.btglNr .x 5 4 3) [(4, 0x80000000), (3, 0x0000001f)] (fun b => (b.reg 5, b.sz, b.sn)) =
    some (0x00000000#32, true, false) :=
  (afterX_flags (·.reg 5) rfl rfl).trans (by decide)

theorem test_V45 : afterX (.bsetLi .x 4 2 32) [(2, 0x00000000), (3, 0x00000000)] (fun b => (b.dual 4, b.sz, b.sn)) =
    some (0x0000000100000000#64, false, false) :=
  (afterX_flags (·.dual 4) rfl rfl).trans (by decide)

theorem test_V46 : afterX (.bclrLr .x 4 2 6) [(2, 0x00000100), (3, 0x00000001), (6, 0xffffff20)] (fun b => (b.dual 4, b.sz, b.sn)) =
    some (0x0000000000000100#64, false, false) :=
  (afterX_flags (·.dual 4) rfl rfl).trans (by decide)

theorem test_V47 : afterX (.btglLi .x 4 2 63) [(2, 0x00000001), (3, 0x00000000)] (fun b => (b.dual 4, b.sz, b.sn)) =
    some (0x8000000000000001#64, false, true) :=
  (afterX_flags (·.dual 4) rfl rfl).trans (by decide)

theorem test_V48 : afterX (.bsetLi .x 4 2 31) [(2, 0x00000000), (3, 0x00000000)] (fun b => (b.dual 4, b.sz, b.sn)) =
    some (0x0000000080000000#64, false, false) :=
  (afterX_flags (·.dual 4) rfl rfl).trans (by decide)

theorem test_V61 : afterX (.fextNr .x 5 4 3 true) [(4, 0x12345678), (3, 0x00000508)] (fun b => (b.reg 5, b.sz, b.sn)) =
    some (0xffffffb3#32, false, true) :=
  (afterX_flags (·.reg 5) rfl rfl).trans (by decide)

theorem test_V64 : afterX (.fextNr .x 5 4 3 false) [(4, 0x80000000), (3, 0x00001f01)] (fun b => (b.reg 5, b.sz, b.sn)) =
    some (0x00000001#32, false, false) :=
  (afterX_flags (·.reg 5) rfl rfl).trans (by decide)

theorem test_V68 : afterX (.fextLr .x 4 2 6 false) [(2, 0x89abcdef), (3, 0x01234567), (6, 0x00001c0c)] (fun b => (b.dual 4, b.sz, b.sn)) =
    some (0x0000000000000678#64, false, false) :=
  (afterX_flags (·.dual 4) rfl rfl).trans (by decide)

theorem test_V69 : afterX (.fextNd .x 5 4 6 false) [(4, 0x12345678), (6, 0x00000008), (7, 0x00000004)] (fun b => (b.reg 5, b.sz, b.sn)) =
    some (0x00000067#32, false, false) :=
  (afterX_flags (·.reg 5) rfl rfl).trans (by decide)

theorem test_V71 : afterX (.fdepNr .x 5 4 3 .se) [(5, 0xa5a5a5a5), (4, 0x000000ff), (3, 0x00000508)] (fun b => (b.reg 5, b.sz, b.sn)) =
    some (0xffffffe5#32, false, true) :=
  (afterX_flags (·.reg 5) rfl rfl).trans (by decide)

theorem test_V72 : afterX (.fdepNr .x 5 4 3 .zf) [(5, 0xa5a5a5a5), (4, 0x000000ff), (3, 0x00000508)] (fun b => (b.reg 5, b.sz, b.sn)) =
    some (0x00001fe5#32, false, false) :=
  (afterX_flags (·.reg 5) rfl rfl).trans (by decide)

theorem test_V75 : afterX (.fdepLr .x 4 2 6 .se) [(4, 0xa5a5a5a5), (5, 0xa5a5a5a5), (2, 0x00000abc), (3, 0x00000000), (6, 0x00001c0c)] (fun b => (b.dual 4, b.sz, b.sn)) =
    some (0xffffffabc5a5a5a5#64, false, true) :=
  (afterX_flags (·.dual 4) rfl rfl).trans (by decide)

theorem test_V80 : afterX (.maskN .x 5 4 3) [(5, 0x85ffffff), (4, 0x50325032), (3, 0x00007b00)] (fun b => (b.reg 5, b.sz, b.sn)) =
    some (0x85ffd4ff#32, false, true) :=
  (afterX_flags (·.reg 5) rfl rfl).trans (by decide)

theorem test_V82 : afterX (.maskN .x 5 4 3) [(5, 0xffffffff), (4, 0x00000000), (3, 0x0f0f0f0f)] (fun b => (b.reg 5, b.sz, b.sn)) =
    some (0xf0f0f0f0#32, false, true) :=
  (afterX_flags (·.reg 5) rfl rfl).trans (by decide)

theorem test_V83 : afterX (.maskL .x 4 2 6) [(4, 0x89abcdef), (5, 0x01234567), (2, 0x00000000), (3, 0xffffffff), (6, 0x0f0f0f0f), (7, 0xf0f0f0f0)] (fun b => (b.dual 4, b.sz, b.sn)) =
    some (0xf1f3f5f780a0c0e0#64, false, true) :=
  (afterX_flags (·.dual 4) rfl rfl).trans (by decide)

theorem test_V90 : afterX (.ld0N .x 15 17) [(17, 0x0000ffff)] (fun b => (b.reg 15, b.sz, b.sn)) =
    some (0x00000010#32, false, false) :=
  (afterX_flags (·.reg 15) rfl rfl).trans (by decide)

theorem test_V92 : afterX (.ld0N .x 15 17) [(17, 0x80000000)] (fun b => (b.reg 15, b.sz, b.sn)) =
    some (0x00000000#32, true, false) :=
  (afterX_flags (·.reg 15) rfl rfl).trans (by decide)

theorem test_V93 : afterX (.ld0L .x 15 16) [(16, 0x0000ffff), (17, 0x00000000)] (fun b => (b.reg 15, b.sz, b.sn)) =
    some (0x00000030#32, false, false) :=
  (afterX_flags (·.reg 15) rfl rfl).trans (by decide)

theorem test_V94 : afterX (.ld1N .x 15 17) [(17, 0xffff0000)] (fun b => (b.reg 15, b.sz, b.sn)) =
    some (0x00000010#32, false, false) :=
  (afterX_flags (·.reg 15) rfl rfl).trans (by decide)

theorem test_V97 : afterX (.ld1L .x 15 16) [(16, 0xffff0000), (17, 0xffffffff)] (fun b => (b.reg 15, b.sz, b.sn)) =
    some (0x00000030#32, false, false) :=
  (afterX_flags (·.reg 15) rfl rfl).trans (by decide)

theorem test_V101 : afterX (.getbits .x 4 0 6 false) [(0, 0x89abcdef), (1, 0x01234567), (2, 0x76543210), (3, 0xfedcba98), (6, 0x00000018), (7, 0x00000030)] (fun b => (b.dual 4, b.sz, b.sn)) =
    some (0x0000000000100123#64, false, false) :=
  (afterX_flags (·.dual 4) rfl rfl).trans (by decide)

theorem test_V102 : afterX (.getbits .x 4 0 6 true) [(0, 0x89abcdef), (1, 0x01234567), (2, 0x76543210), (3, 0xfedcba98), (6, 0x00000008), (7, 0x00000008)] (fun b => (b.dual 4, b.sz, b.sn)) =
    some (0xffffffffffffffcd#64, false, true) :=
  (afterX_flags (·.dual 4) rfl rfl).trans (by decide)

theorem test_V103 : afterX (.getbits .x 4 0 6 false) [(0, 0x89abcdef), (1, 0x01234567), (2, 0x76543210), (3, 0xfedcba98), (6, 0x00000040), (7, 0x0000003f)] (fun b => (b.dual 4, b.sz, b.sn)) =
    some (0xfdb97530eca86420#64, false, true) :=
  (afterX_flags (·.dual 4) rfl rfl).trans (by decide)

/-- V85 with the positions left open: the flags loaded are the bits at their positions. -/
theorem test_V85 : afterX (.statLoad .x 4) [(4, 0x00000300)] (fun b => (b.stat, b.sz, b.sn)) =
    some (0x300#32, (0x300#32).getLsbD Config.szBit, (0x300#32).getLsbD Config.snBit) := rfl

theorem test_V84 : (lowMerge Config.statlWidth 0xFFFF0000#32 0x0000FFFF#32) = 0xFFFF3FFF#32 := by decide

theorem test_V86 : afterX (.statStore .x 5) [] (fun b => b.reg 5) = some 0#32 := by decide

theorem test_V49 (b : Block) : (b.testBit .x ((0x100#32).getLsbD (bitNumber 5 8#32))).sz = false :=
  (testBit_spec _ _ _).1.trans (by decide)

theorem test_V51 (b : Block) : (b.testBit .x ((0x8000000000000000#64).getLsbD (bitNumber 6 0x7F#32))).sz = false :=
  (testBit_spec _ _ _).1.trans (by decide)

theorem test_V107 : afterX (.putbits .x 4 2 6) [(3, 0x01234567), (2, 0x89ABCDEF), (7, 0x10), (6, 0x18)]
    (fun b => (b.dual 4, b.sz, b.sn)) = some (0x456789ABCDEF0000#64, false, false) := (afterX_flags (·.dual 4) rfl rfl).trans (by decide)

theorem test_V107_overflow (free : LongWord) : (putOverflow 0x0123456789ABCDEF#64 free 16).setWidth 16 = 0x0123#16 := by
  apply BitVec.eq_of_getLsbD_eq
  intro j hj
  have h : j < 64 := by omega
  rw [BitVec.getLsbD_setWidth, getLsbD_putOverflow _ _ _ _ (by decide) h, if_pos hj, decide_eq_true hj, Bool.true_and]
  revert j
  decide

theorem test_V110 : putLow 0xFFFFFFFFFFFFFFFF#64 0x8000000000000001#64 63 = 0xFFFFFFFFFFFFFFFF#64 := by decide

theorem test_V111 : afterX (.bfotmpLoad .x 2) [(3, 0x01234567), (2, 0x89ABCDEF)] (fun b => b.bfotmp) =
    some 0x0123456789ABCDEF#64 := by decide

/-- V98: nothing is known of the value but that it is `exp32`'s. -/
theorem test_V98 : afterX (.expN .x 15 17) [(17, 7)] (fun b => b.reg 15) = some (Config.exp32 7#32) := rfl

/-- V99: BF1-0 is what `bkfpt` gives, the registers stay. -/
theorem test_V99 (b : Block) (side : Side) (v : BitVec 2) : ((b.setBf v).drawFlags side).bf = v := by simp

/-- R247's example: 0x30 + 0x18 wraps to 0x08 and sets AN. -/
theorem test_bfoinc : (((onX [(7, 0x30), (6, 0x18)]).hostBfoinc .x 6).x.reg 7, ((onX [(7, 0x30), (6, 0x18)]).hostBfoinc .x 6).x.an) =
    (0x08#32, true) := congrArg₂ Prod.mk (by decide) (an_setAn _ true)

theorem test_V65 : exec (.fextNr .x 5 4 3 false) (onX [(3, 0x00000500)]) = .fault .outOfDomain := rfl
theorem test_V66 : exec (.fextNr .x 5 4 3 false) (onX [(3, 0x00001C08)]) = .fault .outOfDomain := rfl
theorem test_V105 : exec (.getbits .x 4 0 6 false) State.reset = .fault .outOfDomain := rfl
theorem test_V106 : exec (.getbits .x 4 0 6 false) (onX [(6, 65)]) = .fault .outOfDomain := rfl

/-- D14 for FDEP, where the field runs off the top of block Y alone: the whole instruction is out of its domain. -/
theorem test_fdep_outOfDomain_in_y :
    exec (.fdepLd .xy 4 2 6 .zf) { onX [(6, 1)] with y := setRegs Block.reset [(7, 64), (6, 1)] } = .fault .outOfDomain := rfl

/-! The forms without a vector of their own: V8, V9, V10, V15, V18, V19 on both registers of a pair, V11 and V13 with the other
control, V40, V43, V44, V46, V68, V75, V101 with the other control. -/

theorem test_lshiftSr : afterX (.lshiftSr .x 5 4 3) [(4, 0x00018000), (3, 1)] (fun b => (b.reg 5, b.sz, b.sn)) =
    some (0x00020000#32, true, false) :=
  (afterX_flags (·.reg 5) rfl rfl).trans (by decide)

theorem test_lshiftDni : afterX (.lshiftDni .x 4 2 8) [(3, 0x80000001), (2, 0x00000100)] (fun b => (b.dual 4, b.sz, b.sn)) =
    some (0x0000010000010000#64, false, false) :=
  (afterX_flags (·.dual 4) rfl rfl).trans (by decide)

theorem test_lshiftDbr : afterX (.lshiftDbr .x 4 2 6) [(3, 0x80FF0140), (2, 0x80FF0140), (6, 0xABCD001D)] (fun b => (b.dual 4, b.sz, b.sn)) =
    some (0x101F0008101F0008#64, true, false) :=
  (afterX_flags (·.dual 4) rfl rfl).trans (by decide)

theorem test_lshiftDbi : afterX (.lshiftDbi .x 4 2 2) [(3, 0x80FF0140), (2, 0x80FF0140)] (fun b => (b.dual 4, b.sz, b.sn)) =
    some (0x00FC040000FC0400#64, true, true) :=
  (afterX_flags (·.dual 4) rfl rfl).trans (by decide)

theorem test_lshiftDsr : afterX (.lshiftDsr .x 4 2 6) [(3, 0x00018000), (2, 0x00018000), (6, 1)] (fun b => (b.dual 4, b.sz, b.sn)) =
    some (0x0002000000020000#64, true, false) :=
  (afterX_flags (·.dual 4) rfl rfl).trans (by decide)

theorem test_lshiftDsi : afterX (.lshiftDsi .x 4 2 1) [(3, 0x00018000), (2, 0x00018000)] (fun b => (b.dual 4, b.sz, b.sn)) =
    some (0x0002000000020000#64, true, false) :=
  (afterX_flags (·.dual 4) rfl rfl).trans (by decide)

theorem test_ashiftNi : afterX (.ashiftNi .x 5 4 (-8)) [(4, 0x87654321)] (fun b => (b.reg 5, b.sz, b.sn)) =
    some (0xFF876543#32, false, true) :=
  (afterX_flags (·.reg 5) rfl rfl).trans (by decide)

theorem test_ashiftBi : afterX (.ashiftBi .x 5 4 (-3)) [(4, 0x80FF0140)] (fun b => (b.reg 5, b.sz, b.sn)) =
    some (0xF0FF0008#32, true, true) :=
  (afterX_flags (·.reg 5) rfl rfl).trans (by decide)

theorem test_ashiftSr : afterX (.ashiftSr .x 5 4 3) [(4, 0x00018000), (3, 0x3F)] (fun b => (b.reg 5, b.sz, b.sn)) =
    some (0x0000C000#32, true, true) :=
  (afterX_flags (·.reg 5) rfl rfl).trans (by decide)

theorem test_ashiftDnr : afterX (.ashiftDnr .x 4 2 6) [(3, 0x80000001), (2, 0x00000100), (6, 0x60)] (fun b => (b.dual 4, b.sz, b.sn)) =
    some (0xFFFFFFFF00000000#64, true, true) :=
  (afterX_flags (·.dual 4) rfl rfl).trans (by decide)

theorem test_ashiftDbr : afterX (.ashiftDbr .x 4 2 6) [(3, 0x80FF0140), (2, 0x80FF0140), (6, 0xABCD001D)] (fun b => (b.dual 4, b.sz, b.sn)) =
    some (0xF0FF0008F0FF0008#64, true, true) :=
  (afterX_flags (·.dual 4) rfl rfl).trans (by decide)

theorem test_ashiftDbi : afterX (.ashiftDbi .x 4 2 (-3)) [(3, 0x80FF0140), (2, 0x80FF0140)] (fun b => (b.dual 4, b.sz, b.sn)) =
    some (0xF0FF0008F0FF0008#64, true, true) :=
  (afterX_flags (·.dual 4) rfl rfl).trans (by decide)

theorem test_ashiftDsr : afterX (.ashiftDsr .x 4 2 6) [(3, 0x00018000), (2, 0x00018000), (6, 0x3F)] (fun b => (b.dual 4, b.sz, b.sn)) =
    some (0x0000C0000000C000#64, true, true) :=
  (afterX_flags (·.dual 4) rfl rfl).trans (by decide)

theorem test_ashiftDsi : afterX (.ashiftDsi .x 4 2 (-1)) [(3, 0x00018000), (2, 0x00018000)] (fun b => (b.dual 4, b.sz, b.sn)) =
    some (0x0000C0000000C000#64, true, true) :=
  (afterX_flags (·.dual 4) rfl rfl).trans (by decide)

theorem test_ashiftLr : afterX (.ashiftLr .x 4 2 6) [(3, 0x80000000), (2, 1), (6, 0xC1)] (fun b => (b.dual 4, b.sz, b.sn)) =
    some (0xFFFFFFFFFFFFFFFF#64, false, true) :=
  (afterX_flags (·.dual 4) rfl rfl).trans (by decide)

theorem test_rotDnr : afterX (.rotDnr .x 0 2 4) [(3, 0), (2, 0xFF000000), (5, 0x7F), (4, 8)] (fun b => (b.dual 0, b.sz, b.sn)) =
    some (0x00000000000000FF#64, true, false) :=
  (afterX_flags (·.dual 0) rfl rfl).trans (by decide)

theorem test_bclrNi : afterX (.bclrNi .x 5 4 8) [(4, 0xFFFFFFFF)] (fun b => (b.reg 5, b.sz, b.sn)) =
    some (0xFFFFFEFF#32, false, true) :=
  (afterX_flags (·.reg 5) rfl rfl).trans (by decide)

theorem test_bclrLi : afterX (.bclrLi .x 4 2 32) [(3, 1), (2, 0x100)] (fun b => (b.dual 4, b.sz, b.sn)) =
    some (0x0000000000000100#64, false, false) :=
  (afterX_flags (·.dual 4) rfl rfl).trans (by decide)

theorem test_bsetNr : afterX (.bsetNr .x 5 4 3) [(3, 31)] (fun b => (b.reg 5, b.sz, b.sn)) =
    some (0x80000000#32, false, true) :=
  (afterX_flags (·.reg 5) rfl rfl).trans (by decide)

theorem test_bsetLr : afterX (.bsetLr .x 4 2 6) [(6, 0xFFFFFF20)] (fun b => (b.dual 4, b.sz, b.sn)) =
    some (0x0000000100000000#64, false, false) :=
  (afterX_flags (·.dual 4) rfl rfl).trans (by decide)

theorem test_btglNi : afterX (.btglNi .x 5 4 31) [(4, 0x80000000)] (fun b => (b.reg 5, b.sz, b.sn)) =
    some (0x00000000#32, true, false) :=
  (afterX_flags (·.reg 5) rfl rfl).trans (by decide)

theorem test_btglLr : afterX (.btglLr .x 4 2 6) [(2, 1), (6, 63)] (fun b => (b.dual 4, b.sz, b.sn)) =
    some (0x8000000000000001#64, false, true) :=
  (afterX_flags (·.dual 4) rfl rfl).trans (by decide)

theorem test_fextLd : afterX (.fextLd .x 4 2 6 false) [(3, 0x01234567), (2, 0x89ABCDEF), (7, 28), (6, 12)] (fun b => (b.dual 4, b.sz, b.sn)) =
    some (0x0000000000000678#64, false, false) :=
  (afterX_flags (·.dual 4) rfl rfl).trans (by decide)

theorem test_fdepNd : afterX (.fdepNd .x 5 4 6 .keep) [(5, 0xA5A5A5A5), (4, 0x12345678), (7, 5), (6, 8)] (fun b => (b.reg 5, b.sz, b.sn)) =
    some (0xA5A5AF05#32, false, true) :=
  (afterX_flags (·.reg 5) rfl rfl).trans (by decide)

theorem test_fdepLd : afterX (.fdepLd .x 4 2 6 .se) [(5, 0xA5A5A5A5), (4, 0xA5A5A5A5), (2, 0xABC), (7, 28), (6, 12)] (fun b => (b.dual 4, b.sz, b.sn)) =
    some (0xFFFFFFABC5A5A5A5#64, false, true) :=
  (afterX_flags (·.dual 4) rfl rfl).trans (by decide)

/-! ## Lines: V121, V124, V127, V129, V130, and the source's static-flag example -/

/-- The slots of V120 to V128, and those of V129. -/
def setX : List Slot := [⟨true, .bsetNi .x 5 4 0⟩]

def setXAndY : List Slot := [⟨true, .bsetNi .x 5 4 0⟩, ⟨false, .bsetNi .y 5 4 0⟩]

theorem test_V121 : afterLine (some (.flag .x .seq)) setX (withFlags false true false false) .x = some 0#32 :=
  (afterLine_of false (by simp [condValue, condHolds, flagCondHolds, flags_withFlags])).trans (by decide)
theorem test_V124 : afterLine (some (.flag .x .slt)) setX (withFlags true true false false) .x = some 0#32 :=
  (afterLine_of false (by simp [condValue, condHolds, flagCondHolds, flags_withFlags])).trans (by decide)
theorem test_V127 : afterLine (some (.flag .x .nslt)) setX (withFlags false false false false) .x = some 1#32 :=
  (afterLine_of true (by simp [condValue, condHolds, flagCondHolds, flags_withFlags])).trans (by decide)
theorem test_V129 : afterLine (some (.flag .x .seq)) setXAndY (withFlags false false true true) .y = some 1#32 :=
  (afterLine_of false (by simp [condValue, condHolds, flagCondHolds, flags_withFlags])).trans (by decide)
theorem test_V130 : afterLine (some (.flag .y .seq)) setX (withFlags false false true false) .x = some 1#32 :=
  (afterLine_of true (by simp [condValue, condHolds, flagCondHolds, flags_withFlags])).trans (by decide)

/-- A slot that does not execute is no reason to stop: the false condition leaves out the FEXT with an empty field. -/
theorem test_false_condition_reads_nothing :
    afterLine (some (.flag .x .seq)) [⟨true, .fextNr .x 5 4 3 false⟩] (withFlags false false false false) .x = some 0#32 :=
  (afterLine_of false (by simp [condValue, condHolds, flagCondHolds, flags_withFlags])).trans (by decide)

/-- R45: each slot reads the state before the line, here the two blocks' own operands. -/
theorem test_both_blocks :
    afterLine none [⟨false, .bsetNi .x 5 4 0⟩, ⟨false, .bsetNi .y 5 4 1⟩] State.reset .y = some 2#32 := by decide

/-- Is there a next state? -/
def isNext (r : Result) : Bool :=
  match r with
  | .next _ => true
  | _ => false

theorem next_of_isNext {r : Result} (h : isNext r = true) : ∃ u, r = .next u := by
  cases r <;> first | exact ⟨_, rfl⟩ | cases h

/-- The placed word is run first after reset: the source's first line. -/
theorem test_fetch_word : isNext (step (State.reset.withFetchWord 184 0x3b3b33522059422034522054464948534c203d20355258)) = true := by
  decide

/-! ## Witnesses: for each statement with hypotheses, a state and operands that meet them -/

/-- A program of one line, the text of `test_decode_lshiftNr`. -/
def lineX : Text := txt "XR5 = LSHIFT R14 BY R13;;"

def oneLine : State := State.reset.load [lineX]

/-- Two such lines, the first already executed. -/
def secondLine : State := { State.reset with program := [lineX, lineX], lc := 1 }

/-- The line of V129, and the slots it decodes to. -/
def condText : Text := txt "IF XSEQ; DO, XR5 = BSET R4 BY 0; YR5 = BSET R4 BY 0 ;;"

def condSlots : List Slot := [⟨true, .bsetNi .x 5 4 0⟩, ⟨false, .bsetNi .y 5 4 0⟩]

/-- The line of V120, whose one slot is controlled. -/
def setText : Text := txt "IF XSEQ; DO, XR5 = BSET R4 BY 0 ;;"

theorem test_set_text : decodeLine setText = .ok (.issue (some (.flag .x .seq)) [⟨true, .bsetNi .x 5 4 0⟩]) := by decide

theorem oneLine_steps : ∃ u, step oneLine = .next u := next_of_isNext (by decide)

theorem secondLine_steps : ∃ u, step secondLine = .next u := next_of_isNext (by decide)

theorem witness_DecodeReadsEveryEncodedLine :
    (Line.single (.rotLi .y 16 14 (-64))).wf && (Line.issue (some (.flag .x .seq)) condSlots).wf &&
      (Line.issue (some (.static .scf1)) [⟨true, .ld0N .y 5 4⟩]).wf && (Line.flagLoad .y .scf1 .x .nslt).wf = true := by decide

theorem witness_TableWordReadsEveryEncodedInstr :
    (Instr.getbits .xy 16 12 16 true).wf && (Instr.btglLi .x 0 0 63).wf && (Instr.lshiftSi .y 17 0 (-16)).wf = true := by decide

theorem witness_DecodedLinesAreWellFormed : ∃ t l, decodeLine t = .ok l := ⟨_, _, test_decode_rotLi⟩

theorem witness_CommentsHaveNoEffect :
    lex (txt "XR5 = LD0 R4;;") = .ok [.word (txt "XR5"), .eq, .word (txt "LD0"), .word (txt "R4"), .lineEnd] ∧
      ∀ u v, txt " count / zeros " ≠ u ++ txt "*/" ++ v := by
  refine ⟨by decide, fun u v h => ?_⟩
  have hm : byteOf '*' ∈ u ++ txt "*/" ++ v :=
    List.mem_append_left _ (List.mem_append_right _ (by decide))
  rw [← h] at hm
  exact absurd hm (by decide)

theorem witness_StepRunsTheDecodedInstr :
    oneLine.fetch = some lineX ∧ decodeLine lineX = .ok (.single (.lshiftNr .x 5 14 13)) := ⟨rfl, test_decode_lshiftNr⟩

theorem witness_FetchWordIsRunNext :
    decodeTableWord 184 0x3b3b33522059422034522054464948534c203d20355258 = some (.lshiftNr .x 5 4 3) ∧
      ∃ u, exec (.lshiftNr .x 5 4 3) (State.reset.withFetchWord 184 0x3b3b33522059422034522054464948534c203d20355258) = .next u := ⟨test_table_word, _, rfl⟩

theorem condSlots_inDomain (cond : Option Cond) (σ : State) : LineInDomain (.issue cond condSlots) σ := by
  intro sl hm _
  rcases List.mem_cons.mp hm with rfl | hm
  · exact fun _ _ => trivial
  · rw [List.mem_singleton.mp hm]; exact fun _ _ => trivial

/-- The condition holds: both slots execute, one in each block. -/
theorem witness_LineExecutesItsSlots :
    let σ := { withFlags true false false false with program := [condText] }
    σ.fetch = some condText ∧ decodeLine condText = .ok (.issue (some (.flag .x .seq)) condSlots) ∧
      condValue (some (.flag .x .seq)) condSlots σ = true ∧ LineInDomain (.issue (some (.flag .x .seq)) condSlots) σ ∧
      (∃ sl v, sl ∈ condSlots ∧ sl.controlled = true ∧ sl.instr.runs .x = true ∧ exec sl.instr σ = .next v) ∧
      (∃ sl v, sl ∈ condSlots ∧ sl.controlled = false ∧ sl.instr.runs .y = true ∧ exec sl.instr σ = .next v) :=
  ⟨rfl, test_conditional_line, (flags_withFlags true false false false).1, condSlots_inDomain _ _,
    ⟨_, _, List.mem_cons_self, rfl, rfl, rfl⟩,
    ⟨⟨false, .bsetNi .y 5 4 0⟩, _, by decide, rfl, rfl, rfl⟩⟩

/-- The condition is false: nothing executes in block X. -/
theorem witness_LineLeavesABlockAlone :
    let σ := { withFlags false false false false with program := [condText] }
    σ.fetch = some condText ∧ ∀ sl, sl ∈ condSlots →
      (sl.controlled = false ∨ condValue (some (.flag .x .seq)) condSlots σ = true) → sl.instr.runs .x = false := by
  have hc : condValue (some (.flag .x .seq)) condSlots { withFlags false false false false with program := [condText] } = false :=
    (flags_withFlags false false false false).1
  refine ⟨rfl, ?_⟩
  dsimp only
  rw [hc]
  decide

theorem witness_FalseConditionHasNoEffect :
    let σ := { withFlags false false false false with program := [setText] }
    let slots : List Slot := [⟨true, .bsetNi .x 5 4 0⟩]
    σ.fetch = some setText ∧ decodeLine setText = .ok (.issue (some (.flag .x .seq)) slots) ∧
      (∀ sl, sl ∈ slots → sl.controlled = true) ∧ condValue (some (.flag .x .seq)) slots σ = false :=
  ⟨rfl, test_set_text, by decide, (flags_withFlags false false false false).1⟩

theorem witness_SlotOrderHasNoEffect :
    (Line.issue (some (.flag .x .seq)) condSlots).wf = true ∧
      condValue (some (.flag .x .seq)) condSlots (withFlags true false false false) = true ∧
      ∃ t u, exec (.bsetNi .x 5 4 0) (withFlags true false false false) = .next t ∧ exec (.bsetNi .y 5 4 0) t = .next u :=
  ⟨by decide, (flags_withFlags true false false false).1, _, _, rfl, rfl⟩

theorem witness_StepPastTheLastLineEnds : State.reset.program.length ≤ State.reset.lc := by decide

theorem witness_StepRefusesWhatIsNoLine :
    (State.reset.load [txt "XBFOTMP = R4:3;;"]).fetch = some (txt "XBFOTMP = R4:3;;") ∧
      decodeLine (txt "XBFOTMP = R4:3;;") = .error (.illFormed .pair) := ⟨rfl, test_refuses_odd_pair⟩

theorem inDomain_of_next {i : Instr} {σ t : State} (h : exec i σ = .next t) : InDomain i σ := (exec_cases h).1

theorem not_inDomain_of_fault {i : Instr} {σ : State} (h : exec i σ = .fault .outOfDomain) : ¬ InDomain i σ := fun hd => by
  obtain ⟨f, hf, -⟩ := exec_domain i
  rw [hf σ hd] at h
  cases h

theorem single_inDomain_iff (i : Instr) (σ : State) : LineInDomain (.single i) σ ↔ InDomain i σ :=
  ⟨fun h => h _ List.mem_cons_self (.inl rfl), fun h sl hm _ => by rw [List.mem_singleton.mp hm]; exact h⟩

/-- A line in its domain, and one that is not: after reset R3 names an empty field. -/
theorem witness_EveryDecodedLineCompletes :
    (oneLine.fetch = some lineX ∧ decodeLine lineX = .ok (.single (.lshiftNr .x 5 14 13)) ∧
      LineInDomain (.single (.lshiftNr .x 5 14 13)) oneLine) ∧
    decodeLine (txt "XR5 = FEXT R4 By R3 (SE) ;;") = .ok (.single (.fextNr .x 5 4 3 true)) ∧
      ¬ LineInDomain (.single (.fextNr .x 5 4 3 true)) (State.reset.load [txt "XR5 = FEXT R4 By R3 (SE) ;;"]) :=
  ⟨⟨rfl, test_decode_lshiftNr, (single_inDomain_iff _ _).mpr (inDomain_of_next rfl)⟩, by decide,
    (single_inDomain_iff _ _).not.mpr (not_inDomain_of_fault rfl)⟩

theorem witness_EveryInstrCompletesInItsDomain :
    InDomain (.getbits .xy 4 0 6 false) { onX [(6, 64)] with y := setRegs Block.reset [(6, 1)] } ∧
      ¬ InDomain (.getbits .xy 4 0 6 false) (onX [(6, 64)]) := ⟨inDomain_of_next rfl, not_inDomain_of_fault rfl⟩

theorem witness_EveryStepAdvancesOneLine : ∃ u, step oneLine = .next u := oneLine_steps

theorem witness_StepKeepsPassedLinesWellFormed : PassedLinesWellFormed secondLine ∧ ∃ u, step secondLine = .next u := by
  refine ⟨⟨by decide, fun n t hn ht => ?_⟩, secondLine_steps⟩
  have h0 : n = 0 := by
    have : n < 1 := hn
    omega
  subst h0
  cases ht
  exact ⟨_, test_decode_lshiftNr, by decide⟩

theorem witness_ProgramLeavesAvoidedBlockAlone : ProgramAvoids .y secondLine ∧ ∃ u, step secondLine = .next u := by
  refine ⟨fun t l ht hl => ?_, secondLine_steps⟩
  have : t = lineX := by simpa [secondLine] using ht
  subst this
  rw [show decodeLine lineX = _ from test_decode_lshiftNr] at hl
  cases hl
  rfl

theorem witness_StaticFlagLoadIsWhatSfTests :
    let t := txt "XSCF0 = XSEQ ;; /* Load X-compute block SEQ flag */"
    (State.reset.load [t]).fetch = some t ∧ decodeLine t = .ok (.flagLoad .x .scf0 .x .seq) := ⟨rfl, test_flag_load⟩

/-- A controlled slot in Y, and a free one in X. -/
theorem witness_StaticConditionIsOfTheControlledBlock :
    let slots : List Slot := [⟨true, .ld0N .y 5 4⟩, ⟨false, .ld0N .x 5 4⟩]
    (Line.issue (some (.static .scf1)) slots).wf = true ∧
      ∀ sl, sl ∈ slots → sl.controlled = true → sl.instr.runs .y = true := by decide

/-- Each bound met, and each missed by one. -/
theorem witness_WellFormedInstrsAreInRange :
    ((Instr.lshiftBi .x 5 4 (-8)).wf && (Instr.rotLi .x 16 14 63).wf && (Instr.getbits .x 16 12 16 false).wf) = true ∧
      ((Instr.lshiftBi .x 5 4 (-9)).wf || (Instr.rotLi .x 16 14 64).wf || (Instr.getbits .x 16 14 16 false).wf) = false := by
  decide

theorem witness_WellFormedLinesAreInRange :
    (Line.issue (some (.static .scf1)) [⟨true, .ld0N .y 5 4⟩, ⟨false, .ld0N .x 5 4⟩]).wf = true ∧
      (Line.issue (some (.static .scf1)) [⟨true, .ld0N .y 5 4⟩, ⟨true, .ld0N .x 5 4⟩]).wf = false := by decide

theorem witness_InstrChangesOnlyItsBlocks :
    (∃ t, exec (.ld0N .x 5 4) State.reset = .next t) ∧ (Instr.ld0N .x 5 4).runs .y = false := ⟨⟨_, rfl⟩, rfl⟩

theorem witness_BlockEffectDependsOnThatBlockAlone :
    let σ' := { onX [] with y := setRegs Block.reset [(4, 7)], lc := 9 }
    State.reset.block .x = σ'.block .x ∧ (∃ t, exec (.bkfpt .xy 2 4) State.reset = .next t) ∧
      ∃ t, exec (.bkfpt .xy 2 4) σ' = .next t := ⟨rfl, ⟨_, rfl⟩, ⟨_, rfl⟩⟩

theorem witness_OnlyBkfptAndStatLoadsChangeBf :
    ((∃ t, exec (.bkfpt .x 2 4) State.reset = .next t) ∧ (∃ t, exec (.statLoad .x 4) State.reset = .next t) ∧
      (∃ t, exec (.statlLoad .x 4) State.reset = .next t) ∧ ∃ t, exec (.maskN .x 5 4 3) State.reset = .next t) ∧
    (Instr.bkfpt .x 2 4).runs .x && (Instr.statLoad .x 4).runs .x && (Instr.statlLoad .x 4).runs .x &&
      (Instr.maskN .x 5 4 3).runs .x = true := ⟨⟨⟨_, rfl⟩, ⟨_, rfl⟩, ⟨_, rfl⟩, ⟨_, rfl⟩⟩, rfl⟩

/-- AN is such a bit, wherever it stands. -/
theorem witness_OnlyStatLoadsChangeOtherStatBits :
    (∃ t, exec (.bkfpt .x 2 4) State.reset = .next t) ∧ (∀ sd m, Instr.bkfpt .x 2 4 ≠ .statLoad sd m) ∧
      (∀ sd m, Instr.bkfpt .x 2 4 ≠ .statlLoad sd m) ∧
      Config.anBit ≠ Config.szBit ∧ Config.anBit ≠ Config.snBit ∧ Config.anBit ≠ Config.bfLsb ∧
      Config.anBit ≠ Config.bfLsb + 1 :=
  ⟨⟨_, rfl⟩, nofun, nofun, by simp⟩

theorem witness_OnlyPutbitsAndLoadChangeBfotmp :
    (∃ t, exec (.getbits .x 4 0 6 true) (onX [(6, 1)]) = .next t) ∧
      (∀ blk s m n, Instr.getbits .x 4 0 6 true ≠ .putbits blk s m n) ∧
      ∀ blk m, Instr.getbits .x 4 0 6 true ≠ .bfotmpLoad blk m := ⟨⟨_, rfl⟩, nofun, nofun⟩

theorem witness_DualRegisterHalves : (6 : Reg) ≠ 4 ∧ (6 : Reg) ≠ 4 + 1 := by decide

/-- The top bit of R15:12. -/
theorem witness_QuadRegisterBits :
    127 < 128 ∧ (15 : Reg).val = ((12 : Reg).val + 127 / 32) % Config.nreg := ⟨by decide, rfl⟩

/-- The top bit of a byte, shifted either way and not at all. -/
theorem witness_LogicalShiftOfOneElement : 7 < 8 ∧ (0 : Int) ≤ 3 ∧ (0 : Int) ≤ 0 ∧ ¬ (0 : Int) ≤ -3 := by decide

theorem witness_OffScaleShifts : ((8 : Nat) : Int) ≤ 8 ∧ (-8 : Int) ≤ -((8 : Nat) : Int) := by decide

/-- In the register forms of BTGL the second control register is another one, the first being the result. -/
theorem witness_SetIsNeverZeroAndToggleTwiceRestores :
    Blk.x.runs .x = true ∧ (∃ t, exec (.bsetNr .x 5 4 3) State.reset = .next t) ∧
      (31 < 32 ∧ ∃ t, exec (.bsetNi .x 5 4 31) State.reset = .next t) ∧
      (∃ t, exec (.bsetLr .x 4 2 6) State.reset = .next t) ∧
      (63 < 64 ∧ ∃ t, exec (.bsetLi .x 4 2 63) State.reset = .next t) ∧
      (∃ t u, exec (.btglNr .x 3 4 3) (onX [(3, 31), (6, 63)]) = .next t ∧ exec (.btglNr .x 5 3 6) t = .next u ∧
        ((t.block .x).reg 6).toNat % 32 = (((onX [(3, 31), (6, 63)]).block .x).reg 3).toNat % 32) ∧
      (∃ t u, exec (.btglNi .x 5 4 31) State.reset = .next t ∧ exec (.btglNi .x 6 5 31) t = .next u) ∧
      (∃ t u, exec (.btglLr .x 4 2 6) (onX [(6, 63)]) = .next t ∧ exec (.btglLr .x 8 4 6) t = .next u ∧
        ((t.block .x).reg 6).toNat % 64 = (((onX [(6, 63)]).block .x).reg 6).toNat % 64) ∧
      ∃ t u, exec (.btglLi .x 4 2 63) State.reset = .next t ∧ exec (.btglLi .x 8 4 63) t = .next u :=
  ⟨rfl, ⟨_, rfl⟩, ⟨by decide, _, rfl⟩, ⟨_, rfl⟩, ⟨by decide, _, rfl⟩, ⟨_, _, rfl, rfl, by decide⟩, ⟨_, _, rfl, rfl⟩,
    ⟨_, _, rfl, rfl, by decide⟩, _, _, rfl, rfl⟩

/-- The highest position and the greatest length, in each of the four places the control fields are. -/
theorem witness_FextExtractsTheField :
    let σ := onX [(3, 0x00001F01), (6, 0x00000040), (9, 31), (8, 1), (11, 0), (10, 64)]
    InDomain (.fextNr .x 5 4 3 true) σ ∧ InDomain (.fextNd .x 5 4 8 true) σ ∧ InDomain (.fextLr .x 4 2 6 true) σ ∧
      InDomain (.fextLd .x 4 2 10 true) σ :=
  ⟨inDomain_of_next rfl, inDomain_of_next rfl, inDomain_of_next rfl, inDomain_of_next rfl⟩

/-- One past each of those bounds, and no field at all. -/
theorem witness_FextOutOfDomain :
    let σ := onX [(3, 0x00001F02), (6, 0x00000041), (9, 32), (8, 1), (11, 0), (10, 0)]
    ¬ InDomain (.fextNr .x 5 4 3 true) σ ∧ ¬ InDomain (.fextNd .x 5 4 8 true) σ ∧ ¬ InDomain (.fextLr .x 4 2 6 true) σ ∧
      ¬ InDomain (.fextLd .x 4 2 10 true) σ :=
  ⟨not_inDomain_of_fault rfl, not_inDomain_of_fault rfl, not_inDomain_of_fault rfl, not_inDomain_of_fault rfl⟩

theorem witness_FdepDepositsTheField :
    let σ := onX [(3, 0x00001C04), (6, 0x00003F01), (9, 0), (8, 32), (11, 63), (10, 1)]
    InDomain (.fdepNr .x 5 4 3 .zf) σ ∧ InDomain (.fdepNd .x 5 4 8 .se) σ ∧ InDomain (.fdepLr .x 4 2 6 .keep) σ ∧
      InDomain (.fdepLd .x 4 2 10 .zf) σ :=
  ⟨inDomain_of_next rfl, inDomain_of_next rfl, inDomain_of_next rfl, inDomain_of_next rfl⟩

theorem witness_FdepOutOfDomain :
    let σ := onX [(3, 0x00001C05), (6, 0x00003F02), (9, 0), (8, 33), (11, 64), (10, 1)]
    ¬ InDomain (.fdepNr .x 5 4 3 .zf) σ ∧ ¬ InDomain (.fdepNd .x 5 4 8 .se) σ ∧ ¬ InDomain (.fdepLr .x 4 2 6 .keep) σ ∧
      ¬ InDomain (.fdepLd .x 4 2 10 .zf) σ :=
  ⟨not_inDomain_of_fault rfl, not_inDomain_of_fault rfl, not_inDomain_of_fault rfl, not_inDomain_of_fault rfl⟩

/-- A one-bit field at the top, and a whole word. -/
theorem witness_SignExtendOptionExtendsTheTopBit :
    (1 ≤ 1 ∧ 31 < 32 ∧ 31 + 1 ≤ 32) ∧ 1 ≤ 32 ∧ 0 < 32 ∧ 0 + 32 ≤ 32 := by decide

theorem witness_ZeroFillOptionClearsAboveTheField : 1 ≤ 8 ∧ 5 + 8 ≤ 32 ∧ 12 < 32 ∧ 13 < 32 := by decide

theorem witness_StatMoves : (13 < 14 ∧ 13 < 32) ∧ ¬ 14 < 14 ∧ 14 < 32 := by decide

theorem witness_BkfptWritesBf :
    Config.anBit ≠ Config.szBit ∧ Config.anBit ≠ Config.snBit ∧ Config.anBit ≠ Config.bfLsb ∧
      Config.anBit ≠ Config.bfLsb + 1 := by simp

/-- The shortest and the longest field, and the lengths beside them. -/
theorem witness_GetbitsExtractsFromTheStream :
    let σ := onX [(7, 63), (6, 64), (9, 0), (8, 1), (11, 0), (10, 0), (13, 0), (12, 65)]
    (InDomain (.getbits .x 4 0 6 true) σ ∧ InDomain (.getbits .x 4 0 8 true) σ) ∧
      ¬ InDomain (.getbits .x 4 0 10 true) σ ∧ ¬ InDomain (.getbits .x 4 0 12 true) σ :=
  ⟨⟨inDomain_of_next rfl, inDomain_of_next rfl⟩, not_inDomain_of_fault rfl, not_inDomain_of_fault rfl⟩

/-- Bits on both sides of the highest pointer. -/
theorem witness_PutbitsDepositsIntoTheStream :
    let bfp := ((onX [(7, 0xFFFFFFFF)]).x.reg 7).toNat % 64
    bfp = 63 ∧ 62 < bfp ∧ ¬ 63 < bfp ∧ 63 < 64 := by decide

theorem witness_BfotmpReturnsWhatWasLoaded :
    Blk.xy.runs .y = true ∧ ∃ t u, exec (.bfotmpLoad .xy 2) State.reset = .next t ∧ exec (.bfotmpStore .xy 4) t = .next u :=
  ⟨rfl, _, _, rfl, rfl⟩

/-- The pointer wraps at exactly 64. -/
theorem witness_BfoincAdvancesThePointer :
    let b := (onX [(7, 63), (6, 1)]).x
    64 ≤ (b.reg (6 + 1)).toNat % 64 + (b.reg 6).toNat % 128 ∧ (6 : Reg) ≠ 6 + 1 ∧ Config.szBit ≠ Config.anBit ∧
      Side.y ≠ Side.x := ⟨by decide, by decide, by simp, by decide⟩

end Sys2Proof.Tests
end

section
/-! PROOFS. Dual registers as numbers (10_state.md R12). -/

namespace Sys2Proof.Machine

open Sys2Proof

theorem reg_setDual_high (b : Block) (i : Reg) (v : LongWord) :
    (b.setDual i v).reg (i + 1) = v.extractLsb' 32 32 := by
  rw [reg_setDual, if_pos rfl]

/-- The write of the upper half, which comes second, is to another register. -/
theorem reg_setDual_low (b : Block) (i : Reg) (v : LongWord) :
    (b.setDual i v).reg i = v.extractLsb' 0 32 := by
  rw [reg_setDual, if_neg (reg_ne_succ i), if_pos rfl]

theorem reg_setDual_of_ne {i r : Reg} (b : Block) (v : LongWord) (hlow : r ≠ i) (hhigh : r ≠ i + 1) :
    (b.setDual i v).reg r = b.reg r := by
  rw [reg_setDual, if_neg hhigh, if_neg hlow]

theorem toNat_reg_setDual_high (b : Block) (i : Reg) (v : LongWord) :
    ((b.setDual i v).reg (i + 1)).toNat = v.toNat / 2 ^ 32 := by
  have hquot : v.toNat / 2 ^ 32 < 2 ^ 32 := by have := v.isLt; omega
  rw [reg_setDual_high, BitVec.extractLsb'_toNat, Nat.shiftRight_eq_div_pow, Nat.mod_eq_of_lt hquot]

theorem toNat_reg_setDual_low (b : Block) (i : Reg) (v : LongWord) :
    ((b.setDual i v).reg i).toNat = v.toNat % 2 ^ 32 := by
  rw [reg_setDual_low, BitVec.extractLsb'_toNat, Nat.shiftRight_zero]

/-- Settles O31: the read is `dual_toNat`, the write one lemma for each half and one for the other registers. -/
theorem dualRegisterHalves : Obligations.DualRegisterHalves := fun b i _ v =>
  ⟨dual_toNat b i, toNat_reg_setDual_high b i v, toNat_reg_setDual_low b i v, reg_setDual_of_ne b v⟩

end Sys2Proof.Machine
end

section
/-! PROOFS. The logical shift of one element, apart by direction (40_shift_rotate.md R101). -/

namespace Sys2Proof.Machine

open Sys2Proof Sys2Proof.Safety

/-- A left shift fills the bits below `k` with zeros; no source bit lies past the element. -/
theorem lshBit_of_nonneg {E j : Nat} {k : Int} (v : Nat → Bool) (hk : 0 ≤ k) (hj : j < E) :
    lshBit E v k j = (decide (k ≤ j) && v (j - k.toNat)) := by
  have hrange : (0 ≤ (j : Int) - k ∧ (j : Int) - k < E) ↔ k ≤ j := by omega
  have hsource : ((j : Int) - k).toNat = j - k.toNat := by omega
  simp only [lshBit, hrange, hsource]

/-- A right shift reads past the element at the top, where a vector's bits are zero. -/
theorem lshBit_of_neg {E : Nat} {k : Int} (v : BitVec E) (j : Nat) (hk : k < 0) :
    lshBit E v.getLsbD k j = v.getLsbD (j + (-k).toNat) := by
  have hrange : (0 ≤ (j : Int) - k ∧ (j : Int) - k < E) ↔ j + (-k).toNat < E := by omega
  have hsource : ((j : Int) - k).toNat = j + (-k).toNat := by omega
  simp only [lshBit, hrange, hsource]
  by_cases hin : j + (-k).toNat < E
  · rw [decide_eq_true hin, Bool.true_and]
  · rw [decide_eq_false hin, Bool.false_and, BitVec.getLsbD_of_ge _ _ (Nat.le_of_not_lt hin)]

/-- Settles O35: the bit of the shift is `lshBit`, read off for each direction. -/
theorem logicalShiftOfOneElement : Obligations.LogicalShiftOfOneElement := by
  intro E v k j hj
  rw [getLsbD_lsh v k j hj]
  by_cases hk : 0 ≤ k
  · rw [if_pos hk, lshBit_of_nonneg _ hk hj]
  · rw [if_neg hk, lshBit_of_neg v j (Int.not_le.mp hk)]

end Sys2Proof.Machine
end

section
/-! PROOFS. The shifter conditions as tests of the flags (45_conditional.md R252 to R254). -/

namespace Sys2Proof.Machine

open Sys2Proof

theorem flagCondHolds_seq_iff (b : Block) : flagCondHolds .seq b = true ↔ b.sz = true := Iff.rfl

/-- The second conjunct matters where several results leave both flags set (10_state.md R20). -/
theorem flagCondHolds_slt_iff (b : Block) : flagCondHolds .slt b = true ↔ b.sn = true ∧ b.sz = false := by
  rw [flagCondHolds, Bool.and_eq_true, Bool.not_eq_true']

theorem flagCondHolds_nseq_iff (b : Block) : flagCondHolds .nseq b = true ↔ b.sz = false := by
  rw [flagCondHolds, Bool.not_eq_true']

/-- R256: a condition of the flags reads the block its prefix names, not the block of the instructions it controls. -/
theorem condHolds_flag (side sf : Side) (c : FlagCond) (s : State) :
    condHolds (.flag side c) sf s = flagCondHolds c (s.block side) := rfl

/-- Settles O21: each condition is its test of the flags, on the block the prefix names. -/
theorem seqSltNseqTestTheFlags : Obligations.SeqSltNseqTestTheFlags := by
  intro side sf σ
  simp only [condHolds_flag]
  exact ⟨flagCondHolds_seq_iff _, flagCondHolds_slt_iff _, flagCondHolds_nseq_iff _⟩

end Sys2Proof.Machine
end

section
/-! PROOFS. The text of a line decodes to the line (30_encoding.md R51 to R68, 45_conditional.md R250 to R258). -/

namespace Sys2Proof

open Sys2Proof.Laws

/-- Every instruction is the row of R63 that its surface form names: the lemmas by constructor, together. -/
theorem instr?_form (i : Instr) : i.form.instr? = some i := match i with
  | .lshiftNr .. => InstrFormRoundTrip.lshiftNr ..
  | .lshiftNi .. => InstrFormRoundTrip.lshiftNi ..
  | .lshiftBr .. => InstrFormRoundTrip.lshiftBr ..
  | .lshiftBi .. => InstrFormRoundTrip.lshiftBi ..
  | .lshiftSr .. => InstrFormRoundTrip.lshiftSr ..
  | .lshiftSi .. => InstrFormRoundTrip.lshiftSi ..
  | .lshiftDnr .. => InstrFormRoundTrip.lshiftDnr ..
  | .lshiftDni .. => InstrFormRoundTrip.lshiftDni ..
  | .lshiftDbr .. => InstrFormRoundTrip.lshiftDbr ..
  | .lshiftDbi .. => InstrFormRoundTrip.lshiftDbi ..
  | .lshiftDsr .. => InstrFormRoundTrip.lshiftDsr ..
  | .lshiftDsi .. => InstrFormRoundTrip.lshiftDsi ..
  | .lshiftLr .. => InstrFormRoundTrip.lshiftLr ..
  | .lshiftLi .. => InstrFormRoundTrip.lshiftLi ..
  | .ashiftNr .. => InstrFormRoundTrip.ashiftNr ..
  | .ashiftNi .. => InstrFormRoundTrip.ashiftNi ..
  | .ashiftBr .. => InstrFormRoundTrip.ashiftBr ..
  | .ashiftBi .. => InstrFormRoundTrip.ashiftBi ..
  | .ashiftSr .. => InstrFormRoundTrip.ashiftSr ..
  | .ashiftSi .. => InstrFormRoundTrip.ashiftSi ..
  | .ashiftDnr .. => InstrFormRoundTrip.ashiftDnr ..
  | .ashiftDni .. => InstrFormRoundTrip.ashiftDni ..
  | .ashiftDbr .. => InstrFormRoundTrip.ashiftDbr ..
  | .ashiftDbi .. => InstrFormRoundTrip.ashiftDbi ..
  | .ashiftDsr .. => InstrFormRoundTrip.ashiftDsr ..
  | .ashiftDsi .. => InstrFormRoundTrip.ashiftDsi ..
  | .ashiftLr .. => InstrFormRoundTrip.ashiftLr ..
  | .ashiftLi .. => InstrFormRoundTrip.ashiftLi ..
  | .rotNr .. => InstrFormRoundTrip.rotNr ..
  | .rotNi .. => InstrFormRoundTrip.rotNi ..
  | .rotDnr .. => InstrFormRoundTrip.rotDnr ..
  | .rotDni .. => InstrFormRoundTrip.rotDni ..
  | .rotLr .. => InstrFormRoundTrip.rotLr ..
  | .rotLi .. => InstrFormRoundTrip.rotLi ..
  | .bclrNr .. => InstrFormRoundTrip.bclrNr ..
  | .bclrNi .. => InstrFormRoundTrip.bclrNi ..
  | .bclrLr .. => InstrFormRoundTrip.bclrLr ..
  | .bclrLi .. => InstrFormRoundTrip.bclrLi ..
  | .bsetNr .. => InstrFormRoundTrip.bsetNr ..
  | .bsetNi .. => InstrFormRoundTrip.bsetNi ..
  | .bsetLr .. => InstrFormRoundTrip.bsetLr ..
  | .bsetLi .. => InstrFormRoundTrip.bsetLi ..
  | .btglNr .. => InstrFormRoundTrip.btglNr ..
  | .btglNi .. => InstrFormRoundTrip.btglNi ..
  | .btglLr .. => InstrFormRoundTrip.btglLr ..
  | .btglLi .. => InstrFormRoundTrip.btglLi ..
  | .bitestNr .. => InstrFormRoundTrip.bitestNr ..
  | .bitestNi .. => InstrFormRoundTrip.bitestNi ..
  | .bitestLr .. => InstrFormRoundTrip.bitestLr ..
  | .bitestLi .. => InstrFormRoundTrip.bitestLi ..
  | .fextNr .. => InstrFormRoundTrip.fextNr ..
  | .fextNd .. => InstrFormRoundTrip.fextNd ..
  | .fextLr .. => InstrFormRoundTrip.fextLr ..
  | .fextLd .. => InstrFormRoundTrip.fextLd ..
  | .fdepNr .. => InstrFormRoundTrip.fdepNr ..
  | .fdepNd .. => InstrFormRoundTrip.fdepNd ..
  | .fdepLr .. => InstrFormRoundTrip.fdepLr ..
  | .fdepLd .. => InstrFormRoundTrip.fdepLd ..
  | .maskN .. => InstrFormRoundTrip.maskN ..
  | .maskL .. => InstrFormRoundTrip.maskL ..
  | .statLoad .. => InstrFormRoundTrip.statLoad ..
  | .statlLoad .. => InstrFormRoundTrip.statlLoad ..
  | .statStore .. => InstrFormRoundTrip.statStore ..
  | .ld0N .. => InstrFormRoundTrip.ld0N ..
  | .ld0L .. => InstrFormRoundTrip.ld0L ..
  | .ld1N .. => InstrFormRoundTrip.ld1N ..
  | .ld1L .. => InstrFormRoundTrip.ld1L ..
  | .expN .. => InstrFormRoundTrip.expN ..
  | .expL .. => InstrFormRoundTrip.expL ..
  | .bkfpt .. => InstrFormRoundTrip.bkfpt ..
  | .getbits .. => InstrFormRoundTrip.getbits ..
  | .putbits .. => InstrFormRoundTrip.putbits ..
  | .bfotmpStore .. => InstrFormRoundTrip.bfotmpStore ..
  | .bfotmpLoad .. => InstrFormRoundTrip.bfotmpLoad ..

theorem instrOf_form_tokens (i : Instr) : instrOf i.form.tokens = some i := by
  rw [instrOf, formOf_tokens]
  exact instr?_form i

/-! ## Slots -/

/-- `DO` is the first word of no instruction, so it marks a controlled slot and nothing else. -/
theorem formOf_do (ts : List Token) : formOf (.word (txt "DO") :: ts) = none := rfl

/-- `IF` is the first word of no instruction. -/
theorem formOf_if (ts : List Token) : formOf (.word (txt "IF") :: ts) = none := rfl

theorem formOf_of_splitBlock_scf {w : Text} (ts : List Token)
    (h : (splitBlock w).2 = txt "SCF0" ∨ (splitBlock w).2 = txt "SCF1") : formOf (.word w :: ts) = none := by
  obtain ⟨blk, hblk⟩ : ∃ blk, (splitBlock w).1 = blk := ⟨_, rfl⟩
  rcases h with h | h <;> rw [formOf, ← Prod.eta (splitBlock w), hblk, h] <;> rfl

/-- The name of a static flag is the first word of no instruction. -/
theorem formOf_of_staticFlagOf {w : Text} {p : Side × StaticFlag} (ts : List Token) (h : staticFlagOf w = some p) :
    formOf (.word w :: ts) = none := by
  unfold staticFlagOf at h
  split at h
  · cases h
  · split at h
    · rename_i h0
      exact formOf_of_splitBlock_scf ts (.inl h0)
    · split at h
      · rename_i h1
        exact formOf_of_splitBlock_scf ts (.inr h1)
      · cases h

/-- A slot that does not begin with `DO` is an uncontrolled instruction. -/
theorem slotOf_uncontrolled {ts : List Token} (h : ∀ rest, ts ≠ .word (txt "DO") :: rest) :
    slotOf ts = (instrOf ts).map fun i => ⟨false, i⟩ := by
  unfold slotOf
  split
  · rename_i w rest
    rw [if_neg (by rintro rfl; exact h _ rfl)]
  · rfl

theorem slotOf_tokens (sl : Slot) : slotOf sl.tokens = some sl := by
  obtain ⟨controlled, i⟩ := sl
  cases controlled with
  | true =>
    show slotOf (.word (txt "DO") :: .comma :: i.form.tokens) = _
    rw [slotOf, if_pos rfl, instrOf_form_tokens]
    rfl
  | false =>
    show slotOf i.form.tokens = _
    have hdo : ∀ rest, i.form.tokens ≠ .word (txt "DO") :: rest := fun rest he => by
      have hform := formOf_tokens i.form
      rw [he, formOf_do] at hform
      cases hform
    rw [slotOf_uncontrolled hdo, instrOf_form_tokens]
    rfl

theorem tokens_slot_ne_nil (sl : Slot) : sl.tokens ≠ [] := fun h => by
  have hslot := slotOf_tokens sl
  rw [h] at hslot
  cases hslot

/-- What a slot begins with tells its line from a conditional line and from a flag load. -/
theorem slot_head {sl : Slot} {w : Text} {rest : List Token} (h : sl.tokens = .word w :: rest) :
    w ≠ txt "IF" ∧ staticFlagOf w = none := by
  obtain ⟨controlled, i⟩ := sl
  cases controlled with
  | true =>
    cases h
    exact ⟨by decide, by decide⟩
  | false =>
    have hform := formOf_tokens i.form
    rw [show i.form.tokens = .word w :: rest from h] at hform
    refine ⟨?_, Option.eq_none_iff_forall_ne_some.mpr fun p hp => ?_⟩
    · rintro rfl
      rw [formOf_if] at hform
      cases hform
    · rw [formOf_of_staticFlagOf rest hp] at hform
      cases hform

theorem slotsOf_tokens (slots : List Slot) : slotsOf (slots.map Slot.tokens) = some slots := by
  induction slots with
  | nil => rfl
  | cons sl rest ih => rw [List.map_cons, slotsOf, slotOf_tokens, ih]

/-- The first slot of a line and what stands after it. -/
theorem slotsTokens_cons (sl : Slot) (rest : List Slot) :
    slotsTokens (sl :: rest) = sl.tokens ++ if rest = [] then [.lineEnd] else .semi :: slotsTokens rest := by
  cases rest <;> rfl

/-! ## Lines -/

theorem issueOf_slotsTokens (cond : Option Cond) {slots : List Slot} (h : slots ≠ []) :
    issueOf cond (slotsTokens slots) = .ok (.issue cond slots) := by
  rw [issueOf, cutSlots_slotsTokens slots h]
  dsimp only
  rw [slotsOf_tokens]

/-- A line whose first word is neither `IF` nor a static flag is a line of slots without a condition. -/
theorem lineOf_issue {ts : List Token}
    (h : ∀ w rest, ts = .word w :: rest → w ≠ txt "IF" ∧ staticFlagOf w = none) : lineOf ts = issueOf none ts := by
  unfold lineOf
  split
  · rename_i w rest
    obtain ⟨hif, hflag⟩ := h w rest rfl
    rw [if_neg hif]
    have hload : flagLoadOf (.word w :: rest) = none := by
      unfold flagLoadOf
      split
      · rename_i he
        cases he
        rw [hflag]
      · rfl
    rw [hload]
  · rfl

theorem condOf_spell (c : Cond) : condOf c.spell = some c := by
  cases c with
  | flag side fc => cases side <;> cases fc <;> decide
  | static f => cases f <;> decide

theorem staticFlagOf_spell (dst : Side) (f : StaticFlag) : staticFlagOf (dst.blk.spell ++ f.spell) = some (dst, f) := by
  cases dst <;> cases f <;> decide

theorem flagCondOf_spell (src : Side) (c : FlagCond) : flagCondOf (src.blk.spell ++ c.spell) = some (src, c) := by
  cases src <;> cases c <;> decide

theorem flagName_ne_if (dst : Side) (f : StaticFlag) : dst.blk.spell ++ f.spell ≠ txt "IF" := by
  cases dst <;> cases f <;> decide

/-- The slots of a line, of which the parser needs at least one. -/
def Line.HasSlot : Line → Prop
  | .issue _ slots => slots ≠ []
  | .flagLoad _ _ _ _ => True

theorem hasSlot_of_wf {l : Line} (h : l.wf = true) : l.HasSlot := by
  cases l with
  | issue cond slots => exact (Machine.wf_issue h).1
  | flagLoad dst f src c => trivial

/-- The parser reads back the line that was spelled. -/
theorem lineOf_tokens {l : Line} (h : l.HasSlot) : lineOf l.tokens = .ok l := by
  match l, h with
  | .issue none (sl :: rest), h =>
    have hhead : ∀ w ts, slotsTokens (sl :: rest) = .word w :: ts → w ≠ txt "IF" ∧ staticFlagOf w = none := fun w ts he => by
      rw [slotsTokens_cons] at he
      obtain ⟨t, ts', hsl⟩ := List.exists_cons_of_ne_nil (tokens_slot_ne_nil sl)
      rw [hsl] at he
      cases he
      exact slot_head hsl
    exact (lineOf_issue hhead).trans (issueOf_slotsTokens none h)
  | .issue (some c) slots, h =>
    rw [Line.tokens, lineOf, if_pos rfl, conditionalOf, condOf_spell]
    exact issueOf_slotsTokens (some c) h
  | .flagLoad dst f src c, _ =>
    rw [Line.tokens, lineOf, if_neg (flagName_ne_if dst f), flagLoadOf, staticFlagOf_spell, flagCondOf_spell]

/-! ## The tokens of a line as text -/

theorem noDoubleSemi_append {ts rest : List Token} (h : ∀ t, t ∈ ts → t ≠ .semi) (hrest : NoDoubleSemi rest) :
    NoDoubleSemi (ts ++ rest) := by
  induction ts with
  | nil => exact hrest
  | cons t ts ih =>
    have ht : t ≠ .semi := h t List.mem_cons_self
    have ih := ih fun u hu => h u (List.mem_cons_of_mem _ hu)
    rw [List.cons_append]
    cases hts : ts ++ rest with
    | nil => trivial
    | cons u us => exact ⟨fun hsemi => ht hsemi.1, hts ▸ ih⟩

theorem noDoubleSemi_semi_cons {ts : List Token} (h : ts.head? ≠ some .semi) (hts : NoDoubleSemi ts) :
    NoDoubleSemi (.semi :: ts) := by
  cases ts with
  | nil => trivial
  | cons t ts => exact ⟨fun hsemi => h (by rw [hsemi.2]; rfl), hts⟩

theorem head_slotsTokens (slots : List Slot) : (slotsTokens slots).head? ≠ some .semi := by
  cases slots with
  | nil => exact nofun
  | cons sl rest =>
    obtain ⟨t, ts, hsl⟩ := List.exists_cons_of_ne_nil (tokens_slot_ne_nil sl)
    have ht : t.inSlot := inSlot_slot sl t (by rw [hsl]; exact List.mem_cons_self)
    rw [slotsTokens_cons, hsl]
    exact fun he => ht.2.1 (Option.some.inj he)

theorem noDoubleSemi_slotsTokens (slots : List Slot) : NoDoubleSemi (slotsTokens slots) := by
  induction slots with
  | nil => trivial
  | cons sl rest ih =>
    rw [slotsTokens_cons]
    refine noDoubleSemi_append (fun t ht => (inSlot_slot sl t ht).2.1) ?_
    split
    · trivial
    · exact noDoubleSemi_semi_cons (head_slotsTokens rest) ih

theorem spellable_slotsTokens (slots : List Slot) : ∀ t, t ∈ slotsTokens slots → t.spellable := by
  induction slots with
  | nil => exact fun t ht => by rw [List.mem_singleton.mp ht]; trivial
  | cons sl rest ih =>
    intro t ht
    rw [slotsTokens_cons] at ht
    rcases List.mem_append.mp ht with ht | ht
    · exact (inSlot_slot sl t ht).1
    · split at ht
      · rw [List.mem_singleton.mp ht]
        trivial
      · rcases List.mem_cons.mp ht with rfl | ht
        · trivial
        · exact ih t ht

theorem inSlot_if : Token.inSlot (.word (txt "IF")) := inSlot_txt (by decide)

theorem inSlot_cond (c : Cond) : Token.inSlot (.word c.spell) := by
  cases c with
  | flag side fc => exact inSlot_txt (by cases side <;> cases fc <;> decide)
  | static f => exact inSlot_txt (by cases f <;> decide)

theorem inSlot_flagName (dst : Side) (f : StaticFlag) : Token.inSlot (.word (dst.blk.spell ++ f.spell)) :=
  inSlot_txt (by cases dst <;> cases f <;> decide)

theorem inSlot_flagCond (src : Side) (c : FlagCond) : Token.inSlot (.word (src.blk.spell ++ c.spell)) :=
  inSlot_cond (.flag src c)

theorem spellable_tokens (l : Line) : ∀ t, t ∈ l.tokens → t.spellable := by
  intro t ht
  match l with
  | .issue none slots => exact spellable_slotsTokens slots t ht
  | .issue (some c) slots =>
    simp only [Line.tokens, List.mem_cons] at ht
    rcases ht with rfl | rfl | rfl | ht
    · exact inSlot_if.1
    · exact (inSlot_cond c).1
    · trivial
    · exact spellable_slotsTokens slots t ht
  | .flagLoad dst f src c =>
    simp only [Line.tokens, List.mem_cons, List.not_mem_nil, or_false] at ht
    rcases ht with rfl | rfl | rfl | rfl
    · exact (inSlot_flagName dst f).1
    · trivial
    · exact (inSlot_flagCond src c).1
    · trivial

theorem noDoubleSemi_tokens (l : Line) : NoDoubleSemi l.tokens := by
  match l with
  | .issue none slots => exact noDoubleSemi_slotsTokens slots
  | .issue (some c) slots =>
    have hsemi := noDoubleSemi_semi_cons (head_slotsTokens slots) (noDoubleSemi_slotsTokens slots)
    exact ⟨nofun, nofun, hsemi⟩
  | .flagLoad dst f src c => exact ⟨nofun, nofun, nofun, trivial⟩

theorem lex_encodeLine (l : Line) : lex (encodeLine l) = .ok l.tokens :=
  lex_render l.tokens (spellable_tokens l) (noDoubleSemi_tokens l)

theorem problem_of_wf {l : Line} (h : l.wf = true) : l.problem = none := Option.isNone_iff_eq_none.mp h

/-- What a text that lexes and parses to a well-formed line decodes to. -/
theorem decodeLine_of_lineOf {t : Text} {ts : List Token} {l : Line} (hlex : lex t = .ok ts) (hline : lineOf ts = .ok l)
    (hwf : l.wf = true) : decodeLine t = .ok l := by
  rw [decodeLine, hlex]
  dsimp only
  rw [hline]
  dsimp only
  rw [problem_of_wf hwf]

/-- Settles O1: the lexer reads back the tokens of the line, the parser the line. -/
theorem decodeReadsEveryEncodedLine : Obligations.DecodeReadsEveryEncodedLine := fun l hwf =>
  decodeLine_of_lineOf (lex_encodeLine l) (lineOf_tokens (hasSlot_of_wf hwf)) hwf

/-- Settles O3: the last thing the decoder does is to refuse a line with a problem. -/
theorem decodedLinesAreWellFormed : Obligations.DecodedLinesAreWellFormed := fun _ _ h => (Machine.decodeLine_cases h).1

/-- Settles O6: the decoder is run on each of the six texts. -/
theorem specTextsDecode : Obligations.SpecTextsDecode :=
  ⟨by decide, by decide, by decide, by decide, by decide, by decide⟩

/-! ## Words of bits -/

theorem bytesOf_textWord (t : Text) : bytesOf t.length (textWord t) = t := by
  induction t with
  | nil => rfl
  | cons c cs ih =>
    have hc : c.toNat < 256 := c.isLt
    have hlow : (c.toNat + 256 * textWord cs) % 256 = c.toNat := by omega
    have hhigh : (c.toNat + 256 * textWord cs) / 256 = textWord cs := by omega
    rw [List.length_cons, bytesOf, textWord, hlow, hhigh, ih, BitVec.ofNat_toNat, BitVec.setWidth_eq]

/-- A text that does not end with a zero byte is read back from its word. -/
theorem wordText_textWord (t : Text) {c : Byte} (hc : c ≠ 0#8) :
    wordText (8 * (t ++ [c]).length) (textWord (t ++ [c])) = t ++ [c] := by
  have hbytes : (8 * (t ++ [c]).length + 7) / 8 = (t ++ [c]).length := by omega
  rw [wordText, hbytes, bytesOf_textWord, List.reverse_append, List.reverse_singleton, List.singleton_append,
    List.dropWhile_cons_of_neg (by simpa using hc), List.reverse_cons, List.reverse_reverse]

/-- A text ends with its last token. -/
theorem render_append_singleton (ts : List Token) (t : Token) : ∃ u, render (ts ++ [t]) = u ++ t.spell := by
  induction ts with
  | nil => exact ⟨[], rfl⟩
  | cons a ts ih =>
    obtain ⟨u, hu⟩ := ih
    obtain ⟨b, bs, hb⟩ := List.exists_cons_of_ne_nil (List.append_ne_nil_of_right_ne_nil ts (List.cons_ne_nil t []))
    refine ⟨a.spell ++ (if glued a b then [] else txt " ") ++ u, ?_⟩
    rw [List.cons_append, hb, render, ← hb, hu]
    simp only [List.append_assoc]

theorem encode_ends_with_semicolon (i : Instr) : ∃ u, encode i = u ++ [byteOf ';'] := by
  obtain ⟨u, hu⟩ := render_append_singleton (Slot.tokens ⟨false, i⟩) .lineEnd
  exact ⟨u ++ [byteOf ';'], hu.trans (List.append_assoc u [byteOf ';'] [byteOf ';']).symm⟩

theorem runCount_singleton_le (side : Side) (sl : Slot) : runCount side [sl] ≤ 1 := List.countP_le_length

theorem wf_single {i : Instr} (h : i.wf = true) : (Line.single i).wf = true := by
  have hx := runCount_singleton_le .x ⟨false, i⟩
  have hy := runCount_singleton_le .y ⟨false, i⟩
  have hp : i.problem = none := Option.isNone_iff_eq_none.mp h
  rw [Line.wf, Line.single, Line.problem, if_neg (by simp [maxSlots]), if_neg (by omega)]
  simp [condProblem, hp]

/-- Settles O2: the word of the text is read back as the text, and the text as the line that holds the instruction. -/
theorem tableWordReadsEveryEncodedInstr : Obligations.TableWordReadsEveryEncodedInstr := by
  intro i hwf
  have hline : decodeLine (encode i) = .ok (.single i) := decodeReadsEveryEncodedLine _ (wf_single hwf)
  have hword : wordText (8 * (encode i).length) (textWord (encode i)) = encode i := by
    obtain ⟨u, hu⟩ := encode_ends_with_semicolon i
    rw [hu]
    exact wordText_textWord u (by decide)
  rw [decodeTableWord, hword, hline]
  rfl

end Sys2Proof
end

section
/-! PROOFS. Spellings the lexer does not tell apart: letter case (00_scope.md R6) and comments (30_encoding.md R52). -/

namespace Sys2Proof

/-- A text means what its tokens mean. -/
theorem decodeLine_congr {t u : Text} (h : lex t = lex u) : decodeLine t = decodeLine u := by
  rw [decodeLine, decodeLine, h]

/-! ## Letter case -/

/-- A lower-case letter, which `upper` replaces by its capital. -/
def lowerCase (c : Byte) : Prop := 97 ≤ c.toNat ∧ c.toNat ≤ 122

theorem upper_of_not_lowerCase {c : Byte} (h : ¬ lowerCase c) : upper c = c := if_neg h

theorem toNat_upper {c : Byte} (h : lowerCase c) : (upper c).toNat = c.toNat - 32 := by
  obtain ⟨hlow, hhigh⟩ := h
  rw [upper, if_pos ⟨hlow, hhigh⟩]
  bv_omega

theorem wordByte_upper {c : Byte} (h : lowerCase c) : wordByte (upper c) := by
  have hn := toNat_upper h
  obtain ⟨hlow, hhigh⟩ := h
  right
  omega

theorem classify_lowerCase {c : Byte} (h : lowerCase c) : classify c = .word := by
  obtain ⟨hlow, hhigh⟩ := h
  unfold classify
  dsimp only
  rw [if_neg (by omega), if_pos (by omega)]

theorem upper_upper (c : Byte) : upper (upper c) = upper c := by
  by_cases h : lowerCase c
  · exact upper_wordByte (wordByte_upper h)
  · rw [upper_of_not_lowerCase h, upper_of_not_lowerCase h]

theorem classify_upper (c : Byte) : classify (upper c) = classify c := by
  by_cases h : lowerCase c
  · rw [classify_wordByte (wordByte_upper h), classify_lowerCase h]
  · rw [upper_of_not_lowerCase h]

/-- A character that is neither a letter nor a digit is the capital of itself only. -/
theorem upper_eq_iff {c d : Byte} (hword : ¬ wordByte d) (hlower : ¬ lowerCase d) : upper c = d ↔ c = d := by
  by_cases h : lowerCase c
  · refine ⟨fun he => absurd (wordByte_upper h) (he ▸ hword), fun he => absurd h (he ▸ hlower)⟩
  · rw [upper_of_not_lowerCase h]

theorem upper_eq_star (c : Byte) : upper c = byteOf '*' ↔ c = byteOf '*' :=
  upper_eq_iff (by unfold wordByte; decide) (by unfold lowerCase; decide)

theorem upper_eq_slash (c : Byte) : upper c = byteOf '/' ↔ c = byteOf '/' :=
  upper_eq_iff (by unfold wordByte; decide) (by unfold lowerCase; decide)

theorem upper_eq_equals (c : Byte) : upper c = byteOf '=' ↔ c = byteOf '=' :=
  upper_eq_iff (by unfold wordByte; decide) (by unfold lowerCase; decide)

theorem upper_eq_semicolon (c : Byte) : upper c = byteOf ';' ↔ c = byteOf ';' :=
  upper_eq_iff (by unfold wordByte; decide) (by unfold lowerCase; decide)

theorem startToken_upper (c : Byte) : startToken (upper c) = startToken c := by
  rw [startToken, startToken, classify_upper, upper_upper]

theorem flushThen_upper (mode : LexMode) (c : Byte) : flushThen mode (upper c) = flushThen mode c := by
  rw [flushThen, flushThen, startToken_upper]

/-- The lexer does not tell a letter from its capital, in any mode. -/
theorem lexStep_upper (mode : LexMode) (c : Byte) : lexStep mode (upper c) = lexStep mode c := by
  cases mode with
  | gap => exact flushThen_upper .gap c
  | word w => simp only [lexStep, classify_upper, upper_upper, flushThen_upper]
  | semi => simp only [lexStep, upper_eq_semicolon, flushThen_upper]
  | plus => simp only [lexStep, upper_eq_equals]
  | slash => simp only [lexStep, upper_eq_star]
  | comment => simp only [lexStep, upper_eq_star]
  | star => simp only [lexStep, upper_eq_star, upper_eq_slash]

theorem lexFrom_map_upper (mode : LexMode) (t : Text) : lexFrom mode (t.map upper) = lexFrom mode t := by
  induction t generalizing mode with
  | nil => rfl
  | cons c cs ih => simp only [List.map_cons, lexFrom_cons, lexStep_upper, ih]

/-- Settles O7: capitals give the same tokens. -/
theorem letterCaseHasNoEffect : Obligations.LetterCaseHasNoEffect := fun t =>
  decodeLine_congr (lexFrom_map_upper .gap t)

/-! ## Comments -/

/-- A mode in which a text may end: between tokens, in a word or after a `;`. -/
def LexMode.AtToken (mode : LexMode) : Prop := ∃ ts, lexEnd mode = .ok ts

theorem lexFrom_cons_of_lexStep {mode : LexMode} {c : Byte} {p : List Token × LexMode} (cs : Text)
    (h : lexStep mode c = .ok p) : lexFrom mode (c :: cs) = prepend p.1 (lexFrom p.2 cs) := by
  rw [lexFrom_cons, h]

/-- A text that lexes is read character by character, each of which lexes. -/
theorem lexFrom_cons_eq_ok {mode : LexMode} {c : Byte} {cs : Text} {ts : List Token} (h : lexFrom mode (c :: cs) = .ok ts) :
    ∃ p us, lexStep mode c = .ok p ∧ lexFrom p.2 cs = .ok us := by
  cases hstep : lexStep mode c with
  | error e =>
    rw [lexFrom_cons, hstep] at h
    cases h
  | ok p =>
    cases hrest : lexFrom p.2 cs with
    | error e =>
      rw [lexFrom_cons_of_lexStep cs hstep, hrest] at h
      cases h
    | ok us => exact ⟨p, us, rfl, hrest⟩

/-- A text that lexes leaves the lexer where a text may end, whatever follows it. -/
theorem lexFrom_append {mode : LexMode} {t : Text} {ts : List Token} (h : lexFrom mode t = .ok ts) :
    ∃ us mode', mode'.AtToken ∧ ∀ v, lexFrom mode (t ++ v) = prepend us (lexFrom mode' v) := by
  induction t generalizing mode ts with
  | nil => exact ⟨[], mode, ⟨ts, h⟩, fun v => (prepend_nil _).symm⟩
  | cons c cs ih =>
    obtain ⟨p, ts', hstep, hrest⟩ := lexFrom_cons_eq_ok h
    obtain ⟨us, mode', hend, hv⟩ := ih hrest
    refine ⟨p.1 ++ us, mode', hend, fun v => ?_⟩
    rw [List.cons_append, lexFrom_cons_of_lexStep _ hstep, hv, prepend_prepend]

/-- A blank ends a token, if one is open. -/
theorem lexFrom_blank_of_atToken {mode : LexMode} (h : mode.AtToken) (t : Text) :
    lexFrom mode (txt " " ++ t) = prepend mode.pending (lexFrom .gap t) := by
  obtain ⟨ts, hts⟩ := h
  cases mode with
  | gap => exact lexFrom_blank .eq t
  | word w => exact lexFrom_blank (.word w) t
  | semi => exact lexFrom_blank .semi t
  | _ => cases hts

/-- The opening of a comment ends a token, if one is open. -/
theorem lexFrom_openComment {mode : LexMode} (h : mode.AtToken) (t : Text) :
    lexFrom mode (txt "/*" ++ t) = prepend mode.pending (lexFrom .comment t) := by
  obtain ⟨ts, hts⟩ := h
  have hopen : lexFrom .slash (byteOf '*' :: t) = lexFrom .comment t := (lexFrom_cons _ _ _).trans (prepend_nil _)
  have htext : txt "/*" ++ t = byteOf '/' :: byteOf '*' :: t := rfl
  rw [htext, lexFrom_cons, ← hopen]
  cases mode with
  | gap => rfl
  | word w => rfl
  | semi => rfl
  | _ => cases hts

/-- The text does not hold the end of a comment. -/
def NoCommentEnd (t : Text) : Prop := ∀ u v, t ≠ u ++ txt "*/" ++ v

theorem noCommentEnd_of_cons {c : Byte} {t : Text} (h : NoCommentEnd (c :: t)) : NoCommentEnd t := fun u v he =>
  h (c :: u) v (by rw [he]; rfl)

/-- After a star, a slash would end the comment. -/
theorem ne_slash_of_noCommentEnd {c : Byte} {t : Text} (h : NoCommentEnd (byteOf '*' :: c :: t)) : c ≠ byteOf '/' := by
  rintro rfl
  exact h [] t rfl

theorem lexFrom_comment_star (t : Text) : lexFrom .comment (byteOf '*' :: t) = lexFrom .star t :=
  (lexFrom_cons _ _ _).trans (prepend_nil _)

theorem lexFrom_star_star (t : Text) : lexFrom .star (byteOf '*' :: t) = lexFrom .star t :=
  (lexFrom_cons _ _ _).trans (prepend_nil _)

theorem lexFrom_star_slash (t : Text) : lexFrom .star (byteOf '/' :: t) = lexFrom .gap t :=
  (lexFrom_cons _ _ _).trans (prepend_nil _)

theorem lexFrom_comment_of_ne {c : Byte} (t : Text) (h : c ≠ byteOf '*') :
    lexFrom .comment (c :: t) = lexFrom .comment t := by
  rw [lexFrom_cons, lexStep, if_neg h]
  exact prepend_nil _

theorem lexFrom_star_of_ne {c : Byte} (t : Text) (hstar : c ≠ byteOf '*') (hslash : c ≠ byteOf '/') :
    lexFrom .star (c :: t) = lexFrom .comment t := by
  rw [lexFrom_cons, lexStep, if_neg hslash, if_neg hstar]
  exact prepend_nil _

/-- The lexer passes the body of a comment and its end, also when it has just read a star of the body. -/
theorem lexFrom_body (body after : Text) :
    (NoCommentEnd body → lexFrom .comment (body ++ (txt "*/" ++ after)) = lexFrom .gap after) ∧
    (NoCommentEnd (byteOf '*' :: body) → lexFrom .star (body ++ (txt "*/" ++ after)) = lexFrom .gap after) := by
  induction body with
  | nil =>
    have hend : txt "*/" ++ after = byteOf '*' :: byteOf '/' :: after := rfl
    rw [List.nil_append, hend, lexFrom_comment_star, lexFrom_star_star, lexFrom_star_slash]
    exact ⟨fun _ => rfl, fun _ => rfl⟩
  | cons c body ih =>
    obtain ⟨ihcomment, ihstar⟩ := ih
    rw [List.cons_append]
    by_cases hc : c = byteOf '*'
    · subst hc
      rw [lexFrom_comment_star, lexFrom_star_star]
      exact ⟨ihstar, fun h => ihstar (noCommentEnd_of_cons h)⟩
    · rw [lexFrom_comment_of_ne _ hc]
      refine ⟨fun h => ihcomment (noCommentEnd_of_cons h), fun h => ?_⟩
      rw [lexFrom_star_of_ne _ hc (ne_slash_of_noCommentEnd h)]
      exact ihcomment (noCommentEnd_of_cons (noCommentEnd_of_cons h))

/-- Settles O8: from the place where it stands, a comment and a blank leave the lexer in the same mode. -/
theorem commentsHaveNoEffect : Obligations.CommentsHaveNoEffect := by
  intro before body after ts hbefore hbody
  obtain ⟨us, mode, hend, happend⟩ := lexFrom_append hbefore
  apply decodeLine_congr
  rw [lex, lex]
  simp only [List.append_assoc]
  rw [happend, happend, lexFrom_openComment hend, (lexFrom_body body after).1 hbody, lexFrom_blank_of_atToken hend]

end Sys2Proof
end

section
/-! PROOFS. The well-formed terms are those whose fields and slots are in the ranges of the spec (30_encoding.md R58, R59, R64;
10_state.md R15; 45_conditional.md R250, R257; 70_reset_and_hazards.md R292, R293). -/

namespace Sys2Proof

open Sys2Proof.Machine Sys2Proof.Safety

/-! ## Instructions -/

theorem instr_wf_iff_checks (i : Instr) : i.wf = true ↔ ∀ c, c ∈ i.checks → c.problem = none := by
  rw [Instr.wf, Instr.problem, Option.isNone_iff_eq_none, List.findSome?_eq_none_iff]

theorem ite_none_some_eq_none_iff {α : Type} {p : Prop} [Decidable p] {a : α} :
    (if p then none else some a) = none ↔ p := by
  by_cases h : p <;> simp [h]

theorem problem_pair_iff (r : Reg) : (Check.pair r).problem = none ↔ IsPair r := ite_none_some_eq_none_iff

theorem problem_quad_iff (r : Reg) : (Check.quad r).problem = none ↔ IsQuad r := ite_none_some_eq_none_iff

theorem problem_magnitude_iff (bits : Nat) (k : Int) :
    (Check.magnitude bits k).problem = none ↔ -(2 ^ (bits - 1) : Int) ≤ k ∧ k < (2 ^ (bits - 1) : Int) :=
  ite_none_some_eq_none_iff

theorem problem_magnitude_four_iff (k : Int) : (Check.magnitude 4 k).problem = none ↔ -8 ≤ k ∧ k ≤ 7 := by
  rw [problem_magnitude_iff]
  omega

theorem problem_magnitude_five_iff (k : Int) : (Check.magnitude 5 k).problem = none ↔ -16 ≤ k ∧ k ≤ 15 := by
  rw [problem_magnitude_iff]
  omega

theorem problem_magnitude_six_iff (k : Int) : (Check.magnitude 6 k).problem = none ↔ -32 ≤ k ∧ k ≤ 31 := by
  rw [problem_magnitude_iff]
  omega

theorem problem_magnitude_seven_iff (k : Int) : (Check.magnitude 7 k).problem = none ↔ -64 ≤ k ∧ k ≤ 63 := by
  rw [problem_magnitude_iff]
  omega

theorem problem_bitNumber_iff (width b : Nat) : (Check.bitNumber width b).problem = none ↔ b < width :=
  ite_none_some_eq_none_iff

theorem problem_bitNumber_word_iff (b : Nat) : (Check.bitNumber 32 b).problem = none ↔ b ≤ 31 := by
  rw [problem_bitNumber_iff]
  omega

theorem problem_bitNumber_long_iff (b : Nat) : (Check.bitNumber 64 b).problem = none ↔ b ≤ 63 := by
  rw [problem_bitNumber_iff]
  omega

/-- Settles O4: form by form, each check of the model is one range of the spec. -/
theorem wellFormedInstrsAreInRange : Obligations.WellFormedInstrsAreInRange := by
  intro i
  rw [instr_wf_iff_checks]
  cases i <;>
    simp only [Instr.checks, FieldsInRange, List.forall_mem_cons, List.not_mem_nil, false_implies, implies_true, and_true,
      problem_pair_iff, problem_quad_iff, problem_magnitude_four_iff, problem_magnitude_five_iff, problem_magnitude_six_iff,
      problem_magnitude_seven_iff, problem_bitNumber_word_iff, problem_bitNumber_long_iff]

/-! ## Lines -/

/-- The checks of a line of slots, each by itself. -/
theorem issue_wf_iff (cond : Option Cond) (slots : List Slot) :
    (Line.issue cond slots).wf = true ↔
      1 ≤ slots.length ∧ slots.length ≤ maxSlots cond ∧ (∀ side, runCount side slots ≤ 1) ∧
        condProblem cond slots = none ∧ ∀ sl, sl ∈ slots → sl.instr.wf = true := by
  constructor
  · intro h
    obtain ⟨hne, hrest⟩ := wf_issue h
    exact ⟨List.length_pos_iff.mpr hne, hrest⟩
  · rintro ⟨hpos, hmax, hrun, hcond, hwf⟩
    have hx := hrun .x
    have hy := hrun .y
    have hslots : slots.findSome? (fun sl => sl.instr.problem) = none :=
      List.findSome?_eq_none_iff.mpr fun sl hsl => Option.isNone_iff_eq_none.mp (hwf sl hsl)
    rw [Line.wf, Line.problem, if_neg (by omega), if_neg (by omega), hcond]
    exact Option.isNone_iff_eq_none.mpr hslots

theorem maxSlots_eq (cond : Option Cond) : maxSlots cond = if cond = none then 4 else 3 := by cases cond <;> rfl

theorem runCount_eq_zero_iff (side : Side) (slots : List Slot) :
    runCount side slots = 0 ↔ ∀ sl, sl ∈ slots → sl.instr.runs side = false := by
  rw [runCount, List.countP_eq_zero]
  simp only [Bool.not_eq_true]

/-- At most one slot executes in each block exactly when no two slots share one. -/
theorem runCount_le_one_iff (slots : List Slot) :
    (∀ side, runCount side slots ≤ 1) ↔
      slots.Pairwise (fun a b => ∀ side, ¬ (a.instr.runs side = true ∧ b.instr.runs side = true)) := by
  induction slots with
  | nil => exact ⟨fun _ => List.Pairwise.nil, fun _ _ => Nat.zero_le 1⟩
  | cons a rest ih =>
    rw [List.pairwise_cons, ← ih]
    simp only [runCount_cons]
    constructor
    · intro h
      refine ⟨fun b hb side hshared => ?_, fun side => Nat.le_trans (Nat.le_add_right _ _) (h side)⟩
      obtain ⟨ha, hb'⟩ := hshared
      have hle := h side
      rw [if_pos ha] at hle
      have hzero := (runCount_eq_zero_iff side rest).mp (by omega) b hb
      rw [hb'] at hzero
      cases hzero
    · rintro ⟨ha, hrest⟩ side
      by_cases hruns : a.instr.runs side = true
      · have hzero : runCount side rest = 0 := (runCount_eq_zero_iff side rest).mpr fun b hb =>
          Bool.eq_false_iff.mpr fun hb' => ha b hb side ⟨hruns, hb'⟩
        rw [if_pos hruns, hzero]
      · rw [if_neg hruns]
        exact hrest side

/-- A block choice names one block only when it executes in that block and in no other. -/
theorem eq_side_blk_iff (blk : Blk) (side : Side) :
    blk = side.blk ↔ blk.runs side = true ∧ ∀ other, blk.runs other = true → other = side := by
  constructor
  · rintro rfl
    cases side
    · exact ⟨rfl, fun other h => by cases other; rfl; cases h⟩
    · exact ⟨rfl, fun other h => by cases other; cases h; rfl⟩
  · rintro ⟨hruns, honly⟩
    cases blk with
    | x => rw [← honly .x rfl]; rfl
    | y => rw [← honly .y rfl]; rfl
    | xy => cases (honly .x rfl).trans (honly .y rfl).symm

theorem controlledOnlyIn_iff (side : Side) (slots : List Slot) :
    controlledOnlyIn side slots = true ↔ ∀ sl, sl ∈ slots → sl.controlled = true →
      sl.instr.runs side = true ∧ ∀ other, sl.instr.runs other = true → other = side := by
  simp only [controlledOnlyIn, List.all_eq_true, Bool.or_eq_true, Bool.not_eq_true', decide_eq_true_iff, eq_side_blk_iff]
  refine forall_congr' fun sl => imp_congr_right fun _ => ?_
  cases sl.controlled <;> simp [Instr.runs]

/-- Some block is the one block of all controlled slots. -/
theorem exists_controlledOnlyIn_iff (slots : List Slot) :
    (controlledOnlyIn .x slots || controlledOnlyIn .y slots) = true ↔ ∃ side, controlledOnlyIn side slots = true := by
  rw [Bool.or_eq_true]
  constructor
  · rintro (h | h)
    · exact ⟨.x, h⟩
    · exact ⟨.y, h⟩
  · rintro ⟨side, h⟩
    cases side
    · exact .inl h
    · exact .inr h

/-- A line without a condition has no `DO`. -/
theorem condProblem_none_iff (slots : List Slot) :
    condProblem none slots = none ↔ ∀ sl, sl ∈ slots → sl.controlled = false := by
  cases h : slots.any (·.controlled) with
  | true =>
    obtain ⟨sl, hsl, hc⟩ := List.any_eq_true.mp h
    simp only [condProblem, h, if_true, reduceCtorEq, false_iff]
    intro hall
    rw [hall sl hsl] at hc
    cases hc
  | false =>
    have hall := List.any_eq_false.mp h
    simp only [condProblem, h, Bool.false_eq_true, if_false, true_iff]
    exact fun sl hsl => Bool.eq_false_iff.mpr (hall sl hsl)

/-- `SF0` or `SF1` has controlled slots, all of one and the same single block. -/
theorem condProblem_static_iff (g : StaticFlag) (slots : List Slot) :
    condProblem (some (.static g)) slots = none ↔ (∃ sl, sl ∈ slots ∧ sl.controlled = true) ∧
      ∃ side, ∀ sl, sl ∈ slots → sl.controlled = true →
        sl.instr.runs side = true ∧ ∀ other, sl.instr.runs other = true → other = side := by
  rw [condProblem, ite_none_some_eq_none_iff, Bool.and_eq_true, List.any_eq_true, exists_controlledOnlyIn_iff]
  simp only [controlledOnlyIn_iff]

/-- Settles O5: check by check, each being one clause of the range. -/
theorem wellFormedLinesAreInRange : Obligations.WellFormedLinesAreInRange := by
  intro l
  cases l with
  | flagLoad dst f src c => exact ⟨fun _ => trivial, fun _ => rfl⟩
  | issue cond slots =>
    have hinstrs : (∀ sl, sl ∈ slots → sl.instr.wf = true) ↔ ∀ sl, sl ∈ slots → FieldsInRange sl.instr :=
      forall_congr' fun sl => imp_congr_right fun _ => wellFormedInstrsAreInRange sl.instr
    rw [issue_wf_iff, maxSlots_eq, runCount_le_one_iff, hinstrs, LineInRange]
    match cond with
    | none =>
      rw [condProblem_none_iff]
      simp only [reduceCtorEq, true_implies, false_implies, implies_true, true_and]
      tauto
    | some (.flag side c) => simp [condProblem]
    | some (.static g) =>
      rw [condProblem_static_iff]
      simp only [reduceCtorEq, false_implies, true_and, Option.some.injEq, Cond.static.injEq, forall_eq']

end Sys2Proof
end

section
/-! PROOFS. Steps and lines (10_state.md R25, R33; 45_conditional.md R251; 30_encoding.md R64; 60_exceptions.md R270). -/

namespace Sys2Proof.Machine

open Sys2Proof Sys2Proof.Safety

/-! ## What a step is, by what the line counter names -/

theorem step_of_decodeLine {s : State} {t : Text} {l : Line} (hf : s.fetch = some t) (hd : decodeLine t = .ok l) :
    step s = runLine l s := by
  rw [step, hf]
  dsimp only
  rw [runText, hd]

/-- Settles O15: the text is read before anything is executed. -/
theorem stepRefusesWhatIsNoLine : Obligations.StepRefusesWhatIsNoLine := by
  intro σ t e hf hd
  rw [step, hf]
  dsimp only
  rw [runText, hd]

/-- Settles O14: there is no text past the last line. -/
theorem stepPastTheLastLineEnds : Obligations.StepPastTheLastLineEnds := by
  intro σ h
  have hfetch : σ.fetch = none := List.getElem?_eq_none h
  rw [step, hfetch]

/-- A step that answers a next state ran a well-formed line in its domain. -/
theorem step_next_cases {s u : State} (h : step s = .next u) :
    ∃ t l v, s.fetch = some t ∧ decodeLine t = .ok l ∧ l.wf = true ∧ LineInDomain l s ∧ execLine l s = .next v ∧
      u = v.advance ∧ v.program = s.program ∧ v.lc = s.lc := by
  rcases step_cases s with ⟨t, l, v, hf, hd, hwf, hin, hv, hs, hp, hl⟩ | ⟨t, l, hf, hd, hin, hs⟩ | ⟨t, e, hf, hd, hs⟩ | ⟨hf, hs⟩
  · rw [hs] at h
    cases h
    exact ⟨t, l, v, hf, hd, hwf, hin, hv, rfl, hp, hl⟩
  · rw [hs] at h
    cases h
  · rw [hs] at h
    cases h
  · rw [hs] at h
    cases h

/-- Settles O17: whatever line was run, only the line counter of what it left is moved. -/
theorem everyStepAdvancesOneLine : Obligations.EveryStepAdvancesOneLine := by
  intro σ u h
  obtain ⟨t, l, v, hf, -, -, -, -, rfl, hp, hl⟩ := step_next_cases h
  exact ⟨by rw [lc_advance, hl], by rw [program_advance, hp], fetch_eq_some hf⟩

/-- Settles O18: the one line that is newly passed has just been decoded. -/
theorem stepKeepsPassedLinesWellFormed : Obligations.StepKeepsPassedLinesWellFormed := by
  rintro σ u ⟨-, hpassed⟩ h
  obtain ⟨hlc, hp, hlt⟩ := everyStepAdvancesOneLine σ u h
  obtain ⟨t, l, -, hf, hd, hwf, -⟩ := step_next_cases h
  refine ⟨by rw [hlc, hp]; exact hlt, fun n t' hn ht' => ?_⟩
  rw [hp] at ht'
  rw [hlc] at hn
  rcases Nat.lt_succ_iff_lt_or_eq.mp hn with hbefore | rfl
  · exact hpassed n t' hbefore ht'
  · cases ht'.symm.trans hf
    exact ⟨l, hd, hwf⟩

theorem passedLinesWellFormed_of_lc_eq_zero {s : State} (h : s.lc = 0) : PassedLinesWellFormed s := by
  refine ⟨by rw [h]; exact Nat.zero_le _, fun n t hn _ => ?_⟩
  rw [h] at hn
  exact absurd hn (Nat.not_lt_zero n)

/-- Settles O19: the line counter is 0, so no line is passed. -/
theorem resetAndLoadMeetPassedLinesWellFormed : Obligations.ResetAndLoadMeetPassedLinesWellFormed :=
  ⟨passedLinesWellFormed_of_lc_eq_zero rfl, fun σ p => passedLinesWellFormed_of_lc_eq_zero (lc_load σ p)⟩

/-- Settles O16: in its domain a line leaves a next state, and out of it the first slot that is out of domain stops it. -/
theorem everyDecodedLineCompletes : Obligations.EveryDecodedLineCompletes := by
  intro σ t l hf hd
  rw [step_of_decodeLine hf hd]
  constructor
  · intro hin
    obtain ⟨u, hu, -, -⟩ := execLine_spec (decodeLine_cases hd).1 hin
    exact ⟨u.advance, by rw [runLine, hu]⟩
  · intro hout
    rw [runLine, execLine_outOfDomain hout]

/-! ## The slots of a line -/

theorem runs_iff {c : Bool} {sl : Slot} {side : Side} :
    Runs c sl side ↔ (sl.controlled = false ∨ c = true) ∧ sl.instr.runs side = true := Iff.rfl

/-- Settles O11: the gathering of the slots' effects, from the state before the line. -/
theorem lineExecutesItsSlotsOnTheStateBeforeIt : Obligations.LineExecutesItsSlotsOnTheStateBeforeIt := by
  intro σ t cond slots hf hd hin
  obtain ⟨-, -, hrun, -⟩ := wf_issue (decodeLine_cases hd).1
  obtain ⟨u, hu, hfl, hp, hl, hb⟩ := runSlots_spec (condValue cond slots σ) σ slots σ hrun hin
  refine ⟨u.advance, by rw [step_of_decodeLine hf hd, runLine, execLine, hu], by rw [lc_advance, hl],
    by rw [program_advance, hp], by rw [flags_advance, hfl], fun side => ?_⟩
  obtain ⟨heffect, hkept⟩ := hb side
  rw [block_advance]
  refine ⟨fun sl v hm hex hr he => heffect sl v hm ⟨hex, hr⟩ he, fun hno => hkept fun sl hm hruns => ?_⟩
  obtain ⟨hex, hr⟩ := runs_iff.mp hruns
  rw [hno sl hm hex] at hr
  cases hr

/-- A false condition passes over controlled slots. -/
theorem runSlots_false_of_controlled {slots : List Slot} (h : ∀ sl, sl ∈ slots → sl.controlled = true) (pre acc : State) :
    runSlots false pre slots acc = .next acc := by
  induction slots with
  | nil => rfl
  | cons sl rest ih =>
    rw [runSlots, h sl List.mem_cons_self]
    exact ih fun sl' hm => h sl' (List.mem_cons_of_mem _ hm)

/-- Settles O12: no slot leaves anything to gather. -/
theorem falseConditionHasNoEffect : Obligations.FalseConditionHasNoEffect := by
  intro σ t cond slots hf hd hall hc
  rw [step_of_decodeLine hf hd, runLine, execLine, hc, runSlots_false_of_controlled hall]
  rfl

/-! ## One instruction -/

/-- What an instruction leaves is the state before it with the blocks it executes in replaced. -/
theorem takeBlocks_of_exec {i : Instr} {s t : State} (h : exec i s = .next t) : s.takeBlocks i t = t := by
  obtain ⟨-, f, hb, -, hf, hp, hl⟩ := exec_cases h
  refine state_ext (fun side => ?_) hf.symm hp.symm hl.symm
  rw [block_takeBlocks, hb side]
  cases i.runs side <;> rfl

theorem runSlots_uncontrolled (i : Instr) (pre acc : State) (c : Bool) :
    runSlots c pre [⟨false, i⟩] acc = match exec i pre with
      | .next t => .next (acc.takeBlocks i t)
      | .fault f => .fault f
      | .refused r => .refused r := rfl

/-- A line of one instruction: its meaning, then the next line. -/
theorem runLine_single (i : Instr) (s : State) :
    runLine (.single i) s = match exec i s with
      | .next u => .next { u with lc := s.lc + 1 }
      | .fault f => .fault f
      | .refused r => .refused r := by
  rw [runLine, Line.single, execLine, runSlots_uncontrolled]
  cases h : exec i s with
  | fault f => rfl
  | refused r => rfl
  | next u =>
    obtain ⟨-, f, -, -, -, -, hl⟩ := exec_cases h
    dsimp only
    rw [takeBlocks_of_exec h, State.advance, hl]

/-- Settles O9: the line of one instruction, found by the line counter. -/
theorem stepRunsTheDecodedInstr : Obligations.StepRunsTheDecodedInstr := by
  intro σ t i hf hd
  rw [step_of_decodeLine hf hd]
  exact runLine_single i σ

theorem eq_single_of_single? {l : Line} {i : Instr} (h : l.single? = some i) : l = .single i := by
  unfold Line.single? at h
  split at h
  · cases h
    rfl
  · cases h

theorem decodeLine_of_decodeTableWord {nbits w : Nat} {i : Instr} (h : decodeTableWord nbits w = some i) :
    decodeLine (wordText nbits w) = .ok (.single i) := by
  unfold decodeTableWord at h
  split at h
  · rename_i l hl
    rw [hl, eq_single_of_single? h]
  · cases h

/-- Settles O10: the placed text is the one the line counter names. -/
theorem fetchWordIsRunNext : Obligations.FetchWordIsRunNext := by
  intro σ u nbits w i hword hexec
  rw [stepRunsTheDecodedInstr _ _ i (fetch_withFetchWord σ nbits w) (decodeLine_of_decodeTableWord hword), hexec]
  rfl

/-! ## Two slots in either order -/

/-- Two instructions of a well-formed line execute in no common block. -/
def DisjointBlocks (a b : Instr) : Prop := ∀ side, a.runs side = true → b.runs side = false

theorem disjointBlocks_of_wf {cond : Option Cond} {a b : Instr} {ca cb : Bool}
    (h : (Line.issue cond [⟨ca, a⟩, ⟨cb, b⟩]).wf = true) : DisjointBlocks a b := by
  intro side ha
  obtain ⟨-, -, hrun, -⟩ := wf_issue h
  have hle := hrun side
  rw [runCount_cons, if_pos ha] at hle
  have hzero : runCount side [⟨cb, b⟩] = 0 := by omega
  exact runCount_eq_zero hzero _ List.mem_cons_self

/-- Effects in different blocks are gathered in either order. -/
theorem takeBlocks_comm {a b : Instr} (h : DisjointBlocks a b) (s t u : State) :
    (s.takeBlocks a t).takeBlocks b u = (s.takeBlocks b u).takeBlocks a t := by
  refine state_ext (fun side => ?_) rfl rfl rfl
  simp only [block_takeBlocks]
  cases ha : a.runs side
  · rfl
  · rw [h side ha]
    rfl

/-- The condition of a line does not depend on the order of its slots. -/
theorem condValue_swap (cond : Option Cond) (x y : Slot) (s : State) : condValue cond [x, y] s = condValue cond [y, x] s := by
  have hy : controlledOnlyIn .y [x, y] = controlledOnlyIn .y [y, x] := Bool.and_left_comm _ _ _
  have hside : staticSide [x, y] = staticSide [y, x] := by rw [staticSide, staticSide, hy]
  cases cond with
  | none => rfl
  | some c => exact congrArg (condHolds c · s) hside

/-- Two slots in different blocks, each of which completes or is out of its domain, run in either order. -/
theorem runSlots_swap {a b : Instr} (h : DisjointBlocks a b) (c ca cb : Bool) (pre acc : State) :
    runSlots c pre [⟨ca, a⟩, ⟨cb, b⟩] acc = runSlots c pre [⟨cb, b⟩, ⟨ca, a⟩] acc := by
  obtain ⟨f, hfin, hfout⟩ := exec_domain a
  obtain ⟨g, hgin, hgout⟩ := exec_domain b
  by_cases ha : InDomain a pre <;> by_cases hb : InDomain b pre
  · simp only [runSlots, hfin pre ha, hgin pre hb, takeBlocks_comm h acc]
    split_ifs <;> rfl
  · simp only [runSlots, hfin pre ha, hgout pre hb]
    split_ifs <;> rfl
  · simp only [runSlots, hfout pre ha, hgin pre hb]
    split_ifs <;> rfl
  · simp only [runSlots, hfout pre ha, hgout pre hb]
    split_ifs <;> rfl

/-- The second of two instructions in different blocks finds its blocks as they were before the first. -/
theorem exec_after_disjoint {a b : Instr} (h : DisjointBlocks a b) {s t u : State} (ha : exec a s = .next t)
    (hb : exec b t = .next u) : ∃ v, exec b s = .next v ∧ (s.takeBlocks a t).takeBlocks b v = u := by
  obtain ⟨-, f, hft, -, hf, hp, hl⟩ := exec_cases ha
  obtain ⟨hbin, g, hgu, hg, hf', hp', hl'⟩ := exec_cases hb
  have hsame : ∀ side, b.runs side = true → t.block side = s.block side := fun side hr => by
    rw [hft side, if_neg fun har => by rw [h side har] at hr; cases hr]
  have hin : InDomain b s := fun side hr => by
    have hd := hbin side hr
    rwa [hsame side hr] at hd
  refine ⟨_, hg s hin, state_ext (fun side => ?_) (hf'.trans hf).symm (hp'.trans hp).symm (hl'.trans hl).symm⟩
  rw [takeBlocks_of_exec ha, block_takeBlocks, block_onBlocks, hgu side]
  cases hr : b.runs side with
  | false => rfl
  | true =>
    rw [hsame side hr, if_pos (show b.blk.runs side = true from hr)]

/-- A line of two executing slots, in terms of what each instruction leaves. -/
theorem runSlots_pair_true {a b : Instr} {s t v : State} (ca cb : Bool) (ha : exec a s = .next t) (hb : exec b s = .next v) :
    runSlots true s [⟨ca, a⟩, ⟨cb, b⟩] s = .next ((s.takeBlocks a t).takeBlocks b v) := by
  simp only [runSlots, ha, hb, Bool.not_true, Bool.and_false, Bool.false_eq_true, if_false]

/-- Settles O13: the slots of a well-formed line execute in different blocks. -/
theorem slotOrderHasNoEffect : Obligations.SlotOrderHasNoEffect := by
  intro a b cond ca cb σ hwf
  have hdis := disjointBlocks_of_wf hwf
  refine ⟨?_, fun t u hc ha hb => ?_⟩
  · rw [runLine, runLine, execLine, execLine, condValue_swap cond ⟨ca, a⟩, runSlots_swap hdis]
  · obtain ⟨v, hv, hu⟩ := exec_after_disjoint hdis ha hb
    obtain ⟨-, -, -, -, -, -, hl⟩ := exec_cases ha
    obtain ⟨-, -, -, -, -, -, hl'⟩ := exec_cases hb
    rw [runLine, execLine, hc, runSlots_pair_true ca cb ha hv, hu]
    dsimp only
    rw [State.advance, hl', hl]

/-! ## A program that avoids a block -/

/-- A line none of whose slots executes in a block leaves that block alone. -/
theorem execLine_block_of_lineRuns {side : Side} {l : Line} (havoid : lineRuns side l = false) {s v : State}
    (hwf : l.wf = true) (hin : LineInDomain l s) (h : execLine l s = .next v) : v.block side = s.block side := by
  cases l with
  | flagLoad dst f src c =>
    cases h
    cases side <;> rfl
  | issue cond slots =>
    obtain ⟨-, -, hrun, -⟩ := wf_issue hwf
    obtain ⟨u, hu, -, -, -, hb⟩ := runSlots_spec (condValue cond slots s) s slots s hrun hin
    cases hu.symm.trans h
    exact (hb side).2 fun sl hm hruns => List.any_eq_false.mp havoid sl hm hruns.2

/-- Settles O20: the program stays, and each of its lines leaves the block alone. -/
theorem programLeavesAvoidedBlockAlone : Obligations.ProgramLeavesAvoidedBlockAlone := by
  intro side σ u havoid h
  obtain ⟨t, l, v, hf, hd, hwf, hin, hv, rfl, hp, -⟩ := step_next_cases h
  refine ⟨?_, fun t' l' hm hd' => havoid t' l' (by rwa [program_advance, hp] at hm) hd'⟩
  rw [block_advance]
  exact execLine_block_of_lineRuns (havoid t l (List.mem_of_getElem? hf) hd) hwf hin hv

end Sys2Proof.Machine
end

section
/-! PROOFS. Conditions and static flags (45_conditional.md R255, R257, R258). -/

namespace Sys2Proof.Machine

open Sys2Proof Sys2Proof.Safety

theorem flagCondHolds_nslt (b : Block) : flagCondHolds .nslt b = !flagCondHolds .slt b := rfl

/-- Settles O22: NSLT is the negation of SLT, whose test is known. -/
theorem nsltIsTheComplementOfSlt : Obligations.NsltIsTheComplementOfSlt := by
  intro side sf σ
  rw [condHolds_flag, flagCondHolds_nslt, Bool.not_eq_true', ← Bool.not_eq_true, flagCondHolds_slt_iff]
  cases (σ.block side).sn <;> cases (σ.block side).sz <;> decide

/-- What each static flag is after a write to one of the four. -/
theorem get_set (fl : StaticFlags) (dst sd : Side) (f g : StaticFlag) (v : Bool) :
    (fl.set dst f v).get sd g = if sd = dst ∧ g = f then v else fl.get sd g := by
  cases dst <;> cases f <;> cases sd <;> cases g <;> rfl

theorem runLine_flagLoad (dst src : Side) (f : StaticFlag) (c : FlagCond) (s : State) :
    runLine (.flagLoad dst f src c) s =
      .next { s with flags := s.flags.set dst f (flagCondHolds c (s.block src)), lc := s.lc + 1 } := rfl

/-- Settles O23: the load is one write of a static flag. -/
theorem staticFlagLoadIsWhatSfTests : Obligations.StaticFlagLoadIsWhatSfTests := by
  intro σ t dst src f c hf hd
  exact ⟨_, (step_of_decodeLine hf hd).trans (runLine_flagLoad dst src f c σ), rfl, rfl, rfl, rfl,
    fun sd g => get_set σ.flags dst sd f g _⟩

/-- The block of a well-formed line's SF0 or SF1 is the one its controlled slots name. -/
theorem staticSide_eq {slots : List Slot} {side : Side} (hex : ∃ sl, sl ∈ slots ∧ sl.controlled = true)
    (h : controlledOnlyIn side slots = true) : staticSide slots = side := by
  obtain ⟨sl, hm, hc⟩ := hex
  cases side with
  | y => rw [staticSide, if_pos h]
  | x =>
    obtain ⟨-, honly⟩ := (controlledOnlyIn_iff .x slots).mp h sl hm hc
    refine if_neg fun hy => ?_
    obtain ⟨hruns, -⟩ := (controlledOnlyIn_iff .y slots).mp hy sl hm hc
    cases honly .y hruns

/-- Settles O24: the controlled slots name one block only, so it is any block they all execute in. -/
theorem staticConditionIsOfTheControlledBlock : Obligations.StaticConditionIsOfTheControlledBlock := by
  intro g slots side σ hwf hruns
  obtain ⟨-, -, -, hcond, -⟩ := wf_issue hwf
  obtain ⟨hex, side', hside'⟩ := (condProblem_static_iff g slots).mp hcond
  have hstatic : staticSide slots = side' := staticSide_eq hex ((controlledOnlyIn_iff side' slots).mpr hside')
  obtain ⟨sl, hm, hc⟩ := hex
  have hsame : side = side' := (hside' sl hm hc).2 side (hruns sl hm hc)
  rw [condValue, hstatic, hsame]
  rfl

end Sys2Proof.Machine
end

section
/-! PROOFS. What instructions may change at all (10_state.md R16, R19, R22, R23, R29, R30). -/

namespace Sys2Proof.Machine

open Sys2Proof Sys2Proof.Safety

/-- Settles O25: every meaning is a function of a block, applied where the operands are in the domain. -/
theorem everyInstrCompletesInItsDomain : Obligations.EveryInstrCompletesInItsDomain := by
  intro i σ
  obtain ⟨f, hin, hout⟩ := exec_domain i
  exact ⟨fun h => ⟨_, hin σ h⟩, hout σ⟩

/-- Settles O26: only the chosen blocks are replaced. -/
theorem instrChangesOnlyItsBlocks : Obligations.InstrChangesOnlyItsBlocks := by
  intro i σ t h
  obtain ⟨-, f, hb, -, hf, hp, hl⟩ := exec_cases h
  refine ⟨fun side hr => ?_, hf, hp, hl⟩
  rw [hb side, hr]
  rfl

/-- Settles O27: the same function of a block is applied in both states. -/
theorem blockEffectDependsOnThatBlockAlone : Obligations.BlockEffectDependsOnThatBlockAlone := by
  intro i side σ σ' t t' hsame h h'
  obtain ⟨-, f, hb, hf, -⟩ := exec_cases h
  obtain ⟨hin', -⟩ := exec_cases h'
  cases (hf σ' hin').symm.trans h'
  rw [hb side, block_onBlocks, hsame]
  rfl

/-! ## STAT and BFOTMP under the shared operations -/

@[simp] theorem statKept_result (b : Block) (s : Reg) (v : Word) : StatKept b (b.result s v) :=
  statKept_setZN (b.setReg s v) _

@[simp] theorem statKept_resultDual (b : Block) (s : Reg) (v : LongWord) : StatKept b (b.resultDual s v) :=
  statKept_setZN (b.setDual s v) _

@[simp] theorem statKept_resultLanes {E : Nat} (b : Block) (s : Reg) (rs : List (BitVec E)) :
    StatKept b (b.resultLanes s rs) := statKept_setZN (b.setReg s _) _

@[simp] theorem statKept_resultLanesDual {E : Nat} (b : Block) (s : Reg) (rs : List (BitVec E)) :
    StatKept b (b.resultLanesDual s rs) := statKept_setZN (b.setDual s _) _

@[simp] theorem statKept_testBit (side : Side) (b : Block) (t : Bool) : StatKept b (b.testBit side t) :=
  (testBit_spec side b t).2.2.1

theorem statKept_drawFlags (side : Side) (b : Block) : StatKept b (b.drawFlags side) := (drawFlags_spec side b).2.1

@[simp] theorem bfotmp_result (b : Block) (s : Reg) (v : Word) : (b.result s v).bfotmp = b.bfotmp := rfl

@[simp] theorem bfotmp_resultDual (b : Block) (s : Reg) (v : LongWord) : (b.resultDual s v).bfotmp = b.bfotmp := rfl

@[simp] theorem bfotmp_resultLanes {E : Nat} (b : Block) (s : Reg) (rs : List (BitVec E)) :
    (b.resultLanes s rs).bfotmp = b.bfotmp := rfl

@[simp] theorem bfotmp_resultLanesDual {E : Nat} (b : Block) (s : Reg) (rs : List (BitVec E)) :
    (b.resultLanesDual s rs).bfotmp = b.bfotmp := rfl

@[simp] theorem bfotmp_testBit (side : Side) (b : Block) (t : Bool) : (b.testBit side t).bfotmp = b.bfotmp := rfl

/-! ## What an instruction may write besides registers, SZ and SN -/

/-- Does the instruction write a bit of STAT other than SZ and SN? -/
def writesStat : Instr → Bool
  | .bkfpt .. | .statLoad .. | .statlLoad .. => true
  | _ => false

/-- Does the instruction write BFOTMP? -/
def writesBfotmp : Instr → Bool
  | .putbits .. | .bfotmpLoad .. => true
  | _ => false

/-- A function of a block keeps what an instruction does not write. -/
def KeepsUnwritten (i : Instr) (f : Side → Block → Block) : Prop :=
  ∀ side b, (writesStat i = false → StatKept b (f side b)) ∧ (writesBfotmp i = false → (f side b).bfotmp = b.bfotmp)

theorem keepsUnwritten_of_both {i : Instr} {f : Side → Block → Block} (hs : ∀ side b, StatKept b (f side b))
    (hb : ∀ side b, (f side b).bfotmp = b.bfotmp) : KeepsUnwritten i f := fun side b => ⟨fun _ => hs side b, fun _ => hb side b⟩

/-- The function of a block that an instruction is, with what that function keeps. -/
theorem exec_keepsUnwritten (i : Instr) : ∃ (ok : Block → Bool) (f : Side → Block → Block),
    (∀ σ, exec i σ = σ.onBlocksWithin i.blk ok f) ∧ KeepsUnwritten i f := by
  cases i
  case statLoad | statlLoad =>
    exact ⟨fun _ => true, _, fun _ => (onBlocksWithin_true _ _ _).symm, fun _ _ => ⟨nofun, fun _ => rfl⟩⟩
  case bkfpt =>
    exact ⟨fun _ => true, _, fun _ => (onBlocksWithin_true _ _ _).symm, fun _ _ => ⟨nofun, fun _ => rfl⟩⟩
  case statStore =>
    exact ⟨fun _ => true, _, fun _ => (onBlocksWithin_true _ _ _).symm,
      keepsUnwritten_of_both (fun side b => statKept_drawFlags side (b.setReg _ _)) fun _ _ => rfl⟩
  case bfotmpStore =>
    exact ⟨fun _ => true, _, fun _ => (onBlocksWithin_true _ _ _).symm,
      keepsUnwritten_of_both (fun side b => statKept_drawFlags side (b.setDual _ _)) fun _ _ => rfl⟩
  case bfotmpLoad =>
    exact ⟨fun _ => true, _, fun _ => (onBlocksWithin_true _ _ _).symm,
      fun side b => ⟨fun _ => statKept_drawFlags side (b.setBfotmp _), nofun⟩⟩
  case putbits =>
    exact ⟨fun _ => true, _, fun _ => (onBlocksWithin_true _ _ _).symm,
      fun side b => ⟨fun _ => statKept_resultDual (b.setBfotmp _).nextDraw _ _, nofun⟩⟩
  case fextNr | fextNd | fextLr | fextLd | fdepNr | fdepNd | fdepLr | fdepLd | getbits =>
    exact ⟨_, _, fun _ => rfl, keepsUnwritten_of_both (fun _ _ => by simp) fun _ _ => by simp⟩
  all_goals
    exact ⟨fun _ => true, _, fun _ => (onBlocksWithin_true _ _ _).symm,
      keepsUnwritten_of_both (fun _ _ => by simp) fun _ _ => by simp⟩

/-- What a completed instruction keeps in each block, whether it executes there or not. -/
theorem exec_keeps {i : Instr} {σ t : State} (h : exec i σ = .next t) (side : Side) :
    (writesStat i = false → StatKept (σ.block side) (t.block side)) ∧
      (writesBfotmp i = false → (t.block side).bfotmp = (σ.block side).bfotmp) := by
  obtain ⟨ok, f, hexec, hkeep⟩ := exec_keepsUnwritten i
  rw [hexec, State.onBlocksWithin] at h
  split at h
  · cases h
    rw [block_onBlocks]
    split
    · exact hkeep side _
    · exact ⟨fun _ _ _ _ => rfl, fun _ => rfl⟩
  · cases h

theorem statKept_of_exec {i : Instr} {σ t : State} (h : exec i σ = .next t) (hi : writesStat i = false) (side : Side) :
    StatKept (σ.block side) (t.block side) := (exec_keeps h side).1 hi

/-- Settles O30: the two exceptions are the instructions that write BFOTMP. -/
theorem onlyPutbitsAndLoadChangeBfotmp : Obligations.OnlyPutbitsAndLoadChangeBfotmp := by
  intro i σ t side h hput hload
  refine (exec_keeps h side).2 ?_
  cases i with
  | putbits blk s m n => exact absurd rfl (hput blk s m n)
  | bfotmpLoad blk m => exact absurd rfl (hload blk m)
  | _ => rfl

/-! ## The bits of STAT -/

theorem block_of_exec {i : Instr} {σ t : State} {blk : Blk} {f : Side → Block → Block} {side : Side}
    (h : exec i σ = .next t) (he : exec i σ = .next (σ.onBlocks blk f)) (hr : blk.runs side = true) :
    t.block side = f side (σ.block side) := by
  cases he.symm.trans h
  rw [block_onBlocks, if_pos hr]

theorem bf_of_statKept {b b' : Block} (h : StatKept b b') : b'.bf = b.bf :=
  bf_eq_of_stat (h _ Config.bfLsb_ne_szBit Config.bfLsb_ne_snBit) (h _ Config.bfLsb_succ_ne_szBit Config.bfLsb_succ_ne_snBit)

theorem bf_of_exec {i : Instr} {σ t : State} (h : exec i σ = .next t) (hi : writesStat i = false) (side : Side) :
    (t.block side).bf = (σ.block side).bf := bf_of_statKept (statKept_of_exec h hi side)

/-- Settles O28: a load gives BF1-0 the bits it covers, and no other instruction but BKFPT writes past SZ and SN. -/
theorem onlyBkfptAndStatLoadsChangeBf : Obligations.OnlyBkfptAndStatLoadsChangeBf := by
  intro i σ t side h hr
  cases i with
  | bkfpt blk m n => trivial
  | statLoad sd m =>
    dsimp only
    rw [block_of_exec h rfl hr]
    rfl
  | statlLoad sd m =>
    intro j hj
    have hlt : Config.bfLsb + j < 32 := by
      have := Config.positions_lt.2.2.1
      omega
    rw [block_of_exec h rfl hr, getLsbD_bf _ _ hj, getLsbD_bf _ _ hj, stat_setStat]
    exact getLsbD_lowMerge 14 _ _ _ hlt
  | _ => exact bf_of_exec h rfl side

/-- BKFPT writes SZ, SN and BF1-0. -/
theorem stat_bkfptBlock {side : Side} {b : Block} {v : BitVec 2} {j : Nat} (hsz : j ≠ Config.szBit) (hsn : j ≠ Config.snBit)
    (h0 : j ≠ Config.bfLsb) (h1 : j ≠ Config.bfLsb + 1) :
    ((b.setBf v).drawFlags side).stat.getLsbD j = b.stat.getLsbD j := by
  rw [statKept_drawFlags side (b.setBf v) j hsz hsn, stat_setBf, if_neg h1, if_neg h0]

/-- Settles O29: BKFPT is the one instruction left that writes past SZ and SN. -/
theorem onlyStatLoadsChangeOtherStatBits : Obligations.OnlyStatLoadsChangeOtherStatBits := by
  intro i σ t side j h hload hlow hsz hsn h0 h1
  cases i with
  | bkfpt blk m n =>
    cases hr : blk.runs side with
    | true =>
      rw [block_of_exec h rfl hr]
      exact stat_bkfptBlock hsz hsn h0 h1
    | false => rw [(instrChangesOnlyItsBlocks _ σ t h).1 side hr]
  | statLoad sd m => exact absurd rfl (hload sd m)
  | statlLoad sd m => exact absurd rfl (hlow sd m)
  | _ => exact statKept_of_exec h rfl side j hsz hsn

end Sys2Proof.Machine
end

section
/-! PROOFS. Registers, reset and layout (10_state.md R13, R25, R27; 92_eei_decisions.md D4, D18). -/

namespace Sys2Proof.Machine

open Sys2Proof

/-! ## Quad registers -/

theorem val_add_one (i : Reg) : (i + 1).val = (i.val + 1) % Config.nreg := Nat.add_mod_mod _ _ _

theorem val_add_two (i : Reg) : (i + 2).val = (i.val + 2) % Config.nreg := Nat.add_mod_mod _ _ _

theorem val_add_two_add_one (i : Reg) : (i + 2 + 1).val = (i.val + 3) % Config.nreg := by
  rw [val_add_one, val_add_two, Nat.mod_add_mod]

/-- The four registers of a quad register, each with 32 of its bits. -/
theorem getLsbD_quad_reg (b : Block) (i : Reg) (k : Nat) :
    (b.quad i).getLsbD k =
      if k < 32 then (b.reg i).getLsbD k
      else if k < 64 then (b.reg (i + 1)).getLsbD (k - 32)
      else if k < 96 then (b.reg (i + 2)).getLsbD (k - 64)
      else (b.reg (i + 2 + 1)).getLsbD (k - 96) := by
  have hsub : k - 64 - 32 = k - 96 := by omega
  rw [getLsbD_quad, getLsbD_dual, getLsbD_dual, hsub]
  by_cases h64 : k < 64
  · simp only [h64, if_true]
  · have h32 : ¬ k < 32 := by omega
    have hhigh : k - 64 < 32 ↔ k < 96 := by omega
    simp only [h64, h32, hhigh, if_false]

/-- Settles O32: in each quarter, the register is the one of that number. -/
theorem quadRegisterBits : Obligations.QuadRegisterBits := by
  intro b i r k hk hr
  rw [getLsbD_quad_reg]
  split_ifs with h0 h1 h2
  · have hquot : k / 32 = 0 := by omega
    have hreg : r = i := Fin.ext (by rw [hr, hquot]; exact Nat.mod_eq_of_lt i.isLt)
    rw [hreg, Nat.mod_eq_of_lt h0]
  · have hquot : k / 32 = 1 := by omega
    have hreg : r = i + 1 := Fin.ext (by rw [hr, hquot, val_add_one])
    have hmod : k % 32 = k - 32 := by omega
    rw [hreg, hmod]
  · have hquot : k / 32 = 2 := by omega
    have hreg : r = i + 2 := Fin.ext (by rw [hr, hquot, val_add_two])
    have hmod : k % 32 = k - 64 := by omega
    rw [hreg, hmod]
  · have hquot : k / 32 = 3 := by omega
    have hreg : r = i + 2 + 1 := Fin.ext (by rw [hr, hquot, val_add_two_add_one])
    have hmod : k % 32 = k - 96 := by omega
    rw [hreg, hmod]

/-! ## Reset and layout -/

theorem block_reset (side : Side) : State.reset.block side = Block.reset := by cases side <;> rfl

theorem reg_reset (r : Reg) : Block.reset.reg r = 0#32 := by simp [Block.reset, Block.reg]

/-- Settles O33: each field of the state after reset, the registers at any number. -/
theorem resetValues : Obligations.ResetValues := by
  refine ⟨rfl, rfl, fun side r => ?_, rfl⟩
  rw [block_reset]
  exact ⟨reg_reset r, rfl, rfl⟩

/-- Settles O34: the layout is a valid one whatever it is, and 18 registers are there. -/
theorem layoutMeetsTheSpecsBounds : Obligations.LayoutMeetsTheSpecsBounds := by
  obtain ⟨hnodup, hlt⟩ := of_decide_eq_true Config.layout_valid
  exact ⟨hnodup, hlt, Config.nreg_ge⟩

end Sys2Proof.Machine
end

section
/-! PROOFS. Shifts and rotates (40_shift_rotate.md R101 to R138). -/

namespace Sys2Proof.Machine

open Sys2Proof Sys2Proof.Safety

/-! ## Off-scale shifts -/

/-- A shift left by the width or more brings in zeros only. -/
theorem shiftLeft_of_width_le {E : Nat} (v : BitVec E) {k : Int} (h : (E : Int) ≤ k) : v <<< k.toNat = 0#E :=
  BitVec.shiftLeft_eq_zero (by omega)

theorem ash_of_le_neg_width {E : Nat} (v : BitVec E) {k : Int} (h : k ≤ -(E : Int)) :
    ash v k = if v.msb then BitVec.allOnes E else 0#E := by
  apply BitVec.eq_of_getLsbD_eq
  intro j hj
  have hleft : ¬ (j : Int) - k < 0 := by omega
  have hpast : ¬ (j : Int) - k < E := by omega
  rw [getLsbD_ash v k j hj, ashBit, if_neg hleft, if_neg hpast, ← BitVec.msb_eq_getLsbD_last]
  cases v.msb <;> simp [hj]

/-- Settles O36: left by the width or more, a shift is one of vectors; right, no source bit is left but the sign. -/
theorem offScaleShifts : Obligations.OffScaleShifts := by
  intro E v k
  constructor
  · intro h
    have hk : 0 ≤ k := by omega
    rw [lsh, ash, if_pos hk, if_pos hk]
    exact ⟨shiftLeft_of_width_le v h, shiftLeft_of_width_le v h⟩
  · intro h
    refine ⟨?_, ash_of_le_neg_width v h⟩
    apply BitVec.eq_of_getLsbD_eq
    intro j hj
    have hpast : ¬ (0 ≤ (j : Int) - k ∧ (j : Int) - k < E) := by omega
    rw [getLsbD_lsh v k j hj, lshBit, decide_eq_false hpast, Bool.false_and, BitVec.getLsbD_zero]

/-! ## Instructions that shift the lanes of a register -/

/-- A family of functions on elements of every width, one for each magnitude, that shifts as `bit` says. -/
structure ShiftFamily (bit : ElementBit) (f : (E : Nat) → Int → BitVec E → BitVec E) : Prop where
  element : ∀ E k, ShiftsElement bit E k (f E k)
  locality : LocalBits bit

theorem lsh_family : ShiftFamily lshBit fun _ k v => lsh v k := ⟨lsh_shiftsElement, lshBit_local⟩

theorem ash_family : ShiftFamily ashBit fun _ k v => ash v k := ⟨ash_shiftsElement, ashBit_local⟩

theorem rot_family : ShiftFamily rotBit fun _ k v => rot v k := ⟨rot_shiftsElement, rotBit_local⟩

/-- An instruction that shifts the lanes of a single register by a magnitude read from the block. -/
theorem does_shiftsReg {bit : ElementBit} {f : (E : Nat) → Int → BitVec E → BitVec E} (hf : ShiftFamily bit f)
    {i : Instr} {σ : State} {s m : Reg} {E k : Nat} {mag : Block → Int}
    (he : exec i σ = .next (σ.onBlocks i.blk fun _ b => b.resultLanes s ((lanes E k (b.reg m)).map (f E (mag b)))))
    (hE : 0 < E) (hw : E * k ≤ 32) : Does i σ (ShiftsReg bit E k s m mag) :=
  does_of_onBlocks _ he fun _ b => resultLanes_spec hf.locality b s m E k (mag b) _ (hf.element E (mag b)) hE hw

/-- An instruction that shifts the lanes of a dual register by a magnitude read from the block. -/
theorem does_shiftsDual {bit : ElementBit} {f : (E : Nat) → Int → BitVec E → BitVec E} (hf : ShiftFamily bit f)
    {i : Instr} {σ : State} {s m : Reg} {E k : Nat} {mag : Block → Int}
    (he : exec i σ = .next (σ.onBlocks i.blk fun _ b => b.resultLanesDual s ((lanes E k (b.dual m)).map (f E (mag b)))))
    (hE : 0 < E) (hw : E * k ≤ 64) : Does i σ (ShiftsDual bit E k s m mag) :=
  does_of_onBlocks _ he fun _ b => resultLanesDual_spec hf.locality b s m E k (mag b) _ (hf.element E (mag b)) hE hw

/-- Settles O37: each form applies the logical shift to the lanes of Rm. -/
theorem lshiftInOneRegister : Obligations.LshiftInOneRegister := by
  intro blk s m n imm σ
  refine ⟨?_, ?_, ?_, ?_, ?_, ?_⟩ <;> exact does_shiftsReg lsh_family rfl (by decide) (by decide)

/-- Settles O38: each form applies the logical shift to the lanes of Rmd. -/
theorem lshiftInADualRegister : Obligations.LshiftInADualRegister := by
  intro blk s m n imm σ
  refine ⟨?_, ?_, ?_, ?_, ?_, ?_, ?_, ?_⟩ <;> exact does_shiftsDual lsh_family rfl (by decide) (by decide)

/-- Settles O39: each form applies the arithmetic shift to the lanes of Rm. -/
theorem ashiftInOneRegister : Obligations.AshiftInOneRegister := by
  intro blk s m n imm σ
  refine ⟨?_, ?_, ?_, ?_, ?_, ?_⟩ <;> exact does_shiftsReg ash_family rfl (by decide) (by decide)

/-- Settles O40: each form applies the arithmetic shift to the lanes of Rmd. -/
theorem ashiftInADualRegister : Obligations.AshiftInADualRegister := by
  intro blk s m n imm σ
  refine ⟨?_, ?_, ?_, ?_, ?_, ?_, ?_, ?_⟩ <;> exact does_shiftsDual ash_family rfl (by decide) (by decide)

/-- A dual control register holds its magnitude in its lower register (D23). -/
theorem exec_rotDnr (blk : Blk) (s m n : Reg) (σ : State) :
    exec (.rotDnr blk s m n) σ = .next (σ.onBlocks blk fun _ b =>
      b.resultLanesDual s ((lanes 32 2 (b.dual m)).map (rot · ((b.reg n).setWidth 7).toInt))) := by
  show execRotDnr blk s m n σ = _
  simp only [execRotDnr, magnitude_dual 7 (by decide)]

theorem exec_rotLr (blk : Blk) (s m n : Reg) (σ : State) :
    exec (.rotLr blk s m n) σ = .next (σ.onBlocks blk fun _ b =>
      b.resultLanesDual s ((lanes 64 1 (b.dual m)).map (rot · ((b.reg n).setWidth 8).toInt))) := by
  show execRotLr blk s m n σ = _
  simp only [execRotLr, magnitude_dual 8 (by decide)]

/-- Settles O41: each form rotates the lanes of its data, the two with a dual control by its lower register. -/
theorem rotRotates : Obligations.RotRotates := by
  intro blk s m n imm σ
  refine ⟨does_shiftsReg rot_family rfl ?_ ?_, does_shiftsReg rot_family rfl ?_ ?_,
    does_shiftsDual rot_family (exec_rotDnr blk s m n σ) ?_ ?_, does_shiftsDual rot_family rfl ?_ ?_,
    does_shiftsDual rot_family (exec_rotLr blk s m n σ) ?_ ?_, does_shiftsDual rot_family rfl ?_ ?_⟩ <;> decide

end Sys2Proof.Machine
end

section
/-! PROOFS. Instructions of one result, and the bit manipulations (41_bit_manipulation.md R150 to R167). -/

namespace Sys2Proof.Machine

open Sys2Proof Sys2Proof.Safety

/-! ## Instructions of one result -/

theorem writesReg_of_value {Q : Block → Word → Prop} {b : Block} {v : Word} (s : Reg) (hQ : Q b v) :
    WritesReg s Q b (b.result s v) := by
  refine writesReg_mono (fun r hr => ?_) (result_spec b s v)
  obtain rfl : r = v := hr
  exact hQ

theorem writesDual_of_value {Q : Block → LongWord → Prop} {b : Block} {v : LongWord} (s : Reg) (hQ : Q b v) :
    WritesDual s Q b (b.resultDual s v) := by
  refine writesDual_mono (fun r hr => ?_) (resultDual_spec b s v)
  obtain rfl : r = v := hr
  exact hQ

/-- An instruction that writes one value of the block to a single register, with the value's flags. -/
theorem does_writesReg {i : Instr} {σ : State} {s : Reg} {Q : Block → Word → Prop} {v : Block → Word}
    (he : exec i σ = .next (σ.onBlocks i.blk fun _ b => b.result s (v b))) (hQ : ∀ b, Q b (v b)) :
    Does i σ (WritesReg s Q) :=
  does_of_onBlocks _ he fun _ b => writesReg_of_value s (hQ b)

/-- An instruction that writes one value of the block to a dual register, with the value's flags. -/
theorem does_writesDual {i : Instr} {σ : State} {s : Reg} {Q : Block → LongWord → Prop} {v : Block → LongWord}
    (he : exec i σ = .next (σ.onBlocks i.blk fun _ b => b.resultDual s (v b))) (hQ : ∀ b, Q b (v b)) :
    Does i σ (WritesDual s Q) :=
  does_of_onBlocks _ he fun _ b => writesDual_of_value s (hQ b)

/-- What a completed instruction did in a block it executes in. -/
theorem acts_of_does {i : Instr} {σ t : State} {P : Block → Block → Prop} {side : Side} (h : Does i σ P)
    (he : exec i σ = .next t) (hr : i.blk.runs side = true) : P (σ.block side) (t.block side) := by
  obtain ⟨t', he', hacts, -⟩ := h
  cases he'.symm.trans he
  exact hacts side hr

/-! ## One bit -/

theorem bclr_oneBitChanged {w : Nat} (d : BitVec w) (n : Nat) : OneBitChanged (fun _ => false) d n (bclr d n) := fun j hj =>
  getLsbD_bclr d n j hj

theorem bset_oneBitChanged {w : Nat} (d : BitVec w) (n : Nat) : OneBitChanged (fun _ => true) d n (bset d n) := fun j hj =>
  getLsbD_bset d n j hj

theorem btgl_oneBitChanged {w : Nat} (d : BitVec w) (n : Nat) : OneBitChanged not d n (btgl d n) := fun j hj =>
  getLsbD_btgl d n j hj

/-- Settles O42: a register names the bit by its low five bits. -/
theorem bitOpsOnANormalWord : Obligations.BitOpsOnANormalWord := by
  intro blk s m n imm σ
  simp only [← bitNumber_five]
  exact ⟨does_writesReg rfl fun _ => bclr_oneBitChanged _ _, does_writesReg rfl fun _ => bclr_oneBitChanged _ _,
    does_writesReg rfl fun _ => bset_oneBitChanged _ _, does_writesReg rfl fun _ => bset_oneBitChanged _ _,
    does_writesReg rfl fun _ => btgl_oneBitChanged _ _, does_writesReg rfl fun _ => btgl_oneBitChanged _ _⟩

/-- Settles O43: a register names the bit by its low six bits. -/
theorem bitOpsOnALongWord : Obligations.BitOpsOnALongWord := by
  intro blk s m n imm σ
  simp only [← bitNumber_six]
  exact ⟨does_writesDual rfl fun _ => bclr_oneBitChanged _ _, does_writesDual rfl fun _ => bclr_oneBitChanged _ _,
    does_writesDual rfl fun _ => bset_oneBitChanged _ _, does_writesDual rfl fun _ => bset_oneBitChanged _ _,
    does_writesDual rfl fun _ => btgl_oneBitChanged _ _, does_writesDual rfl fun _ => btgl_oneBitChanged _ _⟩

/-- An instruction that tests one bit of the block. -/
theorem does_testBit {i : Instr} {σ : State} {tested : Block → Bool}
    (he : exec i σ = .next (σ.onBlocks i.blk fun side b => b.testBit side (tested b))) :
    Does i σ fun b b' => (b'.sz = !tested b) ∧ OnlyRegsAndFlags [] b b' :=
  does_of_onBlocks _ he fun side b => testBit_spec side b (tested b)

/-- Settles O44: each form is a test of the bit its control names. -/
theorem bitestTestsOneBit : Obligations.BitestTestsOneBit := by
  intro blk m n imm σ
  simp only [← bitNumber_five, ← bitNumber_six]
  exact ⟨does_testBit rfl, does_testBit rfl, does_testBit rfl, does_testBit rfl⟩

/-! ## A set bit, and a bit toggled twice -/

/-- A result with a bit set inside it is not zero. -/
theorem sz_of_bitSet {w n : Nat} {d r : BitVec w} {b : Block} (hbit : OneBitChanged (fun _ => true) d n r) (hn : n < w)
    (hflags : OneResultFlags r b) : b.sz = false := by
  obtain ⟨hzero, -⟩ := hflags
  refine Bool.eq_false_iff.mpr fun hsz => ?_
  have hset := hbit n hn
  rw [hzero.mp hsz, if_pos rfl, BitVec.getLsbD_zero] at hset
  cases hset

theorem toggle_twice {w n n' : Nat} {d r r' : BitVec w} (hn : n' = n) (h : OneBitChanged not d n r)
    (h' : OneBitChanged not r n' r') : r' = d := by
  subst hn
  apply BitVec.eq_of_getLsbD_eq
  intro j hj
  rw [h' j hj, h j hj]
  split
  · exact Bool.not_not _
  · rfl

theorem sz_of_writesReg_bitSet {s : Reg} {d : Block → Word} {n : Block → Nat} {b b' : Block}
    (h : WritesReg s (fun b r => OneBitChanged (fun _ => true) (d b) (n b) r) b b') (hn : n b < 32) : b'.sz = false :=
  sz_of_bitSet h.1 hn h.2.1

theorem sz_of_writesDual_bitSet {s : Reg} {d : Block → LongWord} {n : Block → Nat} {b b' : Block}
    (h : WritesDual s (fun b r => OneBitChanged (fun _ => true) (d b) (n b) r) b b') (hn : n b < 64) : b'.sz = false :=
  sz_of_bitSet h.1 hn h.2.1

/-- Settles O45: what the eight forms do to one bit, and what that makes of the result. -/
theorem setIsNeverZeroAndToggleTwiceRestores : Obligations.SetIsNeverZeroAndToggleTwiceRestores := by
  intro blk side s s' m n n' imm σ t u hr
  obtain ⟨-, -, hsetNr, hsetNi, htglNr, htglNi⟩ := bitOpsOnANormalWord blk s m n imm σ
  obtain ⟨-, -, -, -, htglNr', htglNi'⟩ := bitOpsOnANormalWord blk s' s n' imm t
  obtain ⟨-, -, hsetLr, hsetLi, htglLr, htglLi⟩ := bitOpsOnALongWord blk s m n imm σ
  obtain ⟨-, -, -, -, htglLr', htglLi'⟩ := bitOpsOnALongWord blk s' s n' imm t
  refine ⟨fun ht => ?_, fun himm ht => ?_, fun ht => ?_, fun himm ht => ?_, fun ht hu hn => ?_, fun ht hu => ?_,
    fun ht hu hn => ?_, fun ht hu => ?_⟩
  · exact sz_of_writesReg_bitSet (acts_of_does hsetNr ht hr) (Nat.mod_lt _ (by decide))
  · exact sz_of_writesReg_bitSet (acts_of_does hsetNi ht hr) himm
  · exact sz_of_writesDual_bitSet (acts_of_does hsetLr ht hr) (Nat.mod_lt _ (by decide))
  · exact sz_of_writesDual_bitSet (acts_of_does hsetLi ht hr) himm
  · exact toggle_twice hn (acts_of_does htglNr ht hr).1 (acts_of_does htglNr' hu hr).1
  · exact toggle_twice rfl (acts_of_does htglNi ht hr).1 (acts_of_does htglNi' hu hr).1
  · exact toggle_twice hn (acts_of_does htglLr ht hr).1 (acts_of_does htglLr' hu hr).1
  · exact toggle_twice rfl (acts_of_does htglLi ht hr).1 (acts_of_does htglLi' hu hr).1

end Sys2Proof.Machine
end

section
/-! PROOFS. Bit fields and masks (42_bit_field.md R180 to R194). -/

namespace Sys2Proof.Machine

open Sys2Proof Sys2Proof.Safety

/-! ## Options of fields -/

theorem getLsbD_extractField {v w pos len j : Nat} (d : BitVec v) (se : Bool) (hlen : 1 ≤ len) (hj : j < w) :
    (extractField w d pos len se).getLsbD j = if j < len then d.getLsbD (pos + j) else (se && d.getLsbD (pos + (len - 1))) :=
  extractField_isField w d pos len se hlen j hj

theorem getLsbD_depositField_keep {w pos len j : Nat} (old d : BitVec w) (hlen : 1 ≤ len) (hj : j < w) :
    (depositField old d pos len .keep).getLsbD j =
      if j < pos then old.getLsbD j else if j < pos + len then d.getLsbD (j - pos) else old.getLsbD j :=
  depositField_isDeposit old d pos len .keep hlen j hj

theorem getLsbD_depositField_se {w pos len j : Nat} (old d : BitVec w) (hlen : 1 ≤ len) (hj : j < w) :
    (depositField old d pos len .se).getLsbD j =
      if j < pos then old.getLsbD j else if j < pos + len then d.getLsbD (j - pos) else d.getLsbD (len - 1) :=
  depositField_isDeposit old d pos len .se hlen j hj

theorem getLsbD_depositField_zf {w pos len j : Nat} (old d : BitVec w) (hlen : 1 ≤ len) (hj : j < w) :
    (depositField old d pos len .zf).getLsbD j =
      if j < pos then old.getLsbD j else if j < pos + len then d.getLsbD (j - pos) else false :=
  depositField_isDeposit old d pos len .zf hlen j hj

/-- With `(SE)` an extraction has above its field's top bit what it has there. -/
theorem extractField_se {v w pos len j : Nat} (d : BitVec v) (hlen : 1 ≤ len) (hj : j < w) :
    (extractField w d pos len true).getLsbD j =
      (extractField w d pos len false).getLsbD (if j ≤ len - 1 then j else len - 1) := by
  by_cases hin : j ≤ len - 1
  · have hfield : j < len := by omega
    rw [if_pos hin, getLsbD_extractField d true hlen hj, getLsbD_extractField d false hlen hj, if_pos hfield, if_pos hfield]
  · have hfield : ¬ j < len := by omega
    have htop : len - 1 < len := by omega
    have htopw : len - 1 < w := by omega
    rw [if_neg hin, getLsbD_extractField d true hlen hj, getLsbD_extractField d false hlen htopw, if_neg hfield, if_pos htop,
      Bool.true_and]

/-- With `(SE)` a deposit has above its field's top bit what it has there. -/
theorem depositField_se {w pos len j : Nat} (old d : BitVec w) (hlen : 1 ≤ len) (hj : j < w) :
    (depositField old d pos len .se).getLsbD j =
      (depositField old d pos len .keep).getLsbD (if j ≤ pos + len - 1 then j else pos + len - 1) := by
  by_cases hle : j ≤ pos + len - 1
  · have hfield : j < pos + len := by omega
    rw [if_pos hle, getLsbD_depositField_se old d hlen hj, getLsbD_depositField_keep old d hlen hj, if_pos hfield,
      if_pos hfield]
  · have hbelow : ¬ j < pos := by omega
    have hfield : ¬ j < pos + len := by omega
    have htopbelow : ¬ pos + len - 1 < pos := by omega
    have htop : pos + len - 1 < pos + len := by omega
    have htopw : pos + len - 1 < w := by omega
    have hsource : pos + len - 1 - pos = len - 1 := by omega
    rw [if_neg hle, getLsbD_depositField_se old d hlen hj, getLsbD_depositField_keep old d hlen htopw, if_neg hbelow,
      if_neg hfield, if_neg htopbelow, if_pos htop, hsource]

/-- Settles O48: at or below the top bit of the field the option is not seen, above it that bit is. -/
theorem signExtendOptionExtendsTheTopBit : Obligations.SignExtendOptionExtendsTheTopBit := fun _ _ _ _ _ d old e hlen hj =>
  ⟨extractField_se d hlen hj, fun _ => depositField_se old e hlen hj⟩

/-- Settles O49: at or below the top bit of the field the option is not seen. -/
theorem zeroFillOptionClearsAboveTheField : Obligations.ZeroFillOptionClearsAboveTheField := by
  intro w pos len j old d hlen _ hj
  rw [getLsbD_depositField_zf old d hlen hj, getLsbD_depositField_keep old d hlen hj]
  by_cases hle : j ≤ pos + len - 1
  · have hfield : j < pos + len := by omega
    rw [decide_eq_true hle, Bool.true_and, if_pos hfield, if_pos hfield]
  · have hbelow : ¬ j < pos := by omega
    have hfield : ¬ j < pos + len := by omega
    rw [decide_eq_false hle, Bool.false_and, if_neg hbelow, if_neg hfield]

/-! ## FEXT and FDEP -/

/-- An instruction with a domain that writes one value of the block to a single register. -/
theorem doesInDomain_writesReg {i : Instr} {σ : State} {s : Reg} {ok : Block → Bool} {Q : Block → Word → Prop}
    {v : Block → Word} (he : exec i σ = σ.onBlocksWithin i.blk ok fun _ b => b.result s (v b))
    (hd : ∀ b, ok b = true ↔ Domain i b) (hQ : ∀ b, Domain i b → Q b (v b)) : DoesInDomain i σ (WritesReg s Q) :=
  doesInDomain_of_onBlocksWithin ok _ he hd fun _ b hb => writesReg_of_value s (hQ b hb)

/-- An instruction with a domain that writes one value of the block to a dual register. -/
theorem doesInDomain_writesDual {i : Instr} {σ : State} {s : Reg} {ok : Block → Bool} {Q : Block → LongWord → Prop}
    {v : Block → LongWord} (he : exec i σ = σ.onBlocksWithin i.blk ok fun _ b => b.resultDual s (v b))
    (hd : ∀ b, ok b = true ↔ Domain i b) (hQ : ∀ b, Domain i b → Q b (v b)) : DoesInDomain i σ (WritesDual s Q) :=
  doesInDomain_of_onBlocksWithin ok _ he hd fun _ b hb => writesDual_of_value s (hQ b hb)

/-- The domain of a field whose control is a single register. -/
theorem fieldInside_single_iff (w : Nat) (b : Block) (n : Reg) :
    fieldInside w (pos8 (b.reg n)) (len7 (b.reg n)) = true ↔
      FieldInside w ((b.reg n).toNat / 256 % 256) ((b.reg n).toNat % 128) := by
  rw [fieldInside_iff, pos8_eq, len7_eq]

/-- The domain of a field whose control is a dual register. -/
theorem fieldInside_dual_iff (w : Nat) (b : Block) (n : Reg) :
    fieldInside w (pos8Dual (b.dual n)) (len7 (b.dual n)) = true ↔
      FieldInside w ((b.reg (n + 1)).toNat % 256) ((b.reg n).toNat % 128) := by
  rw [fieldInside_iff, pos8Dual_dual, len7_dual]

theorem extractField_single {w : Nat} (d : BitVec w) (se : Bool) {b : Block} {n : Reg}
    (h : FieldInside w ((b.reg n).toNat / 256 % 256) ((b.reg n).toNat % 128)) :
    IsField d ((b.reg n).toNat / 256 % 256) ((b.reg n).toNat % 128) se
      (extractField w d (pos8 (b.reg n)) (len7 (b.reg n)) se) := by
  rw [pos8_eq, len7_eq]
  exact extractField_isField w d _ _ se h.1

theorem extractField_dual {w : Nat} (d : BitVec w) (se : Bool) {b : Block} {n : Reg}
    (h : FieldInside w ((b.reg (n + 1)).toNat % 256) ((b.reg n).toNat % 128)) :
    IsField d ((b.reg (n + 1)).toNat % 256) ((b.reg n).toNat % 128) se
      (extractField w d (pos8Dual (b.dual n)) (len7 (b.dual n)) se) := by
  rw [pos8Dual_dual, len7_dual]
  exact extractField_isField w d _ _ se h.1

theorem depositField_single {w : Nat} (old d : BitVec w) (fill : Fill) {b : Block} {n : Reg}
    (h : FieldInside w ((b.reg n).toNat / 256 % 256) ((b.reg n).toNat % 128)) :
    IsDeposit old d ((b.reg n).toNat / 256 % 256) ((b.reg n).toNat % 128) fill
      (depositField old d (pos8 (b.reg n)) (len7 (b.reg n)) fill) := by
  rw [pos8_eq, len7_eq]
  exact depositField_isDeposit old d _ _ fill h.1

theorem depositField_dual {w : Nat} (old d : BitVec w) (fill : Fill) {b : Block} {n : Reg}
    (h : FieldInside w ((b.reg (n + 1)).toNat % 256) ((b.reg n).toNat % 128)) :
    IsDeposit old d ((b.reg (n + 1)).toNat % 256) ((b.reg n).toNat % 128) fill
      (depositField old d (pos8Dual (b.dual n)) (len7 (b.dual n)) fill) := by
  rw [pos8Dual_dual, len7_dual]
  exact depositField_isDeposit old d _ _ fill h.1

/-- Settles O46: a field that lies inside the operand is not empty, so it has a top bit to extend. -/
theorem fextExtractsTheField : Obligations.FextExtractsTheField := fun _ _ m n se _ =>
  ⟨doesInDomain_writesReg rfl (fieldInside_single_iff 32 · n) fun b hb => extractField_single (b.reg m) se hb,
    doesInDomain_writesReg rfl (fieldInside_dual_iff 32 · n) fun b hb => extractField_dual (b.reg m) se hb,
    doesInDomain_writesDual rfl (fieldInside_single_iff 64 · n) fun b hb => extractField_single (b.dual m) se hb,
    doesInDomain_writesDual rfl (fieldInside_dual_iff 64 · n) fun b hb => extractField_dual (b.dual m) se hb⟩

/-- Settles O47: the deposit is into the old destination, with the domain of FEXT. -/
theorem fdepDepositsTheField : Obligations.FdepDepositsTheField := fun _ s m n fill _ =>
  ⟨doesInDomain_writesReg rfl (fieldInside_single_iff 32 · n) fun b hb => depositField_single (b.reg s) (b.reg m) fill hb,
    doesInDomain_writesReg rfl (fieldInside_dual_iff 32 · n) fun b hb => depositField_dual (b.reg s) (b.reg m) fill hb,
    doesInDomain_writesDual rfl (fieldInside_single_iff 64 · n) fun b hb => depositField_single (b.dual s) (b.dual m) fill hb,
    doesInDomain_writesDual rfl (fieldInside_dual_iff 64 · n) fun b hb => depositField_dual (b.dual s) (b.dual m) fill hb⟩

/-! ## MASK -/

/-- Settles O50: bit by bit, the mask chooses between the data and the old destination. -/
theorem maskCopiesUnderTheMask : Obligations.MaskCopiesUnderTheMask := fun _ _ _ _ _ =>
  ⟨does_writesReg rfl fun _ j hj => getLsbD_maskMerge _ _ _ j hj,
    does_writesDual rfl fun _ j hj => getLsbD_maskMerge _ _ _ j hj⟩

end Sys2Proof.Machine
end

section
/-! PROOFS. The STAT moves (42_bit_field.md R195 to R198) and the conversions (43_conversion.md R210 to R219). -/

namespace Sys2Proof.Machine

open Sys2Proof Sys2Proof.Safety

/-! ## STAT moves -/

/-- Settles O51: the low load merges 14 bits of Rm into STAT. -/
theorem statLoadsFromARegister : Obligations.StatLoadsFromARegister := fun _ m _ =>
  ⟨does_of_onBlocks (fun _ b => b.setStat (b.reg m)) rfl fun _ _ => ⟨rfl, fun _ _ => rfl, rfl⟩,
    does_of_onBlocks (fun _ b => b.setStat (lowMerge Config.statlWidth b.stat (b.reg m))) rfl fun _ b =>
      ⟨getLsbD_lowMerge 14 b.stat (b.reg m), fun _ _ => rfl, rfl⟩⟩

/-- A write of registers keeps what it does when both flags are drawn after it. -/
theorem onlyRegsAndFlags_drawFlags {written : List Reg} {b b' : Block} (side : Side) (h : OnlyRegsAndFlags written b b') :
    OnlyRegsAndFlags written b (b'.drawFlags side) := by
  obtain ⟨hregs, hstat, hbfotmp⟩ := h
  exact ⟨hregs, statKept_trans hstat (statKept_drawFlags side b'), hbfotmp⟩

theorem statKept_refl (b : Block) : StatKept b b := fun _ _ _ => rfl

/-- Settles O52: STAT is read before the flags are drawn. -/
theorem statStoresToARegister : Obligations.StatStoresToARegister := fun _ s _ =>
  does_of_onBlocks (fun sd b => (b.setReg s b.stat).drawFlags sd) rfl fun sd b =>
    ⟨reg_setReg_self b s b.stat, onlyRegsAndFlags_drawFlags sd ⟨regsKept_setReg b s b.stat, statKept_refl b, rfl⟩⟩

/-! ## Conversions -/

/-- A count of leading bits fits in the result register. -/
theorem countsLeading_ofNat {w c : Nat} {v : BitVec w} {one : Bool} (h : CountsLeading v one c) (hw : w ≤ 64) :
    CountsLeading v one (BitVec.ofNat 32 c).toNat := by
  have hc : c ≤ w := h.1
  have hfits : (BitVec.ofNat 32 c).toNat = c := by rw [BitVec.toNat_ofNat, Nat.mod_eq_of_lt (by omega)]
  rwa [hfits]

/-- Settles O53: each form writes the count of its data. -/
theorem leadingCounts : Obligations.LeadingCounts := fun _ _ _ _ =>
  ⟨does_writesReg rfl fun _ => countsLeading_ofNat (clz_countsLeading _) (by decide),
    does_writesReg rfl fun _ => countsLeading_ofNat (clz_countsLeading _) (by decide),
    does_writesReg rfl fun _ => countsLeading_ofNat (clo_countsLeading _) (by decide),
    does_writesReg rfl fun _ => countsLeading_ofNat (clo_countsLeading _) (by decide)⟩

/-- Settles O54: one result, whatever the function is. -/
theorem expWritesItsFunction : Obligations.ExpWritesItsFunction := fun _ _ _ _ =>
  ⟨does_writesReg rfl fun _ => rfl, does_writesReg rfl fun _ => rfl⟩

/-- Settles O55: the draws of the flags leave the BF1-0 just written. -/
theorem bkfptWritesBf : Obligations.BkfptWritesBf := fun _ m n _ =>
  does_of_onBlocks (fun side b => (b.setBf (Config.bkfpt b.bf (b.dual m) (b.dual n))).drawFlags side) rfl fun side b =>
    ⟨(bf_drawFlags side _).trans (bf_setBf b _), fun _ _ => rfl, rfl,
      fun _ hsz hsn h0 h1 => stat_bkfptBlock hsz hsn h0 h1⟩

end Sys2Proof.Machine
end

section
/-! PROOFS. The bit stream (44_bit_stream.md R230 to R247). -/

namespace Sys2Proof.Machine

open Sys2Proof Sys2Proof.Safety

/-! ## GETBITS and PUTBITS -/

/-- The domain of GETBITS: a length of 1 to 64. -/
theorem lengthInside_iff (b : Block) (n : Reg) :
    decide (1 ≤ len7 (b.dual n) ∧ len7 (b.dual n) ≤ 64) = true ↔
      1 ≤ (b.reg n).toNat % 128 ∧ (b.reg n).toNat % 128 ≤ 64 := by
  rw [decide_eq_true_iff, len7_dual]

/-- Settles O56: the field of the quad register, as long as it is not empty. -/
theorem getbitsExtractsFromTheStream : Obligations.GetbitsExtractsFromTheStream := by
  intro blk s m n se σ
  refine doesInDomain_writesDual rfl (lengthInside_iff · n) fun b hb => ?_
  obtain ⟨hlen, -⟩ : 1 ≤ (b.reg n).toNat % 128 ∧ (b.reg n).toNat % 128 ≤ 64 := hb
  rw [bfp6_dual, len7_dual]
  exact extractField_isField 64 (b.quad m) _ _ se hlen

/-- What PUTBITS does to a block: the overflow and one draw, then the result with its flags. -/
def putbitsBlock (s m n : Reg) (side : Side) (b : Block) : Block :=
  ((b.setBfotmp (putOverflow (b.dual m) (b.drawn side) (bfp6 (b.dual n)))).nextDraw).resultDual s
    (putLow (b.dual s) (b.dual m) (bfp6 (b.dual n)))

theorem exec_putbits (blk : Blk) (s m n : Reg) (σ : State) :
    exec (.putbits blk s m n) σ = .next (σ.onBlocks blk (putbitsBlock s m n)) := rfl

theorem putbitsBlock_writesDual (s m n : Reg) (side : Side) (b : Block) :
    WritesDual s (fun _ r => r = putLow (b.dual s) (b.dual m) ((b.reg (n + 1)).toNat % 64))
      (b.setBfotmp (putOverflow (b.dual m) (b.drawn side) ((b.reg (n + 1)).toNat % 64))).nextDraw
      (putbitsBlock s m n side b) := by
  rw [putbitsBlock, bfp6_dual]
  exact resultDual_spec _ _ _

theorem bfotmp_putbitsBlock (s m n : Reg) (side : Side) (b : Block) :
    (putbitsBlock s m n side b).bfotmp = putOverflow (b.dual m) (b.drawn side) ((b.reg (n + 1)).toNat % 64) := by
  rw [putbitsBlock, bfotmp_resultDual, bfotmp_nextDraw, bfotmp_setBfotmp, bfp6_dual]

/-- Settles O57: the result of the low bits, the overflow of the others. -/
theorem putbitsDepositsIntoTheStream : Obligations.PutbitsDepositsIntoTheStream := by
  intro blk s m n σ
  refine does_of_onBlocks _ (exec_putbits blk s m n σ) fun side b => ?_
  obtain ⟨hresult, hflags, hregs, hstat, -⟩ := putbitsBlock_writesDual s m n side b
  have hbfp : (b.reg (n + 1)).toNat % 64 < 64 := Nat.mod_lt _ (by decide)
  refine ⟨fun j hj => ?_, fun j hj => ?_, hflags, hregs, hstat⟩
  · rw [hresult, getLsbD_putLow _ _ _ j hj]
  · rw [bfotmp_putbitsBlock, getLsbD_putOverflow _ _ _ j hbfp.le (hj.trans hbfp), if_pos hj]

/-! ## Moves -/

/-- Settles O58: each move is one write, then the flags are drawn. -/
theorem bfotmpMoves : Obligations.BfotmpMoves := fun _ s m _ =>
  ⟨does_of_onBlocks (fun side b => (b.setDual s b.bfotmp).drawFlags side) rfl fun side b =>
      ⟨dual_setDual b s b.bfotmp, onlyRegsAndFlags_drawFlags side ⟨regsKept_setDual b s b.bfotmp, statKept_refl b, rfl⟩⟩,
    does_of_onBlocks (fun side b => (b.setBfotmp (b.dual m)).drawFlags side) rfl fun side b =>
      ⟨rfl, fun _ _ => rfl, statKept_drawFlags side (b.setBfotmp (b.dual m))⟩⟩

/-- Settles O59: the two moves, one after the other. -/
theorem bfotmpReturnsWhatWasLoaded : Obligations.BfotmpReturnsWhatWasLoaded := by
  intro blk side s m σ t u hr ht hu
  obtain ⟨-, hload⟩ := bfotmpMoves blk s m σ
  obtain ⟨hstore, -⟩ := bfotmpMoves blk s m t
  calc (u.block side).dual s = (t.block side).bfotmp := (acts_of_does hstore hu hr).1
    _ = (σ.block side).dual m := (acts_of_does hload ht hr).1

/-! ## BFOINC -/

/-- The upper control register with a new pointer in its low six bits. -/
def withPointer (up : Word) (p : Nat) : Word := ((up >>> 6) <<< 6) ||| BitVec.ofNat 32 p

theorem toNat_withPointer (up : Word) {p : Nat} (hp : p < 64) : (withPointer up p).toNat = up.toNat / 64 * 64 + p := by
  have hup := up.isLt
  have hhigh : up.toNat / 64 * 64 < 2 ^ 32 := by omega
  have hlow : p < 2 ^ 32 := by omega
  have hbits : p < 2 ^ 6 := hp
  have hor : (up.toNat / 64) <<< 6 + p = (up.toNat / 64) <<< 6 ||| p := Nat.shiftLeft_add_eq_or_of_lt hbits _
  rw [Nat.shiftLeft_eq] at hor
  rw [withPointer, BitVec.toNat_or, BitVec.toNat_shiftLeft, BitVec.toNat_ushiftRight, BitVec.toNat_ofNat,
    Nat.mod_eq_of_lt hlow, Nat.shiftRight_eq_div_pow, Nat.shiftLeft_eq, Nat.mod_eq_of_lt hhigh]
  exact hor.symm

/-- What BFOINC does to its block. -/
def bfoincBlock (n : Reg) (side : Side) (b : Block) : Block :=
  let sum := (b.reg (n + 1)).toNat % 64 + (b.reg n).toNat % 128
  let b' := b.setReg (n + 1) (withPointer (b.reg (n + 1)) (sum % 64))
  if 64 ≤ sum then b'.setAn true else (b'.setAn ((b.drawn side).getLsbD 0)).nextDraw

theorem hostBfoinc_eq (σ : State) (side : Side) (n : Reg) : σ.hostBfoinc side n = σ.onBlocks side.blk (bfoincBlock n) := by
  simp only [State.hostBfoinc, bfp6_dual, len7_dual]
  rfl

theorem runs_side_blk (side other : Side) : side.blk.runs other = decide (other = side) := by
  cases side <;> cases other <;> rfl

theorem reg_bfoincBlock (n r : Reg) (side : Side) (b : Block) :
    (bfoincBlock n side b).reg r = if n + 1 = r then
      withPointer (b.reg (n + 1)) (((b.reg (n + 1)).toNat % 64 + (b.reg n).toNat % 128) % 64) else b.reg r := by
  rw [← reg_setReg]
  unfold bfoincBlock
  dsimp only
  split <;> rfl

theorem toNat_pointer_bfoincBlock (n : Reg) (side : Side) (b : Block) :
    ((bfoincBlock n side b).reg (n + 1)).toNat =
      (b.reg (n + 1)).toNat / 64 * 64 + ((b.reg (n + 1)).toNat % 64 + (b.reg n).toNat % 128) % 64 := by
  rw [reg_bfoincBlock, if_pos rfl, toNat_withPointer _ (Nat.mod_lt _ (by decide))]

theorem an_bfoincBlock {n : Reg} {side : Side} {b : Block} (h : 64 ≤ (b.reg (n + 1)).toNat % 64 + (b.reg n).toNat % 128) :
    (bfoincBlock n side b).an = true := by
  rw [bfoincBlock, if_pos h, an_setAn]

theorem stat_bfoincBlock (n : Reg) (side : Side) (b : Block) {j : Nat} (hj : j ≠ Config.anBit) :
    (bfoincBlock n side b).stat.getLsbD j = b.stat.getLsbD j := by
  unfold bfoincBlock
  dsimp only
  split
  · rw [stat_setAn, if_neg hj, stat_setReg]
  · rw [stat_nextDraw, stat_setAn, if_neg hj, stat_setReg]

theorem bfotmp_bfoincBlock (n : Reg) (side : Side) (b : Block) : (bfoincBlock n side b).bfotmp = b.bfotmp := by
  unfold bfoincBlock
  dsimp only
  split <;> rfl

/-- Settles O60: the block's function, field by field. -/
theorem bfoincAdvancesThePointer : Obligations.BfoincAdvancesThePointer := by
  intro side other n r σ j
  dsimp only
  have hblock : (σ.hostBfoinc side n).block side = bfoincBlock n side (σ.block side) := by
    rw [hostBfoinc_eq, block_onBlocks, runs_side_blk, decide_eq_true rfl, if_pos rfl]
  have hpointer := toNat_pointer_bfoincBlock n side (σ.block side)
  rw [hblock]
  refine ⟨by omega, by omega, fun hr => ?_, an_bfoincBlock, stat_bfoincBlock n side _, bfotmp_bfoincBlock n side _,
    fun hother => ?_⟩
  · rw [reg_bfoincBlock, if_neg (Ne.symm hr)]
  · rw [hostBfoinc_eq, block_onBlocks, runs_side_blk, decide_eq_false hother]
    rfl

end Sys2Proof.Machine
end
